-- ==== Sys2Proof/Word.lean ====
section
/-! DEFINITION. The widths of the hardware's values (spec/00_scope.md R7): all unsigned, bit 0 the least
significant. -/

namespace Sys2Proof

/-- A byte, `u8` of R7; also one pixel as it travels in a payload (R73). -/
abbrev Byte := BitVec 8

/-- A 16-bit element, `u16` of R7: a register, a colour, one word of a descriptor. -/
abbrev Half := BitVec 16

/-- A 32-bit word, `u32` of R7: a command word, a payload or response word, a tile row. -/
abbrev Word := BitVec 32

end Sys2Proof
end

