-- ==== Sys2Proof/Config.lean ====
section
/-! DEFINITION. What one machine fixes and the spec leaves open: the three model arguments of
spec/00_scope.md R6, and the values the spec calls unspecified. Each value is a constant without a body, so
nothing proved of the model can lean on it. -/

namespace Sys2Proof

/-- `CLEAR_POLICY` (R6, R185): does FRAME.BEGIN clear the whole sprite table? -/
inductive ClearPolicy where
  | explicitOnly | everyFrame
deriving DecidableEq, Repr, Inhabited

/-- The three model arguments of R6, each at every value the spec admits. -/
structure Params where
  /-- `INDEX_CHANNEL` in 0 to 3 (R145): which channel of a source pixel holds the palette index. -/
  indexChannel : BitVec 2
  /-- An eighth of `BLOB_MAX_WORDS`, which is a multiple of 8 below 2^32, 0 included (R6, R23, R201). -/
  blobMaxTiles : BitVec 29
  /-- `CLEAR_POLICY` (R185). -/
  clearPolicy : ClearPolicy
deriving DecidableEq, Repr, Inhabited

/-- `BLOB_MAX_WORDS`, the capacity of the blob memory in words. -/
def Params.blobMaxWords (p : Params) : Nat := 8 * p.blobMaxTiles.toNat

/-- The arguments of this machine. DESIGN CHOICE of form, safe: open (log 1). -/
opaque Config.params : Params

/-- The reset draw (spec/10_state.md R31): what the byte at an address holds after reset number `draw`
until it is written. A free value: nothing constrains it (log 2). -/
opaque Config.resetByte (draw addr : Nat) : Byte

/-- Bits 15 to 10 of a KEYINPUT read (R13), one draw per read. A free value (log 3). -/
opaque Config.keyHigh (draw : Nat) : BitVec 6

end Sys2Proof
end

