-- ==== Sys2Proof/Syntax.lean ====
section
/-! DEFINITION. What the host sends: commands as they arrive on the `cmd` port (spec/30_encoding.md R70),
the 33 opcodes (R75), and the 33 instructions a command stands for once its fields are pulled out. -/

namespace Sys2Proof

/-- One command as the `cmd` port frames it (R70): the command word and its payload words. The length of
`pl` is the framed length. -/
structure Command where
  cw : Word
  pl : List Word
deriving DecidableEq, Repr

/-- The six regions of the region table, in the order of their ids 0 to 5 (spec/10_state.md R11). -/
inductive Region where
  | dispcnt | keyinput | backdrop | objpal | objtile | oam
deriving DecidableEq, Repr

/-- The 33 opcodes of R75, one per row of the map. -/
inductive Opcode where
  | nop | statRd | vblWait
  | rgnAddr | regRd | regWr | palRd | palWr
  | pack8 | unpack8 | tileWrpx | tileRdpx | tileWrw | tileRdw
  | mapPx | mapQuad | cmpBitmap | blobRd | tileLdb | sprLoad16
  | descNew | descSize | descTile | descPal | descX | descY | descRd | descDec
  | oamAlloc | oamWr | oamRd | oamClear | frameBegin
deriving DecidableEq, Repr

/-- The three formats of R72: which of the fields `a` and `v` of the command word a command uses. -/
inductive Format where
  | z | v | av
deriving DecidableEq, Repr

/-- Why the decoder turns a command away: the five checks of R84, in its order. All five raise the one
fault `IllegalCommand`. -/
inductive DecodeError where
  /-- Check (1): `op` is not one of the 33 values of R75. -/
  | unknownOpcode
  /-- Check (2): a field that must be zero is not, or a field operand is too large for its width. -/
  | reservedBits
  /-- Check (3): the selector is a reserved region id for this command. -/
  | reservedRegion
  /-- Check (4): the payload has not the length R76 requires. -/
  | payloadLength
  /-- Check (5): a payload word has a non-zero bit where its packing defines zeros. -/
  | payloadBits
deriving DecidableEq, Repr

/-- An instruction: one constructor per row of spec/opcode_table.json, with its operands at the widths
R73 and R75 give them. Pixel payloads are lists of pixel bytes, row payloads lists of words; their
required lengths are checked by `Instr.wf`. -/
inductive Instr where
  /-- `NOP` (R200). -/
  | nop
  /-- `STAT.RD` (R201). -/
  | statRd
  /-- `VBL.WAIT` (R203). -/
  | vblWait
  /-- `RGN.ADDR r, i` (R101). -/
  | rgnAddr (r : Region) (i : Half)
  /-- `REG.RD r` (R102). -/
  | regRd (r : Region)
  /-- `REG.WR r, val` (R103). -/
  | regWr (r : Region) (val : Half)
  /-- `PAL.RD i` (R105). -/
  | palRd (i : Byte)
  /-- `PAL.WR i, c` (R106). -/
  | palWr (i : Byte) (c : Half)
  /-- `PACK8 {p0 .. p7}` (R124): eight pixel bytes. -/
  | pack8 (px : List Byte)
  /-- `UNPACK8 w` (R125). -/
  | unpack8 (w : Word)
  /-- `TILE.WRPX t, {p0 .. p63}` (R126): 64 pixel bytes. -/
  | tileWrpx (t : Half) (px : List Byte)
  /-- `TILE.RDPX t` (R127). -/
  | tileRdpx (t : Half)
  /-- `TILE.WRW t, {w0 .. w7}` (R128): eight packed words. -/
  | tileWrw (t : Half) (ws : List Word)
  /-- `TILE.RDW t` (R129). -/
  | tileRdw (t : Half)
  /-- `MAP.PX wt, x, y` (R143). -/
  | mapPx (wt x y : Half)
  /-- `MAP.QUAD wt, k` (R144). -/
  | mapQuad (wt k : Half)
  /-- `CMP.BITMAP` (R146). Its payload stands as it came: R84 places its length check inside R146, after
  other checks, so the decoder accepts every payload and the meaning makes the checks. -/
  | cmpBitmap (pl : List Word)
  /-- `BLOB.RD j` (R147). -/
  | blobRd (j : Word)
  /-- `TILE.LDB dst, src` (R148). -/
  | tileLdb (dst : Half) (src : Word)
  /-- `SPR.LOAD16 dst, k` (R149). -/
  | sprLoad16 (dst k : Half)
  /-- `DESC.NEW` (R173). -/
  | descNew
  /-- `DESC.SIZE shape, size` (R174). -/
  | descSize (shape size : BitVec 2)
  /-- `DESC.TILE t` (R175). -/
  | descTile (tile : BitVec 10)
  /-- `DESC.PAL p` (R176). -/
  | descPal (palette : BitVec 4)
  /-- `DESC.X x` (R177). -/
  | descX (x : BitVec 9)
  /-- `DESC.Y y` (R178). -/
  | descY (y : BitVec 8)
  /-- `DESC.RD` (R179). -/
  | descRd
  /-- `DESC.DEC w0, w1, w2` (R180). -/
  | descDec (w0 w1 w2 : Half)
  /-- `OAM.ALLOC` (R181). -/
  | oamAlloc
  /-- `OAM.WR s` (R182). -/
  | oamWr (slot : Half)
  /-- `OAM.RD s` (R183). -/
  | oamRd (slot : Half)
  /-- `OAM.CLEAR` (R184). -/
  | oamClear
  /-- `FRAME.BEGIN` (R185). -/
  | frameBegin
deriving DecidableEq, Repr

end Sys2Proof
end

