-- ==== Sys2Proof/WellFormed.lean ====
section
/-! DEFINITION. Which terms of `Instr` a legal command can stand for: what the operand types do not
already say of spec/30_encoding.md R84 and R76. -/

namespace Sys2Proof

/-- REG.RD reaches the three single registers only: ids 0 to 2 (R102, R84 check 3). -/
def Region.readable : Region → Bool
  | .dispcnt | .keyinput | .backdrop => true
  | .objpal | .objtile | .oam => false

/-- REG.WR reaches DISPCNT and BACKDROP only; a write of KEYINPUT has no encoding (R103, R104). -/
def Region.writable : Region → Bool
  | .dispcnt | .backdrop => true
  | .keyinput | .objpal | .objtile | .oam => false

/-- The selector is one the command may name, and a payload list has the length R76 requires. -/
def Instr.wf : Instr → Bool
  | .regRd r => r.readable
  | .regWr r _ => r.writable
  | .pack8 px => px.length == 8
  | .tileWrpx _ px => px.length == 64
  | .tileWrw _ ws => ws.length == 8
  | .nop | .statRd | .vblWait | .rgnAddr _ _ | .palRd _ | .palWr _ _ | .unpack8 _ | .tileRdpx _
  | .tileRdw _ | .mapPx _ _ _ | .mapQuad _ _ | .cmpBitmap _ | .blobRd _ | .tileLdb _ _
  | .sprLoad16 _ _ | .descNew | .descSize _ _ | .descTile _ | .descPal _ | .descX _ | .descY _
  | .descRd | .descDec _ _ _ | .oamAlloc | .oamWr _ | .oamRd _ | .oamClear | .frameBegin => true

end Sys2Proof
end

