-- ==== Sys2Proof/Decode.lean ====
section
/-! DEFINITION. Decoding a command (spec/30_encoding.md R70 to R76 and R84): total on every command,
rejecting by the name of the check that fails. After it the encoder, written from the same tables. There
is no byte order to a command: it arrives as 32-bit words on a port (spec/20_memory.md R41, R55). -/

namespace Sys2Proof

/-! ### Fields and packings -/

/-- Bits 15 to 0 of a payload word. -/
def lowHalf (w : Word) : Half := w.extractLsb' 0 16

/-- Bits 31 to 16 of a payload word. -/
def highHalf (w : Word) : Half := w.extractLsb' 16 16

/-- `{hi, lo}` of R7: `hi` in bits 31 to 16. -/
def pairWord (hi lo : Half) : Word := hi ++ lo

/-- The four bytes of a word, byte 0 the lowest (R41, R73). -/
def bytesOfWord (w : Word) : List Byte :=
  [w.extractLsb' 0 8, w.extractLsb' 8 8, w.extractLsb' 16 8, w.extractLsb' 24 8]

/-- Pixel bytes out of payload words: byte `j` is byte `j mod 4` of word `j / 4` (R73). -/
def bytesOfWords : List Word → List Byte
  | [] => []
  | w :: ws => bytesOfWord w ++ bytesOfWords ws

/-- Pixel bytes into words, four a word, byte 0 the lowest (R73). -/
def wordsOfBytes : List Byte → List Word
  | b0 :: b1 :: b2 :: b3 :: rest => (b3 ++ b2 ++ b1 ++ b0 : Word) :: wordsOfBytes rest
  | _ => []

/-- `op = cw[31:24]` (R71). -/
def Command.op (c : Command) : Byte := c.cw.extractLsb' 24 8

/-- `a = cw[23:16]` (R71). -/
def Command.a (c : Command) : Byte := c.cw.extractLsb' 16 8

/-- `v = cw[15:0]` (R71). -/
def Command.v (c : Command) : Half := c.cw.extractLsb' 0 16

/-- Payload word `j`; asked for only below the length that check (4) has established. -/
def Command.word (c : Command) (j : Nat) : Word := c.pl.getD j 0

/-! ### The opcode map, R75 and R76 -/

/-- Every opcode, in the order of R75. -/
def Opcode.all : List Opcode :=
  [.nop, .statRd, .vblWait, .rgnAddr, .regRd, .regWr, .palRd, .palWr, .pack8, .unpack8, .tileWrpx,
   .tileRdpx, .tileWrw, .tileRdw, .mapPx, .mapQuad, .cmpBitmap, .blobRd, .tileLdb, .sprLoad16,
   .descNew, .descSize, .descTile, .descPal, .descX, .descY, .descRd, .descDec, .oamAlloc, .oamWr,
   .oamRd, .oamClear, .frameBegin]

/-- The `op` column of R75. -/
def Opcode.code : Opcode → Byte
  | .nop => 0x00 | .statRd => 0x01 | .vblWait => 0x02
  | .rgnAddr => 0x10 | .regRd => 0x11 | .regWr => 0x12 | .palRd => 0x13 | .palWr => 0x14
  | .pack8 => 0x20 | .unpack8 => 0x21 | .tileWrpx => 0x22 | .tileRdpx => 0x23 | .tileWrw => 0x24
  | .tileRdw => 0x25
  | .mapPx => 0x30 | .mapQuad => 0x31 | .cmpBitmap => 0x32 | .blobRd => 0x33 | .tileLdb => 0x34
  | .sprLoad16 => 0x35
  | .descNew => 0x40 | .descSize => 0x41 | .descTile => 0x42 | .descPal => 0x43 | .descX => 0x44
  | .descY => 0x45 | .descRd => 0x46 | .descDec => 0x47
  | .oamAlloc => 0x48 | .oamWr => 0x49 | .oamRd => 0x4A | .oamClear => 0x4B | .frameBegin => 0x4C

/-- The opcode of an `op` byte; none for the values R84 check (1) lists. -/
def Opcode.ofCode (b : Byte) : Option Opcode := Opcode.all.find? fun o => o.code == b

/-- The `format` column of R75. -/
def Opcode.format : Opcode → Format
  | .nop | .statRd | .vblWait | .pack8 | .unpack8 | .cmpBitmap | .blobRd | .descNew | .descRd
  | .descDec | .oamAlloc | .oamClear | .frameBegin => .z
  | .tileWrpx | .tileRdpx | .tileWrw | .tileRdw | .mapPx | .mapQuad | .tileLdb | .sprLoad16
  | .descSize | .descTile | .descPal | .descX | .descY | .oamWr | .oamRd => .v
  | .rgnAddr | .regRd | .regWr | .palRd | .palWr => .av

/-- The `v` column of R75: how many low bits of `v` carry the operand; the higher ones must be zero. -/
def Opcode.operandBits : Opcode → Nat
  | .nop | .statRd | .vblWait | .pack8 | .unpack8 | .cmpBitmap | .blobRd | .descNew | .descRd
  | .descDec | .oamAlloc | .oamClear | .frameBegin | .regRd | .palRd => 0
  | .descSize | .descPal => 4
  | .descY => 8
  | .descX => 9
  | .descTile => 10
  | .rgnAddr | .regWr | .palWr | .tileWrpx | .tileRdpx | .tileWrw | .tileRdw | .mapPx | .mapQuad
  | .tileLdb | .sprLoad16 | .oamWr | .oamRd => 16

/-- The `payload` column of R76; none for CMP.BITMAP, whose length check R84 places inside R146. -/
def Opcode.payloadLen : Opcode → Option Nat
  | .nop | .statRd | .vblWait | .rgnAddr | .regRd | .regWr | .palRd | .palWr | .tileRdpx | .tileRdw
  | .descNew | .descSize | .descTile | .descPal | .descX | .descY | .descRd | .oamAlloc | .oamWr
  | .oamRd | .oamClear | .frameBegin => some 0
  | .unpack8 | .mapPx | .mapQuad | .blobRd | .tileLdb | .sprLoad16 => some 1
  | .pack8 | .descDec => some 2
  | .tileWrw => some 8
  | .tileWrpx => some 16
  | .cmpBitmap => none

/-- The region an id names; ids 6 to 255 are reserved (spec/10_state.md R11). -/
def Region.ofId (a : Byte) : Option Region :=
  if a = 0 then some .dispcnt
  else if a = 1 then some .keyinput
  else if a = 2 then some .backdrop
  else if a = 3 then some .objpal
  else if a = 4 then some .objtile
  else if a = 5 then some .oam
  else none

/-- The id of a region (R11). -/
def Region.id : Region → Byte
  | .dispcnt => 0 | .keyinput => 1 | .backdrop => 2 | .objpal => 3 | .objtile => 4 | .oam => 5

/-! ### The checks of R84, in its order -/

/-- Check (2): the bits R72 and R75 do not give to an operand are zero. -/
def reservedBitsZero (o : Opcode) (c : Command) : Bool :=
  (o.format == .av || c.a == 0) && decide (c.v.toNat < 2 ^ o.operandBits)

/-- Check (3): the selector is no reserved region id of this command. -/
def selectorLegal (o : Opcode) (c : Command) : Bool :=
  match o with
  | .rgnAddr => decide (c.a.toNat < 6)
  | .regRd => decide (c.a.toNat < 3)
  | .regWr => c.a == 0 || c.a == 2
  | _ => true

/-- Check (4): the payload has the length R76 requires. -/
def payloadLengthLegal (o : Opcode) (c : Command) : Bool :=
  match o.payloadLen with
  | none => true
  | some n => c.pl.length == n

/-- Check (5): a small index word and word 1 of a DESC.DEC payload have zeros above bit 15. -/
def payloadBitsZero (o : Opcode) (c : Command) : Bool :=
  match o with
  | .mapQuad | .sprLoad16 => highHalf (c.word 0) == 0
  | .descDec => highHalf (c.word 1) == 0
  | _ => true

/-- The instruction of a command that has passed the checks: its operands pulled out of the fields.
None only where the selector names no region, which check (3) has excluded. -/
def buildInstr (o : Opcode) (c : Command) : Option Instr :=
  match o with
  | .nop => some .nop
  | .statRd => some .statRd
  | .vblWait => some .vblWait
  | .rgnAddr => (Region.ofId c.a).map fun r => .rgnAddr r c.v
  | .regRd => (Region.ofId c.a).map fun r => .regRd r
  | .regWr => (Region.ofId c.a).map fun r => .regWr r c.v
  | .palRd => some (.palRd c.a)
  | .palWr => some (.palWr c.a c.v)
  | .pack8 => some (.pack8 (bytesOfWords c.pl))
  | .unpack8 => some (.unpack8 (c.word 0))
  | .tileWrpx => some (.tileWrpx c.v (bytesOfWords c.pl))
  | .tileRdpx => some (.tileRdpx c.v)
  | .tileWrw => some (.tileWrw c.v c.pl)
  | .tileRdw => some (.tileRdw c.v)
  | .mapPx => some (.mapPx c.v (lowHalf (c.word 0)) (highHalf (c.word 0)))
  | .mapQuad => some (.mapQuad c.v (lowHalf (c.word 0)))
  | .cmpBitmap => some (.cmpBitmap c.pl)
  | .blobRd => some (.blobRd (c.word 0))
  | .tileLdb => some (.tileLdb c.v (c.word 0))
  | .sprLoad16 => some (.sprLoad16 c.v (lowHalf (c.word 0)))
  | .descNew => some .descNew
  | .descSize => some (.descSize (c.v.extractLsb' 2 2) (c.v.extractLsb' 0 2))
  | .descTile => some (.descTile (c.v.extractLsb' 0 10))
  | .descPal => some (.descPal (c.v.extractLsb' 0 4))
  | .descX => some (.descX (c.v.extractLsb' 0 9))
  | .descY => some (.descY (c.v.extractLsb' 0 8))
  | .descRd => some .descRd
  | .descDec =>
    some (.descDec (lowHalf (c.word 0)) (highHalf (c.word 0)) (lowHalf (c.word 1)))
  | .oamAlloc => some .oamAlloc
  | .oamWr => some (.oamWr c.v)
  | .oamRd => some (.oamRd c.v)
  | .oamClear => some .oamClear
  | .frameBegin => some .frameBegin

/-- The decoder: the first failing check of R84 by its name, or the instruction. -/
def decode (c : Command) : Except DecodeError Instr :=
  match Opcode.ofCode c.op with
  | none => .error .unknownOpcode
  | some o =>
    if reservedBitsZero o c = false then .error .reservedBits
    else if selectorLegal o c = false then .error .reservedRegion
    else if payloadLengthLegal o c = false then .error .payloadLength
    else if payloadBitsZero o c = false then .error .payloadBits
    else match buildInstr o c with
      | some i => .ok i
      | none => .error .reservedRegion

/-! ### The encoder -/

/-- A command from its three fields (R71) and its payload. -/
def mkCommand (o : Opcode) (a : Byte) (v : Half) (pl : List Word) : Command :=
  { cw := o.code ++ a ++ v, pl := pl }

/-- The words of an instruction, from R75, R76 and the packings of R73. -/
def encode : Instr → Command
  | .nop => mkCommand .nop 0 0 []
  | .statRd => mkCommand .statRd 0 0 []
  | .vblWait => mkCommand .vblWait 0 0 []
  | .rgnAddr r i => mkCommand .rgnAddr r.id i []
  | .regRd r => mkCommand .regRd r.id 0 []
  | .regWr r val => mkCommand .regWr r.id val []
  | .palRd i => mkCommand .palRd i 0 []
  | .palWr i c => mkCommand .palWr i c []
  | .pack8 px => mkCommand .pack8 0 0 (wordsOfBytes px)
  | .unpack8 w => mkCommand .unpack8 0 0 [w]
  | .tileWrpx t px => mkCommand .tileWrpx 0 t (wordsOfBytes px)
  | .tileRdpx t => mkCommand .tileRdpx 0 t []
  | .tileWrw t ws => mkCommand .tileWrw 0 t ws
  | .tileRdw t => mkCommand .tileRdw 0 t []
  | .mapPx wt x y => mkCommand .mapPx 0 wt [pairWord y x]
  | .mapQuad wt k => mkCommand .mapQuad 0 wt [pairWord 0 k]
  | .cmpBitmap pl => mkCommand .cmpBitmap 0 0 pl
  | .blobRd j => mkCommand .blobRd 0 0 [j]
  | .tileLdb dst src => mkCommand .tileLdb 0 dst [src]
  | .sprLoad16 dst k => mkCommand .sprLoad16 0 dst [pairWord 0 k]
  | .descNew => mkCommand .descNew 0 0 []
  | .descSize shape size => mkCommand .descSize 0 ((0 : BitVec 12) ++ shape ++ size) []
  | .descTile tile => mkCommand .descTile 0 ((0 : BitVec 6) ++ tile) []
  | .descPal palette => mkCommand .descPal 0 ((0 : BitVec 12) ++ palette) []
  | .descX x => mkCommand .descX 0 ((0 : BitVec 7) ++ x) []
  | .descY y => mkCommand .descY 0 ((0 : BitVec 8) ++ y) []
  | .descRd => mkCommand .descRd 0 0 []
  | .descDec w0 w1 w2 => mkCommand .descDec 0 0 [pairWord w1 w0, pairWord 0 w2]
  | .oamAlloc => mkCommand .oamAlloc 0 0 []
  | .oamWr slot => mkCommand .oamWr 0 slot []
  | .oamRd slot => mkCommand .oamRd 0 slot []
  | .oamClear => mkCommand .oamClear 0 0 []
  | .frameBegin => mkCommand .frameBegin 0 0 []

/-- The opcode of an instruction. -/
def Instr.opcode : Instr → Opcode
  | .nop => .nop | .statRd => .statRd | .vblWait => .vblWait
  | .rgnAddr _ _ => .rgnAddr | .regRd _ => .regRd | .regWr _ _ => .regWr
  | .palRd _ => .palRd | .palWr _ _ => .palWr
  | .pack8 _ => .pack8 | .unpack8 _ => .unpack8 | .tileWrpx _ _ => .tileWrpx
  | .tileRdpx _ => .tileRdpx | .tileWrw _ _ => .tileWrw | .tileRdw _ => .tileRdw
  | .mapPx _ _ _ => .mapPx | .mapQuad _ _ => .mapQuad | .cmpBitmap _ => .cmpBitmap
  | .blobRd _ => .blobRd | .tileLdb _ _ => .tileLdb | .sprLoad16 _ _ => .sprLoad16
  | .descNew => .descNew | .descSize _ _ => .descSize | .descTile _ => .descTile
  | .descPal _ => .descPal | .descX _ => .descX | .descY _ => .descY | .descRd => .descRd
  | .descDec _ _ _ => .descDec | .oamAlloc => .oamAlloc | .oamWr _ => .oamWr
  | .oamRd _ => .oamRd | .oamClear => .oamClear | .frameBegin => .frameBegin

/-! ### Commands from the opcode table's numbering -/

/-- The `n` words of a number, the first word its lowest 32 bits. -/
def wordsOfNat : Nat → Nat → List Word
  | 0, _ => []
  | n + 1, x => BitVec.ofNat 32 x :: wordsOfNat n (x / 2 ^ 32)

/-- How many payload words the command with word `cw` takes (R76), where `dims` is the word after `cw`:
for CMP.BITMAP the length is `1 + W·H`. A word of no command is given none. -/
def payloadLenFor (cw dims : Word) : Nat :=
  match Opcode.ofCode (cw.extractLsb' 24 8) with
  | none => 0
  | some o =>
    match o.payloadLen with
    | some n => n
    | none => 1 + (lowHalf dims).toNat * (highHalf dims).toNat

/-- The command whose bits, numbered as spec/opcode_table.json numbers them, are the low `nbits` bits of
`w`: the command word is the first word, the payload words follow, and every bit above `nbits` is 0. -/
def tableCommand (nbits w : Nat) : Command :=
  let bits := w % 2 ^ nbits
  let cw : Word := BitVec.ofNat 32 bits
  let rest := bits / 2 ^ 32
  { cw := cw, pl := wordsOfNat (payloadLenFor cw (BitVec.ofNat 32 rest)) rest }

/-- The instruction the decoder reads from a word of the opcode table. -/
def decodeTableWord (nbits w : Nat) : Option Instr :=
  match decode (tableCommand nbits w) with
  | .ok i => some i
  | .error _ => none

end Sys2Proof
end

