-- ==== Sys2Proof/Machine/State.lean ====
section
/-! DEFINITION. The state of the machine (spec/10_state.md R10), the inputs and outputs at its boundary
(R24) as plain data, the reasons a step can stop, and the state after reset (R31, R240). -/

namespace Sys2Proof.Machine

/-- Three 16-bit words: a sprite descriptor (spec/43_sprite_descriptor.md R171), and the staging register
`desc` (R20). -/
structure Desc where
  w0 : Half
  w1 : Half
  w2 : Half
deriving DecidableEq, Repr

/-- The six fields of a descriptor at their widths (R171). -/
structure DescFields where
  shape : BitVec 2
  size : BitVec 2
  tile : BitVec 10
  palette : BitVec 4
  x : BitVec 9
  y : BitVec 8
deriving DecidableEq, Repr

/-- The four faults of spec/60_exceptions.md R211. A fault of the hardware is a NEXT state of the model
(R212): it is not one of the model's stops, `Fault` below. -/
inductive FaultKind where
  | outOfRange | formatError | illegalCommand | blobLocked
deriving DecidableEq, Repr

/-- The statuses a response can carry (spec/30_encoding.md R74). -/
inductive Status where
  | ok | outOfRange | formatError | illegalCommand | blobLocked | halted
deriving DecidableEq, Repr

/-- One response on the `rsp` port: a status and the response words (R74). -/
structure Response where
  status : Status
  words : List Word
deriving DecidableEq, Repr

/-- What can happen while the CORE executes one command: an event or a key change, or the CORE's own next
element store (spec/20_memory.md R52). -/
inductive Beat where
  /-- A vertical-blank event (spec/44_sync_status.md R202). -/
  | vblank
  /-- `key_i` takes a new value (R24). -/
  | keys (k : BitVec 10)
  /-- The CORE goes on. -/
  | core
deriving DecidableEq, Repr

/-- One entry of the agenda: which agent of spec/60_exceptions.md R233 moves next. -/
inductive Move where
  /-- The display-timing agent: a vertical-blank event (spec/44_sync_status.md R202). -/
  | vblank
  /-- The keypad: `key_i` takes a new value (R24). -/
  | keys (k : BitVec 10)
  /-- `rst` arrives between two commands or while a VBL.WAIT is pending (R240, R241). -/
  | rst
  /-- `rst` arrives while the CORE executes the host's next command, after these beats of it (R241). -/
  | rstDuring (beats : List Beat)
  /-- The host and the CORE: the next command, the next element store, or one more instant of a wait. -/
  | core
deriving DecidableEq, Repr

/-- The bytes of the five storage regions (R10, R42): `cells` lists the bytes written since the last reset,
by physical address, and an unlisted byte holds the reset draw numbered `draw` (R31). -/
structure Memory where
  draw : Nat
  cells : List Host.Cell
deriving DecidableEq, Repr

/-- The state. The first eight fields are the spec's (R10); DISPCNT, BACKDROP, PAL, TILEW and OAM are bytes
of `mem`, and `blob_len` is the length of `blob`. The rest are the model's: the one wait state (R235), the
ports of R24, the model arguments (R6) and the counter of free values. -/
structure State where
  /-- DISPCNT, BACKDROP, PAL, TILEW and OAM at their physical addresses (R12, R14 to R17, R46). -/
  mem : Memory
  /-- `VIS`: the regions as they stood at the last vertical-blank event (R30). -/
  vis : Memory
  /-- The display read port (R24, R30): the values `VIS` has taken, one an event, the newest first. -/
  frames : List Memory
  /-- The staging descriptor (R20). -/
  desc : Desc
  /-- `alloc_ctr`, 8 bits, 0 to 128 (R21). -/
  allocCtr : BitVec 8
  /-- `fault_code`, 4 bits, sticky (R22). -/
  faultCode : BitVec 4
  /-- `BLOB[0 .. blob_len - 1]` (R23); its length is `blob_len`. -/
  blob : List Word
  /-- `sheet_wt`, the sheet's width in tiles (R23). -/
  sheetWt : Half
  /-- `sheet_ht`, the sheet's height in tiles (R23). -/
  sheetHt : Half
  /-- A VBL.WAIT is pending (spec/44_sync_status.md R203, R235). -/
  waiting : Bool
  /-- The `rsp` port: the responses given so far, the newest first (R74). -/
  rsp : List Response
  /-- The `cmd` port: the commands the host has still to issue, the next first (R24, R50). -/
  cmds : List Command
  /-- Who moves at the instants to come (R233, R52, R202). -/
  agenda : List Move
  /-- The `key_i` input as it stands (R13, R24). -/
  keyIn : BitVec 10
  /-- How many free values have been drawn; the number of the next draw. -/
  draws : Nat
  /-- The model arguments of R6, which no step changes (log 1). -/
  params : Params
deriving DecidableEq, Repr

/-- Why a step stops without a next state. -/
inductive Fault where
  /-- Raised by the access primitives for an address outside the table of spec/20_memory.md R42. Safe: the
  machine stops rather than touch a location the spec does not give; no command forms such an address. -/
  | unmapped (addr : Nat)
deriving DecidableEq, Repr

/-- Why a step is refused. -/
inductive Refusal where
  /-- Raised by an arm of `exec` whose instruction has no meaning yet. Safe. No arm raises it. -/
  | notModelled (mnemonic : String)
deriving DecidableEq, Repr

/-- What a step and a meaning answer. -/
abbrev Result := Host.Outcome State Fault Refusal

/-- The machine right after the first reset (R31, R240): the internal registers zero, nothing pending, the
regions on reset draw 0 and `VIS` on draw 1. The ports are empty; no key is held (log 5). The model arguments
are this machine's (log 1). -/
def State.reset : State where
  mem := { draw := 0, cells := [] }
  vis := { draw := 1, cells := [] }
  frames := []
  desc := { w0 := 0, w1 := 0, w2 := 0 }
  allocCtr := 0
  faultCode := 0
  blob := []
  sheetWt := 0
  sheetHt := 0
  waiting := false
  rsp := []
  cmds := []
  agenda := []
  keyIn := 0x3FF
  draws := 2
  params := Config.params

end Sys2Proof.Machine
end

