-- ==== Sys2Proof/Machine/Flags.lean ====
section
/-! DEFINITION. The only flag state of the CORE, `fault_code` (spec/10_state.md R22), with the codes of
spec/60_exceptions.md R211 and the status codes of spec/30_encoding.md R74. No command computes a carry, an
overflow or any other flag. -/

namespace Sys2Proof.Machine

/-- The code a fault writes to `fault_code` (R211). -/
def FaultKind.code : FaultKind → BitVec 4
  | .outOfRange => 1
  | .formatError => 2
  | .illegalCommand => 3
  | .blobLocked => 4

/-- The status a faulting command answers: that of the same code (R211, R212). -/
def FaultKind.status : FaultKind → Status
  | .outOfRange => .outOfRange
  | .formatError => .formatError
  | .illegalCommand => .illegalCommand
  | .blobLocked => .blobLocked

/-- The 4-bit value of a status on the `rsp` port (R74); 5 to 14 are never produced. -/
def Status.code : Status → BitVec 4
  | .ok => 0
  | .outOfRange => 1
  | .formatError => 2
  | .illegalCommand => 3
  | .blobLocked => 4
  | .halted => 15

/-- `halted`, the derived predicate `fault_code ≠ 0` (R22). -/
def State.halted (s : State) : Bool := s.faultCode != 0

/-- The output `fault_o`, the level `fault_code ≠ 0` (R24). -/
def State.faultOut (s : State) : Bool := s.halted

/-- `fault_code` after a fault: the first one is kept (R212). -/
def stickyCode (old new : BitVec 4) : BitVec 4 := if old = 0 then new else old

end Sys2Proof.Machine
end

