-- ==== Sys2Proof/Machine/Ops.lean ====
section
/-! DEFINITION. The named operations: memory and its map, the access primitives (spec/20_memory.md R42), the
index function (spec/40_region_access.md R100), element stores and the vertical-blank latch between them
(R52), responses, raising a fault (spec/60_exceptions.md R212), the halted check (R213), reset (R240, R241),
and whose turn it is. -/

namespace Sys2Proof.Machine

/-! ### Memory: one canonical list of bytes -/

/-- The byte listed at an address. -/
def lookupCell (a : Nat) : List Host.Cell → Option Byte
  | [] => none
  | (k, b) :: rest => if a = k then some b else lookupCell a rest

/-- The list with a byte put at an address; the addresses stay strictly rising. -/
def insertCell (a : Nat) (b : Byte) : List Host.Cell → List Host.Cell
  | [] => [(a, b)]
  | (k, c) :: rest =>
    if a < k then (a, b) :: (k, c) :: rest
    else if a = k then (a, b) :: rest
    else (k, c) :: insertCell a b rest

/-- The byte written at an address since reset; none where nothing has been written. This is what an
unlisted address reads as in the list itself: no value (log 2). -/
def Memory.get? (m : Memory) (a : Nat) : Option Byte := lookupCell a m.cells

/-- What an address reads as: the byte written there, and the reset draw where nothing has been written
since reset (R31, R45). -/
def Memory.byte (m : Memory) (a : Nat) : Byte := (m.get? a).getD (Config.resetByte m.draw a)

/-- One byte written. -/
def Memory.setByte (m : Memory) (a : Nat) (b : Byte) : Memory :=
  { m with cells := insertCell a b m.cells }

/-- A 16-bit element, little-endian (R41). -/
def Memory.half (m : Memory) (a : Nat) : Half := m.byte (a + 1) ++ m.byte a

/-- A 32-bit tile word, little-endian (R41). -/
def Memory.word (m : Memory) (a : Nat) : Word :=
  m.byte (a + 3) ++ m.byte (a + 2) ++ m.byte (a + 1) ++ m.byte a

/-- A table entry: its three words at offsets 0, 2 and 4 (R17). -/
def Memory.descAt (m : Memory) (a : Nat) : Desc :=
  { w0 := m.half a, w1 := m.half (a + 2), w2 := m.half (a + 4) }

/-- A 16-bit element written, little-endian. -/
def Memory.setHalf (m : Memory) (a : Nat) (v : Half) : Memory :=
  (m.setByte a (v.extractLsb' 0 8)).setByte (a + 1) (v.extractLsb' 8 8)

/-- A 32-bit word written, little-endian. -/
def Memory.setWord (m : Memory) (a : Nat) (v : Word) : Memory :=
  (((m.setByte a (v.extractLsb' 0 8)).setByte (a + 1) (v.extractLsb' 8 8)).setByte (a + 2)
    (v.extractLsb' 16 8)).setByte (a + 3) (v.extractLsb' 24 8)

/-- The three words of a table entry written (R17, R44). -/
def Memory.setDesc (m : Memory) (a : Nat) (d : Desc) : Memory :=
  ((m.setHalf a d.w0).setHalf (a + 2) d.w1).setHalf (a + 4) d.w2

/-! ### The region table, spec/10_state.md R11 -/

/-- The base column: the physical byte address of element 0. -/
def regionBase : Region → Nat
  | .dispcnt => 0x04000000
  | .keyinput => 0x04000130
  | .backdrop => 0x05000000
  | .objpal => 0x05000200
  | .objtile => 0x06010000
  | .oam => 0x07000000

/-- The size_of(T) column, in bytes. -/
def regionElemSize : Region → Nat
  | .dispcnt => 2 | .keyinput => 2 | .backdrop => 2 | .objpal => 2 | .objtile => 32 | .oam => 6

/-- The count column. -/
def regionCount : Region → Nat
  | .dispcnt => 1 | .keyinput => 1 | .backdrop => 1 | .objpal => 256 | .objtile => 1024 | .oam => 128

/-- The stride column, in bytes. -/
def regionStride : Region → Nat
  | .dispcnt => 2 | .keyinput => 2 | .backdrop => 2 | .objpal => 2 | .objtile => 32 | .oam => 8

/-- The declared size column, in bytes. -/
def regionSize : Region → Nat
  | .dispcnt => 2 | .keyinput => 2 | .backdrop => 2 | .objpal => 512 | .objtile => 32768 | .oam => 1024

/-- `addr(region, i)` of spec/20_memory.md R47. -/
def elemAddr (r : Region) (i : Nat) : Nat := regionBase r + i * regionStride r

/-- `index(region, i)` of spec/40_region_access.md R100: none where it raises `OutOfRange`. -/
def regionIndex (r : Region) (i : Nat) : Option Nat :=
  if i < regionCount r then some (elemAddr r i) else none

/-- The physical address of tile word `TILEW[j]` (spec/10_state.md R16). -/
def tileWordAddr (j : Nat) : Nat := regionBase .objtile + 4 * j

/-! ### The map of spec/20_memory.md R42 -/

/-- The address lies on an element of the region: at an offset below `size_of(T)` into one of its
`count` strides. -/
def inRegion (r : Region) (a : Nat) : Bool :=
  decide (regionBase r ≤ a) && decide ((a - regionBase r) / regionStride r < regionCount r) &&
    decide ((a - regionBase r) % regionStride r < regionElemSize r)

/-- The bytes a command can store to: the elements of the five storage regions. KEYINPUT holds no storage
(R13), and bytes 6 and 7 of a table entry belong to no element (R18). -/
def storageByte (a : Nat) : Bool :=
  inRegion .dispcnt a || inRegion .backdrop a || inRegion .objpal a || inRegion .objtile a ||
    inRegion .oam a

/-- The addresses of the 16-bit accesses of R42 that have storage behind them. -/
def halfMapped (a : Nat) : Bool :=
  (inRegion .dispcnt a || inRegion .backdrop a || inRegion .objpal a || inRegion .oam a) &&
    decide (a % 2 = 0)

/-- The addresses of the 32-bit accesses of R42. -/
def wordMapped (a : Nat) : Bool := inRegion .objtile a && decide (a % 4 = 0)

/-- The addresses of table entries, each accessed as one element of three words (R44). -/
def descMapped (a : Nat) : Bool := inRegion .oam a && decide (a % 8 = 0)

/-- The canonical form of a memory: addresses strictly rising, so at most one entry each, and every listed
byte one that a command can store to. No entry equals what an unlisted address reads as in the list,
which is no value (log 2). -/
abbrev Memory.wf (m : Memory) : Prop :=
  m.cells.Pairwise (fun c d => c.1 < d.1) ∧ ∀ c ∈ m.cells, storageByte c.1 = true

/-! ### Reads -/

/-- `{u, key_i}`: the value a read of KEYINPUT returns, `u` a fresh draw (spec/10_state.md R13). -/
def keyinputValue (s : State) : Half := Config.keyHigh s.draws ++ s.keyIn

/-- `MemRead(addr, 2)` (R42) with the state after it; none outside the map. A read changes nothing (R45):
only the model's counter of draws moves, at a read of KEYINPUT. -/
def memRead2 (s : State) (a : Nat) : Option (Half × State) :=
  if a = regionBase .keyinput then some (keyinputValue s, { s with draws := s.draws + 1 })
  else if halfMapped a then some (s.mem.half a, s)
  else none

/-- `MemRead(addr, 4)` (R42); none outside the map. -/
def memRead4 (s : State) (a : Nat) : Option Word :=
  if wordMapped a then some (s.mem.word a) else none

/-- `n` words read at ascending addresses from `a`; none if one of them lies outside the map. -/
def memReadWords (s : State) (a : Nat) : Nat → Option (List Word)
  | 0 => some []
  | n + 1 =>
    match memRead4 s a, memReadWords s (a + 4) n with
    | some w, some ws => some (w :: ws)
    | _, _ => none

/-- One load of a table entry's three words together (R44); none outside the map. -/
def memReadDesc (s : State) (a : Nat) : Option Desc :=
  if descMapped a then some (s.mem.descAt a) else none

/-! ### Element stores and the vertical-blank latch -/

/-- One element store: the unit that a vertical-blank event cannot split (spec/20_memory.md R44, R52). -/
inductive ElemStore where
  | half (addr : Nat) (v : Half)
  | word (addr : Nat) (v : Word)
  | desc (addr : Nat) (d : Desc)
deriving DecidableEq, Repr

/-- The address of an element store. -/
def ElemStore.addr : ElemStore → Nat
  | .half a _ => a
  | .word a _ => a
  | .desc a _ => a

/-- How many bytes from its address on it writes. -/
def ElemStore.size : ElemStore → Nat
  | .half _ _ => 2
  | .word _ _ => 4
  | .desc _ _ => 6

/-- The store is one that R42 defines. -/
def ElemStore.mapped : ElemStore → Bool
  | .half a _ => halfMapped a
  | .word a _ => wordMapped a
  | .desc a _ => descMapped a

/-- The memory after an element store: the element replaced and nothing else (R45). -/
def Memory.store (m : Memory) : ElemStore → Memory
  | .half a v => m.setHalf a v
  | .word a v => m.setWord a v
  | .desc a d => m.setDesc a d

/-- The memory after a list of element stores, first to last. -/
def Memory.storeAll (m : Memory) : List ElemStore → Memory
  | [] => m
  | e :: es => (m.store e).storeAll es

/-- An element store of a command. -/
def State.storeElem (s : State) (e : ElemStore) : State := { s with mem := s.mem.store e }

/-- The latch of a vertical-blank event: `VIS` takes the regions as they stand, and the display is handed that
value (spec/10_state.md R30). -/
def State.latch (s : State) : State := { s with vis := s.mem, frames := s.mem :: s.frames }

/-- The agenda's entries up to the CORE's next move: the events latch and the keys change, in their order, any
number of them. An entry for a reset stays: it comes after the command, `rstDuring` being the reset inside one
(log 6). -/
def passGap : List Move → State → State
  | .vblank :: rest, s => passGap rest s.latch
  | .keys k :: rest, s => passGap rest { s with keyIn := k }
  | .core :: rest, s => { s with agenda := rest }
  | rest, s => { s with agenda := rest }

/-- The gap between two element stores of one command (R52). -/
def State.instant (s : State) : State := passGap s.agenda s

/-- Every event and key change of a list, in order. -/
def passAll : List Move → State → State
  | [], s => s
  | .vblank :: rest, s => passAll rest s.latch
  | .keys k :: rest, s => passAll rest { s with keyIn := k }
  | _ :: rest, s => passAll rest s

/-- Element stores, each after a gap. -/
def runLater : List ElemStore → State → State
  | [], s => s
  | e :: es, s => runLater es (s.instant.storeElem e)

/-- A command's element stores in order, with a gap between any two (R51, R52). -/
def runStores : List ElemStore → State → State
  | [], s => s
  | e :: es, s => runLater es (s.storeElem e)

/-! ### Responses, faults, the common prologue -/

/-- The response of a command (spec/30_encoding.md R74). -/
def State.respond (s : State) (st : Status) (words : List Word) : State :=
  { s with rsp := { status := st, words := words } :: s.rsp }

/-- Taking a fault, `raise F(info)` of spec/60_exceptions.md R212: the first code is kept, nothing else
changes, and the response is the fault's status with no words. There is no handler, no saved address and
no return (R217): only `State.rst` leaves the halted state. -/
def State.raise (s : State) (k : FaultKind) : State :=
  { s with faultCode := stickyCode s.faultCode k.code }.respond k.status []

/-- A command that ends in a fault. -/
def raising (k : FaultKind) (s : State) : Result := .next (s.raise k)

/-- `resp(d0, d1, ...)` of spec/00_scope.md R8: status `OK` and the words. -/
def answering (words : List Word) (s : State) : Result := .next (s.respond .ok words)

/-- The halted check of R213: a halted CORE answers `Halted` and changes nothing. -/
def unlessHalted (s : State) (body : Result) : Result :=
  if s.halted then .next (s.respond .halted []) else body

/-- A command that fails a check of R84, under the halted check (R213, R214). -/
def illegalCommand (s : State) : Result := unlessHalted s (raising .illegalCommand s)

/-- The address of element `i`, or the `OutOfRange` fault (R100). -/
def withIndex (r : Region) (i : Nat) (s : State) (body : Nat → Result) : Result :=
  match regionIndex r i with
  | some a => body a
  | none => raising .outOfRange s

/-- What a read at `a` returned, or the model's stop for an address outside the map. -/
def withRead {α : Type} (a : Nat) (read : Option α) (body : α → Result) : Result :=
  match read with
  | some x => body x
  | none => .fault (.unmapped a)

/-- A command's last part: its element stores, when `enabled`, and its `OK` response after the last of them
(R52). Every address is checked against the map before the first store. -/
def commitWhen (enabled : Bool) (stores : List ElemStore) (words : List Word) (s : State) : Result :=
  match stores.find? (fun e => !e.mapped) with
  | some e => .fault (.unmapped e.addr)
  | none => .next ((if enabled then runStores stores s else s).respond .ok words)

/-- A command's element stores and its `OK` response. -/
def commit (stores : List ElemStore) (words : List Word) (s : State) : Result :=
  commitWhen true stores words s

/-- Words stored at ascending addresses from `a`, four bytes apart. -/
def wordStores : Nat → List Word → List ElemStore
  | _, [] => []
  | a, w :: ws => .word a w :: wordStores (a + 4) ws

/-- The zero descriptor stored to `n` slots from slot `i` up (spec/43_sprite_descriptor.md R184). -/
def zeroSlots (i : Nat) : Nat → List ElemStore
  | 0 => []
  | n + 1 => .desc (elemAddr .oam i) { w0 := 0, w1 := 0, w2 := 0 } :: zeroSlots (i + 1) n

/-- The full-table clear: all 128 slots, ascending (R184). -/
def clearStores : List ElemStore := zeroSlots 0 (regionCount .oam)

/-! ### Typed views of memory and of the blob -/

/-- `DISPCNT` (R12). -/
def State.dispcnt (s : State) : Half := s.mem.half (regionBase .dispcnt)

/-- `BACKDROP` (R14). -/
def State.backdrop (s : State) : Half := s.mem.half (regionBase .backdrop)

/-- `PAL[i]` (R15). -/
def State.pal (s : State) (i : Nat) : Half := s.mem.half (elemAddr .objpal i)

/-- `TILEW[j]` (R16). -/
def State.tilew (s : State) (j : Nat) : Word := s.mem.word (tileWordAddr j)

/-- `OAM[i]` (R17). -/
def State.oam (s : State) (i : Nat) : Desc := s.mem.descAt (elemAddr .oam i)

/-- `blob_len` (R23): one home, the blob's own length. -/
def State.blobLen (s : State) : Nat := s.blob.length

/-- `blob_valid`, the derived predicate `blob_len ≠ 0` (R23). -/
def State.blobValid (s : State) : Bool := s.blobLen != 0

/-- Blob tile `n`: the words `BLOB[8n + r]`, `r` = 0 to 7 (R23). -/
def State.blobTile (s : State) (n : Nat) : List Word := (s.blob.drop (8 * n)).take 8

/-! ### The other agents -/

/-- A vertical-blank event outside a command (spec/44_sync_status.md R202, R203): `VIS` is latched, and then
a pending VBL.WAIT is released with its response. -/
def State.vblankEvent (s : State) : State :=
  if s.waiting then { s.latch with waiting := false }.respond .ok [] else s.latch

/-- `rst` (spec/70_reset_and_hazards.md R240): the internal registers take their reset values, nothing is
pending, and the regions and `VIS` take fresh draws. A pending VBL.WAIT is abandoned without a response
(R241). The host's commands, the keys, and the responses and display values already given are outside the
CORE (log 9). -/
def State.rst (s : State) : State :=
  { s with
    mem := { draw := s.draws, cells := [] }
    vis := { draw := s.draws + 1, cells := [] }
    desc := { w0 := 0, w1 := 0, w2 := 0 }
    allocCtr := 0
    faultCode := 0
    blob := []
    sheetWt := 0
    sheetHt := 0
    waiting := false
    draws := s.draws + 2 }

/-- A beat as an entry of the agenda. -/
def Beat.move : Beat → Move
  | .vblank => .vblank
  | .keys k => .keys k
  | .core => .core

/-- Whose turn a step is: another agent has moved, or the CORE may take a command, to its end or up to a
reset after some beats of it. -/
inductive Turn where
  | moved (s : State)
  | core (s : State)
  | cut (beats : List Beat) (s : State)
deriving DecidableEq, Repr

/-- The next move. An agenda at its end leaves every move to the CORE, but for a pending VBL.WAIT, which the
next event then releases: vertical-blank events are fair (R202, log 7). -/
def State.turn (s : State) : Turn :=
  match s.agenda with
  | .vblank :: rest => .moved { s with agenda := rest }.vblankEvent
  | .keys k :: rest => .moved { s with agenda := rest, keyIn := k }
  | .rst :: rest => .moved { s with agenda := rest }.rst
  | .rstDuring beats :: rest =>
    if s.waiting then .moved { s with agenda := rest }.rst else .cut beats { s with agenda := rest }
  | .core :: rest =>
    if s.waiting then .moved { s with agenda := rest } else .core { s with agenda := rest }
  | [] => if s.waiting then .moved s.vblankEvent else .core s

/-- The host issues its next command (spec/30_encoding.md R70); none while it is idle. -/
def State.takeCommand (s : State) : Option (Command × State) :=
  match s.cmds with
  | [] => none
  | c :: rest => some (c, { s with cmds := rest })

/-- The state in which the host issues `c` next, and the CORE moves next. -/
def State.offer (s : State) (c : Command) : State :=
  { s with cmds := c :: s.cmds, agenda := .core :: s.agenda, waiting := false }

end Sys2Proof.Machine
end

