-- ==== Sys2Proof/Machine/Operands.lean ====
section
/-! DEFINITION. The functions the commands compute: packing and unpacking (spec/41_tile_engine.md R120 to
R122), the mapping functions and the compile (spec/42_tile_mapper.md R140 to R145), and the descriptor's
fields (spec/43_sprite_descriptor.md R171, R172). -/

namespace Sys2Proof.Machine

/-! ### Pixels -/

/-- A pixel value above 15: a `FormatError` wherever a command is handed one (R124, R126, R146). -/
def badPixel (p : Byte) : Bool := decide (15 < p.toNat)

/-- `pack8` (R120): pixel `k` in bits `4k+3 .. 4k`; a lane is written with its pixel and nothing else. -/
def packNibbles : List Byte → Word
  | [] => 0
  | p :: ps => (p.extractLsb' 0 4).setWidth 32 ||| (packNibbles ps <<< 4)

/-- `unpack8` (R121): the eight pixels of a word, each in 0 to 15. -/
def unpackNibbles (w : Word) : List Byte :=
  (List.range 8).map fun k => (w.extractLsb' (4 * k) 4).setWidth 8

/-- Row `i` of 64 row-major pixels. -/
def pixelRow (px : List Byte) (i : Nat) : List Byte := (px.drop (8 * i)).take 8

/-- `pack_tile` (R122): word `i` is row `i`. -/
def packTile (px : List Byte) : List Word := (List.range 8).map fun i => packNibbles (pixelRow px i)

/-- `unpack_tile` (R122). -/
def unpackTile (ws : List Word) : List Byte := ws.flatMap unpackNibbles

/-! ### The mapper -/

/-- `tile_index(W_t, x, y)` (R140). -/
def tileIndex (wt x y : Nat) : Nat := y / 8 * wt + x / 8

/-- `intra(x, y)` (R140). -/
def intraTile (x y : Nat) : Nat := y % 8 * 8 + x % 8

/-- `tl` of R141: the tile at the top left of sprite cell `k`. -/
def quadTopLeft (wt k : Nat) : Nat := 2 * (k / (wt / 2) * wt + k % (wt / 2))

/-- `quad(W_t, k)` (R141), in its order. -/
def quadTiles (wt k : Nat) : List Nat :=
  [quadTopLeft wt k, quadTopLeft wt k + 1, quadTopLeft wt k + wt, quadTopLeft wt k + wt + 1]

/-- The palette index of a source pixel under an index channel (R145). -/
def channelOf (ch : BitVec 2) (w : Word) : Byte := w.extractLsb' (8 * ch.toNat) 8

/-- Word `8n + r` of the compile of R142: row `r` of tile `n` of a bitmap `W` pixels wide. -/
def compiledRow (W : Nat) (idx : Nat → Nat → Byte) (n r : Nat) : Word :=
  packNibbles ((List.range 8).map fun k => idx (8 * (n % (W / 8)) + k) (8 * (n / (W / 8)) + r))

/-- `compile(W, H, idx)` (R142). -/
def compileBitmap (W H : Nat) (idx : Nat → Nat → Byte) : List Word :=
  (List.range (W / 8 * (H / 8))).flatMap fun n => (List.range 8).map fun r => compiledRow W idx n r

/-! ### Descriptors -/

/-- The zero descriptor (R173, R184). -/
def zeroDesc : Desc := { w0 := 0, w1 := 0, w2 := 0 }

/-- `encode` of R172. -/
def encodeDesc (f : DescFields) : Desc where
  w0 := (f.shape.setWidth 16 <<< 14) ||| f.y.setWidth 16
  w1 := (f.size.setWidth 16 <<< 14) ||| f.x.setWidth 16
  w2 := (f.palette.setWidth 16 <<< 12) ||| f.tile.setWidth 16

/-- `decode` of R172; the bits that hold no field are ignored. -/
def decodeDesc (d : Desc) : DescFields where
  shape := d.w0.extractLsb' 14 2
  size := d.w1.extractLsb' 14 2
  tile := d.w2.extractLsb' 0 10
  palette := d.w2.extractLsb' 12 4
  x := d.w1.extractLsb' 0 9
  y := d.w0.extractLsb' 0 8

/-- The bits of a descriptor that hold no field are zero (R20, R171). -/
def Desc.spareZero (d : Desc) : Bool :=
  d.w0.extractLsb' 8 6 == 0 && d.w1.extractLsb' 9 5 == 0 && d.w2.extractLsb' 10 2 == 0

/-- DESC.SIZE's fields replaced (R174). -/
def Desc.withSize (d : Desc) (shape size : BitVec 2) : Desc :=
  { d with w0 := (d.w0 &&& 0x3FFF) ||| (shape.setWidth 16 <<< 14)
           w1 := (d.w1 &&& 0x3FFF) ||| (size.setWidth 16 <<< 14) }

/-- DESC.TILE's field replaced (R175). -/
def Desc.withTile (d : Desc) (tile : BitVec 10) : Desc :=
  { d with w2 := (d.w2 &&& 0xFC00) ||| tile.setWidth 16 }

/-- DESC.PAL's field replaced (R176). -/
def Desc.withPalette (d : Desc) (palette : BitVec 4) : Desc :=
  { d with w2 := (d.w2 &&& 0x0FFF) ||| (palette.setWidth 16 <<< 12) }

/-- DESC.X's field replaced (R177). -/
def Desc.withX (d : Desc) (x : BitVec 9) : Desc :=
  { d with w1 := (d.w1 &&& 0xFE00) ||| x.setWidth 16 }

/-- DESC.Y's field replaced (R178). -/
def Desc.withY (d : Desc) (y : BitVec 8) : Desc :=
  { d with w0 := (d.w0 &&& 0xFF00) ||| y.setWidth 16 }

/-- The descriptor pair of a response (R73): `{w1, w0}` and `{0, w2}`. -/
def descPair (d : Desc) : List Word := [pairWord d.w1 d.w0, pairWord 0 d.w2]

end Sys2Proof.Machine
end

