-- ==== Sys2Proof/Machine/Descriptor.lean ====
section
/-! DEFINITION. The sprite descriptor encoder and slot allocator commands (spec/43_sprite_descriptor.md). -/

namespace Sys2Proof.Machine

/-- A builder command: `desc` replaced, `OK` answered (R170). -/
def building (s : State) (d : Desc) : Result := unlessHalted s (answering [] { s with desc := d })

/-- DESC.NEW (R173). -/
def execDescNew (s : State) : Result := building s zeroDesc

/-- DESC.SIZE (R174). -/
def execDescSize (shape size : BitVec 2) (s : State) : Result := building s (s.desc.withSize shape size)

/-- DESC.TILE (R175). -/
def execDescTile (tile : BitVec 10) (s : State) : Result := building s (s.desc.withTile tile)

/-- DESC.PAL (R176). -/
def execDescPal (palette : BitVec 4) (s : State) : Result := building s (s.desc.withPalette palette)

/-- DESC.X (R177). -/
def execDescX (x : BitVec 9) (s : State) : Result := building s (s.desc.withX x)

/-- DESC.Y (R178). -/
def execDescY (y : BitVec 8) (s : State) : Result := building s (s.desc.withY y)

/-- DESC.RD (R179). -/
def execDescRd (s : State) : Result := unlessHalted s (answering (descPair s.desc) s)

/-- The six response words of DESC.DEC, in its order (R180). -/
def fieldWords (f : DescFields) : List Word :=
  [f.shape.setWidth 32, f.size.setWidth 32, f.tile.setWidth 32, f.palette.setWidth 32, f.x.setWidth 32,
   f.y.setWidth 32]

/-- DESC.DEC (R180). -/
def execDescDec (w0 w1 w2 : Half) (s : State) : Result :=
  unlessHalted s (answering (fieldWords (decodeDesc { w0 := w0, w1 := w1, w2 := w2 })) s)

/-- OAM.ALLOC (R181). -/
def execOamAlloc (s : State) : Result :=
  unlessHalted s <|
    if 128 ≤ s.allocCtr.toNat then raising .outOfRange s
    else
      commit [.desc (elemAddr .oam s.allocCtr.toNat) s.desc] [s.allocCtr.setWidth 32]
        { s with allocCtr := s.allocCtr + 1 }

/-- OAM.WR (R182). -/
def execOamWr (slot : Half) (s : State) : Result :=
  unlessHalted s <| withIndex .oam slot.toNat s fun base => commit [.desc base s.desc] [] s

/-- OAM.RD (R183). -/
def execOamRd (slot : Half) (s : State) : Result :=
  unlessHalted s <|
    withIndex .oam slot.toNat s fun base =>
      withRead base (memReadDesc s base) fun d => answering (descPair d) s

/-- OAM.CLEAR (R184). -/
def execOamClear (s : State) : Result := unlessHalted s (commit clearStores [] s)

/-- FRAME.BEGIN (R185): the counter to zero, and the table cleared under `every_frame`. -/
def execFrameBegin (s : State) : Result :=
  unlessHalted s <|
    commitWhen (s.params.clearPolicy == .everyFrame) clearStores [] { s with allocCtr := 0 }

end Sys2Proof.Machine
end

