-- ==== Sys2Proof/Machine/Mapper.lean ====
section
/-! DEFINITION. The framebuffer tile mapper commands (spec/42_tile_mapper.md). -/

namespace Sys2Proof.Machine

/-- MAP.PX (R143). -/
def execMapPx (wt x y : Half) (s : State) : Result :=
  unlessHalted s <|
    if wt = 0 then raising .formatError s
    else if 8 * wt.toNat ≤ x.toNat then raising .outOfRange s
    else
      answering [BitVec.ofNat 32 (tileIndex wt.toNat x.toNat y.toNat),
        BitVec.ofNat 32 (intraTile x.toNat y.toNat)] s

/-- MAP.QUAD (R144). -/
def execMapQuad (wt k : Half) (s : State) : Result :=
  unlessHalted s <|
    if wt = 0 ∨ wt.toNat % 2 = 1 then raising .formatError s
    else answering ((quadTiles wt.toNat k.toNat).map (BitVec.ofNat 32)) s

/-- The dimension check of R146. -/
def badDimension (n : Nat) : Bool := n == 0 || n % 8 != 0

/-- CMP.BITMAP past the halted check (R146): the checks in the order of its pseudocode, then the four blob
registers together. -/
def compileCommand (pl : List Word) (s : State) : Result :=
  let ch := s.params.indexChannel
  match pl with
  | [] => raising .illegalCommand s
  | dims :: px =>
    let W := (lowHalf dims).toNat
    let H := (highHalf dims).toNat
    if s.blobLen ≠ 0 then raising .blobLocked s
    else if badDimension W || badDimension H then raising .formatError s
    else if s.params.blobMaxWords < W * H / 8 then raising .outOfRange s
    else if px.length ≠ W * H then raising .illegalCommand s
    else if px.any fun w => badPixel (channelOf ch w) then raising .formatError s
    else
      let blob := compileBitmap W H fun x y => channelOf ch (px.getD (y * W + x) 0)
      answering blob
        { s with blob := blob, sheetWt := BitVec.ofNat 16 (W / 8), sheetHt := BitVec.ofNat 16 (H / 8) }

/-- CMP.BITMAP (R146). -/
def execCmpBitmap (pl : List Word) (s : State) : Result :=
  unlessHalted s (compileCommand pl s)

/-- BLOB.RD (R147). -/
def execBlobRd (j : Word) (s : State) : Result :=
  unlessHalted s <|
    match s.blob[j.toNat]? with
    | some w => answering [w] s
    | none => raising .outOfRange s

/-- TILE.LDB (R148): `src` is checked before `dst`. -/
def execTileLdb (dst : Half) (src : Word) (s : State) : Result :=
  unlessHalted s <|
    if s.blobLen / 8 ≤ src.toNat then raising .outOfRange s
    else
      withIndex .objtile dst.toNat s fun base =>
        commit (wordStores base (s.blobTile src.toNat)) [] s

/-- The stores of SPR.LOAD16: blob tile `q_j` to tile slot `dst + j`, ascending (R149). -/
def quadStores (s : State) (dst : Nat) : List Nat → List ElemStore
  | [] => []
  | q :: qs => wordStores (elemAddr .objtile dst) (s.blobTile q) ++ quadStores s (dst + 1) qs

/-- SPR.LOAD16 (R149). -/
def execSprLoad16 (dst k : Half) (s : State) : Result :=
  let wt := s.sheetWt.toNat
  unlessHalted s <|
    if s.blobLen = 0 then raising .outOfRange s
    else if wt % 2 = 1 then raising .formatError s
    else if s.blobLen / 8 ≤ quadTopLeft wt k.toNat + wt + 1 then raising .outOfRange s
    else if 1024 ≤ dst.toNat + 3 then raising .outOfRange s
    else commit (quadStores s dst.toNat (quadTiles wt k.toNat)) [] s

end Sys2Proof.Machine
end

