-- ==== Sys2Proof/Machine/RegionAccess.lean ====
section
/-! DEFINITION. The region access commands (spec/40_region_access.md). -/

namespace Sys2Proof.Machine

/-- RGN.ADDR (R101). -/
def execRgnAddr (r : Region) (i : Half) (s : State) : Result :=
  unlessHalted s <| withIndex r i.toNat s fun a => answering [BitVec.ofNat 32 a] s

/-- REG.RD (R102); an id above 2 is a reserved encoding. -/
def execRegRd (r : Region) (s : State) : Result :=
  unlessHalted s <|
    if r.readable then
      withIndex r 0 s fun a =>
        withRead a (memRead2 s a) fun (v, s') => answering [v.setWidth 32] s'
    else raising .illegalCommand s

/-- REG.WR (R103); every id but 0 and 2 is a reserved encoding, KEYINPUT's among them (R104). -/
def execRegWr (r : Region) (val : Half) (s : State) : Result :=
  unlessHalted s <|
    if r.writable then withIndex r 0 s fun a => commit [.half a val] [] s
    else raising .illegalCommand s

/-- PAL.RD (R105). -/
def execPalRd (i : Byte) (s : State) : Result :=
  unlessHalted s <|
    withIndex .objpal i.toNat s fun a =>
      withRead a (memRead2 s a) fun (c, s') => answering [c.setWidth 32] s'

/-- PAL.WR (R106). -/
def execPalWr (i : Byte) (c : Half) (s : State) : Result :=
  unlessHalted s <| withIndex .objpal i.toNat s fun a => commit [.half a c] [] s

end Sys2Proof.Machine
end

