-- ==== Sys2Proof/Machine/Sync.lean ====
section
/-! DEFINITION. The synchronisation and status commands (spec/44_sync_status.md). NOP and STAT.RD are the two
the halted check lets through (spec/60_exceptions.md R213). -/

namespace Sys2Proof.Machine

/-- NOP (R200): answers `OK`, halted or not. -/
def execNop (s : State) : Result := answering [] s

/-- Word `s0` of STAT.RD (R201): `alloc_ctr` in bits 7 to 0, `fault_code` in 11 to 8, `blob_valid` in
bit 12. -/
def statusWord (s : State) : Word :=
  s.allocCtr.setWidth 32 ||| (s.faultCode.setWidth 32 <<< 8) |||
    ((if s.blobValid then (1 : Word) else 0) <<< 12)

/-- STAT.RD (R201): answers `OK` with the three status words, halted or not. -/
def execStatRd (s : State) : Result :=
  answering [statusWord s, pairWord s.sheetHt s.sheetWt, BitVec.ofNat 32 s.blobLen] s

/-- VBL.WAIT (R203): the command is pending; `State.vblankEvent` completes it with its response. -/
def execVblWait (s : State) : Result := unlessHalted s (.next { s with waiting := true })

end Sys2Proof.Machine
end

