-- ==== Sys2Proof/Machine/Tile.lean ====
section
/-! DEFINITION. The tile engine commands (spec/41_tile_engine.md). A payload list of another length than
spec/30_encoding.md R76 gives is an illegal command (R84 check 4); the decoder hands none on. -/

namespace Sys2Proof.Machine

/-- The pixel checks of R124 and R126, then the command's last part. -/
def withPixels (px : List Byte) (s : State) (body : Result) : Result :=
  if px.any badPixel then raising .formatError s else body

/-- PACK8 (R124). -/
def execPack8 (px : List Byte) (s : State) : Result :=
  unlessHalted s <|
    if px.length = 8 then withPixels px s (answering [packNibbles px] s)
    else raising .illegalCommand s

/-- UNPACK8 (R125). -/
def execUnpack8 (w : Word) (s : State) : Result :=
  unlessHalted s (answering (wordsOfBytes (unpackNibbles w)) s)

/-- TILE.WRPX (R126): the index is checked before the pixels. -/
def execTileWrpx (t : Half) (px : List Byte) (s : State) : Result :=
  unlessHalted s <|
    if px.length = 64 then
      withIndex .objtile t.toNat s fun base =>
        withPixels px s (commit (wordStores base (packTile px)) [] s)
    else raising .illegalCommand s

/-- TILE.RDPX (R127). -/
def execTileRdpx (t : Half) (s : State) : Result :=
  unlessHalted s <|
    withIndex .objtile t.toNat s fun base =>
      withRead base (memReadWords s base 8) fun ws => answering (wordsOfBytes (unpackTile ws)) s

/-- TILE.WRW (R128). -/
def execTileWrw (t : Half) (ws : List Word) (s : State) : Result :=
  unlessHalted s <|
    if ws.length = 8 then withIndex .objtile t.toNat s fun base => commit (wordStores base ws) [] s
    else raising .illegalCommand s

/-- TILE.RDW (R129). -/
def execTileRdw (t : Half) (s : State) : Result :=
  unlessHalted s <|
    withIndex .objtile t.toNat s fun base =>
      withRead base (memReadWords s base 8) fun ws => answering ws s

end Sys2Proof.Machine
end

