-- ==== Sys2Proof/Machine/Dispatch.lean ====
section
/-! DEFINITION. The meaning of every instruction: one arm per row of spec/opcode_table.json. -/

namespace Sys2Proof.Machine

def exec (i : Instr) (s : State) : Host.Outcome State Fault Refusal :=
  match i with
  -- 44_sync_status.md
  | .nop => Sys2Proof.Machine.execNop s
  | .statRd => Sys2Proof.Machine.execStatRd s
  | .vblWait => Sys2Proof.Machine.execVblWait s
  -- 40_region_access.md
  | .rgnAddr r idx => Sys2Proof.Machine.execRgnAddr r idx s
  | .regRd r => Sys2Proof.Machine.execRegRd r s
  | .regWr r val => Sys2Proof.Machine.execRegWr r val s
  | .palRd idx => Sys2Proof.Machine.execPalRd idx s
  | .palWr idx c => Sys2Proof.Machine.execPalWr idx c s
  -- 41_tile_engine.md
  | .pack8 px => Sys2Proof.Machine.execPack8 px s
  | .unpack8 w => Sys2Proof.Machine.execUnpack8 w s
  | .tileWrpx t px => Sys2Proof.Machine.execTileWrpx t px s
  | .tileRdpx t => Sys2Proof.Machine.execTileRdpx t s
  | .tileWrw t ws => Sys2Proof.Machine.execTileWrw t ws s
  | .tileRdw t => Sys2Proof.Machine.execTileRdw t s
  -- 42_tile_mapper.md
  | .mapPx wt x y => Sys2Proof.Machine.execMapPx wt x y s
  | .mapQuad wt k => Sys2Proof.Machine.execMapQuad wt k s
  | .cmpBitmap pl => Sys2Proof.Machine.execCmpBitmap pl s
  | .blobRd j => Sys2Proof.Machine.execBlobRd j s
  | .tileLdb dst src => Sys2Proof.Machine.execTileLdb dst src s
  | .sprLoad16 dst k => Sys2Proof.Machine.execSprLoad16 dst k s
  -- 43_sprite_descriptor.md
  | .descNew => Sys2Proof.Machine.execDescNew s
  | .descSize shape size => Sys2Proof.Machine.execDescSize shape size s
  | .descTile tile => Sys2Proof.Machine.execDescTile tile s
  | .descPal palette => Sys2Proof.Machine.execDescPal palette s
  | .descX x => Sys2Proof.Machine.execDescX x s
  | .descY y => Sys2Proof.Machine.execDescY y s
  | .descRd => Sys2Proof.Machine.execDescRd s
  | .descDec w0 w1 w2 => Sys2Proof.Machine.execDescDec w0 w1 w2 s
  | .oamAlloc => Sys2Proof.Machine.execOamAlloc s
  | .oamWr slot => Sys2Proof.Machine.execOamWr slot s
  | .oamRd slot => Sys2Proof.Machine.execOamRd slot s
  | .oamClear => Sys2Proof.Machine.execOamClear s
  | .frameBegin => Sys2Proof.Machine.execFrameBegin s

end Sys2Proof.Machine
end

