-- ==== Sys2Proof/Machine/Execute.lean ====
section
/-! DEFINITION. What the CORE does with a command the host has issued (spec/60_exceptions.md R213). -/

namespace Sys2Proof.Machine

/-- One command: the halted check, the checks of R84, and then the command's own rule, in that order. The
halted check of a legal command stands in its meaning, since NOP and STAT.RD pass it. -/
def runCommand (c : Command) (s : State) : Result :=
  match decode c with
  | .ok i => exec i s
  | .error _ => illegalCommand s

/-- The CORE's turn: it runs the host's next command, and stays as it is while the host is idle. -/
def coreTurn (s : State) : Result :=
  match s.takeCommand with
  | some (c, s') => runCommand c s'
  | none => .next s

/-- What a reset leaves of a command it abandons (spec/70_reset_and_hazards.md R241): `s` is the state the
command started from and `u` the one it ran to. What happened before the reset stays: the values the display
was handed, among them those with part of the command's stores, and the keys. The response is not given. The
stores that lie after the reset leave nothing: no event latches them and every byte takes a fresh draw
(R240). -/
def State.abandon (s u : State) : State :=
  { passAll u.agenda u with rsp := s.rsp, cmds := s.cmds, agenda := s.agenda }.rst

/-- `rst` while the CORE executes the host's next command, after these beats of it (R241). Beats left over
fall after the command's last store and before its response. -/
def cutCommand (beats : List Beat) (s : State) : Result :=
  match s.takeCommand with
  | none => .next (s.abandon { s with agenda := beats.map Beat.move })
  | some (c, s') =>
    match runCommand c { s' with agenda := beats.map Beat.move } with
    | .next u => .next (s'.abandon u)
    | .fault r => .fault r
    | .refused r => .refused r

end Sys2Proof.Machine
end

