-- ==== Sys2Proof/Machine/Step.lean ====
section
/-! DEFINITION. One step of the machine: the move of one agent (spec/60_exceptions.md R233), or one whole
command. -/

namespace Sys2Proof.Machine

/-- One step. -/
def step (s : State) : Host.Outcome State Fault Refusal :=
  match s.turn with
  | .moved t => .next t
  | .core t => coreTurn t
  | .cut beats t => cutCommand beats t

/-- The state in which the next step takes the command of a word of spec/opcode_table.json from the `cmd`
port. This stands for the host issuing it: the machine has no program of its own (spec/10_state.md R29,
log 8). -/
def State.withFetchWord (s : State) (nbits w : Nat) : State := s.offer (tableCommand nbits w)

end Sys2Proof.Machine
end

