-- ==== Sys2Proof/Safety.lean ====
section
/-! DEFINITION. The terms statements are made in: the invariant of the machine, frames, and the spec's own
reading of an illegal encoding. -/

namespace Sys2Proof.Machine

/-! ### The invariant -/

/-- What every state the machine reaches satisfies: the memories keep their canonical form and stay on draws
already made, the registers stay in the ranges spec/10_state.md R20 to R23 give them, the blob has the
sheet's size (R23, spec/42_tile_mapper.md R146), and no command is pending on a halted CORE (R203). -/
structure State.Inv (s : State) : Prop where
  mem_wf : s.mem.wf
  vis_wf : s.vis.wf
  frames_wf : ∀ m ∈ s.frames, m.wf
  mem_drawn : s.mem.draw < s.draws
  vis_drawn : s.vis.draw < s.draws
  alloc_le : s.allocCtr.toNat ≤ 128
  fault_le : s.faultCode.toNat ≤ 4
  desc_spare : s.desc.spareZero = true
  blob_sheet : s.blob.length = 8 * (s.sheetWt.toNat * s.sheetHt.toNat)
  blob_fits : s.blob.length ≤ s.params.blobMaxWords
  no_sheet : s.blob = [] → s.sheetWt = 0 ∧ s.sheetHt = 0
  wait_live : s.waiting = true → s.faultCode = 0

/-! ### Frames -/

/-- The internal registers of spec/10_state.md section 3 but `desc` and `alloc_ctr`, the host's commands, the
model arguments and the counter of draws are unchanged. -/
def SameRest (s t : State) : Prop :=
  t.faultCode = s.faultCode ∧ t.blob = s.blob ∧ t.sheetWt = s.sheetWt ∧ t.sheetHt = s.sheetHt ∧
    t.waiting = s.waiting ∧ t.cmds = s.cmds ∧ t.params = s.params ∧ t.draws = s.draws

/-- Every internal register is unchanged, and so is the rest of that list. -/
def SameRegisters (s t : State) : Prop := t.desc = s.desc ∧ t.allocCtr = s.allocCtr ∧ SameRest s t

/-- Every byte of memory outside `n` bytes from `lo` on is unchanged. -/
def SameMemoryOutside (lo n : Nat) (s t : State) : Prop :=
  ∀ a, a < lo ∨ lo + n ≤ a → t.mem.byte a = s.mem.byte a

/-- The command answered `OK` with these words, and that is its one response. -/
def AnsweredOk (words : List Word) (s t : State) : Prop :=
  t.rsp = { status := .ok, words := words } :: s.rsp

/-- The other agents did nothing: no event, no change of the keys, the agenda as it was. -/
def NoOtherMoved (s t : State) : Prop :=
  t.vis = s.vis ∧ t.frames = s.frames ∧ t.keyIn = s.keyIn ∧ t.agenda = s.agenda

/-- The entry is a reset. -/
def Move.isReset : Move → Bool
  | .rst | .rstDuring _ => true
  | .vblank | .keys _ | .core => false

/-- `key_i` after the entries of an agenda. -/
def keysAfter : BitVec 10 → List Move → BitVec 10
  | k, [] => k
  | _, .keys k :: rest => keysAfter k rest
  | k, _ :: rest => keysAfter k rest

/-- What the other agents did during a command of `n` element stores (spec/20_memory.md R52): it used up the
front of the agenda, without a reset in it, at most one entry of the CORE for each gap, and nothing at all if it
has no gap; the display was handed one value for each event used up, and `VIS` is the last of them, or as it
was. -/
def OthersMoved (n : Nat) (s t : State) : Prop :=
  ∃ used : List Move, s.agenda = used ++ t.agenda ∧ (∀ m ∈ used, m.isReset = false) ∧
    (n ≤ 1 → used = []) ∧ used.count .core ≤ n - 1 ∧
    s.frames <:+ t.frames ∧ t.frames.length = used.count .vblank + s.frames.length ∧
    (Move.vblank ∈ used → t.frames.head? = some t.vis) ∧ (Move.vblank ∉ used → t.vis = s.vis) ∧
    t.keyIn = keysAfter s.keyIn used

/-- The state after a fault of this kind, taken by a CORE that is not halted (spec/60_exceptions.md R212). -/
def faulted (k : FaultKind) (s : State) : State :=
  { s with faultCode := k.code, rsp := { status := k.status, words := [] } :: s.rsp }

/-- The state after a command that a halted CORE turns away (R213). -/
def turnedAway (s : State) : State := { s with rsp := { status := .halted, words := [] } :: s.rsp }

/-- All eight rows of tile slot `t` have been written since reset: the bookkeeping of
spec/70_reset_and_hazards.md R253. -/
def State.tileWritten (s : State) (t : Nat) : Bool :=
  (List.range 32).all fun j => (s.mem.get? (elemAddr .objtile t + j)).isSome

/-! ### What commands do, by kind -/

/-- How many response words an `OK` response carries (spec/30_encoding.md R76). -/
def responseLen : Instr → Nat
  | .nop | .vblWait | .regWr _ _ | .palWr _ _ | .tileWrpx _ _ | .tileWrw _ _ | .tileLdb _ _
  | .sprLoad16 _ _ | .descNew | .descSize _ _ | .descTile _ | .descPal _ | .descX _ | .descY _
  | .oamWr _ | .oamClear | .frameBegin => 0
  | .rgnAddr _ _ | .regRd _ | .palRd _ | .pack8 _ | .blobRd _ | .oamAlloc => 1
  | .unpack8 _ | .mapPx _ _ _ | .descRd | .oamRd _ => 2
  | .statRd => 3
  | .mapQuad _ _ => 4
  | .descDec _ _ _ => 6
  | .tileRdw _ => 8
  | .tileRdpx _ => 16
  | .cmpBitmap pl => (lowHalf (pl.getD 0 0)).toNat * (highHalf (pl.getD 0 0)).toNat / 8

/-- The commands that store to a region. -/
def isStoring : Instr → Bool
  | .regWr _ _ | .palWr _ _ | .tileWrpx _ _ | .tileWrw _ _ | .tileLdb _ _ | .sprLoad16 _ _ | .oamAlloc
  | .oamWr _ | .oamClear | .frameBegin => true
  | .nop | .statRd | .vblWait | .rgnAddr _ _ | .regRd _ | .palRd _ | .pack8 _ | .unpack8 _
  | .tileRdpx _ | .tileRdw _ | .mapPx _ _ _ | .mapQuad _ _ | .cmpBitmap _ | .blobRd _ | .descNew
  | .descSize _ _ | .descTile _ | .descPal _ | .descX _ | .descY _ | .descRd | .descDec _ _ _
  | .oamRd _ => false

/-- How many element stores a command makes when it answers `OK` (spec/20_memory.md R52). -/
def storeCount (p : ClearPolicy) : Instr → Nat
  | .regWr _ _ | .palWr _ _ | .oamAlloc | .oamWr _ => 1
  | .tileWrpx _ _ | .tileWrw _ _ | .tileLdb _ _ => 8
  | .sprLoad16 _ _ => 32
  | .oamClear => 128
  | .frameBegin => if p = .everyFrame then 128 else 0
  | .nop | .statRd | .vblWait | .rgnAddr _ _ | .regRd _ | .palRd _ | .pack8 _ | .unpack8 _
  | .tileRdpx _ | .tileRdw _ | .mapPx _ _ _ | .mapQuad _ _ | .cmpBitmap _ | .blobRd _ | .descNew
  | .descSize _ _ | .descTile _ | .descPal _ | .descX _ | .descY _ | .descRd | .descDec _ _ _
  | .oamRd _ => 0

/-- The five field commands of the builder (spec/43_sprite_descriptor.md R174 to R178). -/
def isFieldCommand (i : Instr) : Bool :=
  i.opcode == .descSize || i.opcode == .descTile || i.opcode == .descPal || i.opcode == .descX ||
    i.opcode == .descY

/-- The last command of a kind in a sequence. -/
def lastOf (o : Opcode) (is : List Instr) : Option Instr := is.reverse.find? fun i => i.opcode == o

/-- The meanings of a sequence, one after another. -/
def runInstrs : List Instr → State → Result
  | [], s => .next s
  | i :: is, s =>
    match exec i s with
    | .next t => runInstrs is t
    | r => r

/-- The bits of a descriptor that hold no field (R171). -/
def Desc.spare (d : Desc) : BitVec 6 × BitVec 5 × BitVec 2 :=
  (d.w0.extractLsb' 8 6, d.w1.extractLsb' 9 5, d.w2.extractLsb' 10 2)

/-! ### Illegal encodings, in the words of spec/30_encoding.md R84 -/

/-- A command word from its three fields (R71). -/
def wordOf (op a : Byte) (v : Half) : Word := op ++ a ++ v

/-- The command with these fields and this payload stands for `i`. -/
def Encodes (op a : Byte) (v : Half) (pl : List Word) (i : Instr) : Prop :=
  decode { cw := wordOf op a v, pl := pl } = .ok i

/-- On the command with these fields and this payload, a CORE that is not halted raises `IllegalCommand`,
with no other effect. -/
def RaisesIllegal (op a : Byte) (v : Half) (pl : List Word) (s : State) : Prop :=
  runCommand { cw := wordOf op a v, pl := pl } s = .next (faulted .illegalCommand s)

/-- Check (1). -/
def UnknownOp (c : Command) : Prop :=
  let op := c.op.toNat
  (0x03 ≤ op ∧ op ≤ 0x0F) ∨ (0x15 ≤ op ∧ op ≤ 0x1F) ∨ (0x26 ≤ op ∧ op ≤ 0x2F) ∨
    (0x36 ≤ op ∧ op ≤ 0x3F) ∨ 0x4D ≤ op

/-- Check (2): `a` outside format AV, and `v` past the bits R75 gives the operand. -/
def ReservedBitSet (c : Command) : Prop :=
  (¬(0x10 ≤ c.op.toNat ∧ c.op.toNat ≤ 0x14) ∧ c.a ≠ 0) ∨
    (c.op.toNat ∈ [0x00, 0x01, 0x02, 0x11, 0x13, 0x20, 0x21, 0x32, 0x33, 0x40, 0x46, 0x47, 0x48, 0x4B, 0x4C] ∧
      c.v ≠ 0) ∨
    (c.op = 0x41 ∧ 15 < c.v.toNat) ∨ (c.op = 0x42 ∧ 1023 < c.v.toNat) ∨ (c.op = 0x43 ∧ 15 < c.v.toNat) ∨
    (c.op = 0x44 ∧ 511 < c.v.toNat) ∨ (c.op = 0x45 ∧ 255 < c.v.toNat)

/-- Check (3). -/
def ReservedSelector (c : Command) : Prop :=
  (c.op = 0x10 ∧ 6 ≤ c.a.toNat) ∨ (c.op = 0x11 ∧ 3 ≤ c.a.toNat) ∨ (c.op = 0x12 ∧ c.a ≠ 0 ∧ c.a ≠ 2)

/-- The payload length of R76 by opcode; none for CMP.BITMAP and for values that are no opcode. -/
def requiredLength (op : Nat) : Option Nat :=
  if op = 0x32 then none
  else if op = 0x20 ∨ op = 0x47 then some 2
  else if op = 0x21 ∨ op = 0x30 ∨ op = 0x31 ∨ op = 0x33 ∨ op = 0x34 ∨ op = 0x35 then some 1
  else if op = 0x22 then some 16
  else if op = 0x24 then some 8
  else some 0

/-- Check (4), where R84 itself makes it. -/
def WrongLength (c : Command) : Prop := ∃ n, requiredLength c.op.toNat = some n ∧ c.pl.length ≠ n

/-- Check (5). -/
def ReservedPayloadBit (c : Command) : Prop :=
  ((c.op = 0x31 ∨ c.op = 0x35) ∧ 2 ^ 16 ≤ (c.pl.getD 0 0).toNat) ∨
    (c.op = 0x47 ∧ 2 ^ 16 ≤ (c.pl.getD 1 0).toNat)

/-- One of the checks the decoder makes fails. -/
def IllegalEncoding (c : Command) : Prop :=
  UnknownOp c ∨ ReservedBitSet c ∨ ReservedSelector c ∨ WrongLength c ∨ ReservedPayloadBit c

end Sys2Proof.Machine
end

