-- ==== Sys2Proof/Certificates/Slice0/Obligations.lean ====
section
/-! DEFINITION. The statements for the provers. Each formalises what spec/ says of the machine; where one
rests on a choice of the model, its docstring names the log entry. -/

open Sys2Proof Sys2Proof.Machine

/-! ### Encoding -/

/-- Decoding the words of a well-formed instruction gives it back, for every operand (spec/30_encoding.md
R71 to R76). -/
def Obligations.DecodeOfEncodeIsTheInstruction : Prop :=
  ∀ i : Instr, i.wf = true → decode (encode i) = .ok i

/-- Every command the decoder accepts stands for a well-formed instruction and is the one command that does:
no bit of an accepted command is ignored (R72, R84). A term of `Instr` that no command stands for raises
`IllegalCommand` in its meaning: the model's choice, log 15. -/
def Obligations.AcceptedCommandEncodesBack : Prop :=
  (∀ (c : Command) (i : Instr), decode c = .ok i → i.wf = true ∧ encode i = c) ∧
    ∀ (i : Instr) (s : State), i.wf = false → s.faultCode = 0 →
      exec i s = .next (faulted .illegalCommand s)

/-- R84: the decoder turns away exactly the commands its five checks name, each by the first check that
fails, and such a command raises `IllegalCommand` and has no other effect (or is answered `Halted`). Check
(4) of CMP.BITMAP is in its own rule (R146). -/
def Obligations.IllegalExactlyByTheFiveChecks : Prop :=
  (∀ c : Command,
    (decode c = .error .unknownOpcode ↔ UnknownOp c) ∧
    (decode c = .error .reservedBits ↔ ¬UnknownOp c ∧ ReservedBitSet c) ∧
    (decode c = .error .reservedRegion ↔ ¬UnknownOp c ∧ ¬ReservedBitSet c ∧ ReservedSelector c) ∧
    (decode c = .error .payloadLength ↔
      ¬UnknownOp c ∧ ¬ReservedBitSet c ∧ ¬ReservedSelector c ∧ WrongLength c) ∧
    (decode c = .error .payloadBits ↔ ¬UnknownOp c ∧ ¬ReservedBitSet c ∧ ¬ReservedSelector c ∧
      ¬WrongLength c ∧ ReservedPayloadBit c)) ∧
    ∀ (c : Command) (s : State), IllegalEncoding c →
      runCommand c s = .next (if s.faultCode = 0 then faulted .illegalCommand s else turnedAway s)

/-- Words written out from R75 and spec/95_test_vectors.md decode to the instructions they stand for. -/
def Obligations.WrittenOutWordsDecode : Prop :=
  decode { cw := 0x01000000, pl := [] } = .ok .statRd ∧
    decode { cw := 0x1411001F, pl := [] } = .ok (.palWr 17 0x001F) ∧
    decode { cw := 0x20000000, pl := [0x03020100, 0x07060504] } = .ok (.pack8 [0, 1, 2, 3, 4, 5, 6, 7]) ∧
    decode { cw := 0x30000008, pl := [0x000A0013] } = .ok (.mapPx 8 19 10) ∧
    decode { cw := 0x4100000B, pl := [] } = .ok (.descSize 2 3) ∧
    decode { cw := 0x4A00007F, pl := [] } = .ok (.oamRd 127)

/-! ### Steps, agents and the whole machine -/

/-- A step at which the CORE moves runs the instruction its next command decodes to; on top of `exec` it
takes the command off the port and its own entry off the agenda (R29, R50; the agenda is log 6). The
command `withFetchWord` places runs in the very next step (log 8). -/
def Obligations.StepRunsTheDecodedInstruction : Prop :=
  (∀ (s : State) (c : Command) (rest : List Command) (i : Instr),
    s.cmds = c :: rest → s.waiting = false → decode c = .ok i → i.wf = true →
      (s.agenda = [] → step s = exec i { s with cmds := rest }) ∧
        ∀ ag, s.agenda = .core :: ag → step s = exec i { s with cmds := rest, agenda := ag }) ∧
    ∀ (s : State) (nbits w : Nat) (i : Instr), decodeTableWord nbits w = some i →
      step (s.withFetchWord nbits w) = exec i { s with waiting := false }

/-- From every state every instruction and every step answers a next state: no command forms an address
outside the map, so every access it makes succeeds (spec/20_memory.md R42, R43, R47). -/
def Obligations.NothingEverStopsTheMachine : Prop :=
  (∀ (i : Instr) (s : State), ∃ t, exec i s = .next t) ∧ ∀ s : State, ∃ t, step s = .next t

/-- Every step of every agent keeps the invariant (spec/10_state.md R20 to R23; R203; the memory's form is
log 2) and the model arguments, which are this machine's for good (R6, log 1). -/
def Obligations.StepKeepsTheInvariant : Prop :=
  ∀ s t : State, s.Inv → step s = .next t → t.Inv ∧ t.params = s.params

/-- The state after reset satisfies the invariant. -/
def Obligations.ResetSatisfiesTheInvariant : Prop := State.reset.Inv

/-- What `rst` leaves, whatever the CORE was doing: every internal register zero, `fault_o` low, no command
pending, no blob word readable; and no command does what only reset does, leave the halted state or replace
a blob (spec/70_reset_and_hazards.md R240). The agenda's two entries for a reset are log 6. -/
def Obligations.ResetLeavesInternalRegistersZero : Prop :=
  (∀ (s : State) (m : Move) (ag : List Move), s.agenda = m :: ag → m.isReset = true →
    ∃ t, step s = .next t ∧
      t.desc = { w0 := 0, w1 := 0, w2 := 0 } ∧ t.allocCtr = 0 ∧ t.faultCode = 0 ∧ t.faultOut = false ∧
      t.blobLen = 0 ∧ t.sheetWt = 0 ∧ t.sheetHt = 0 ∧ t.waiting = false ∧
      ∀ j : Word, exec (.blobRd j) t = .next (faulted .outOfRange t)) ∧
    ∀ (i : Instr) (s t : State), exec i s = .next t →
      (s.faultCode ≠ 0 → t.faultCode = s.faultCode) ∧ (s.blob ≠ [] → t.blob = s.blob)

/-- A reset between commands or while a VBL.WAIT is pending gives no response and abandons the wait. One that
arrives during a command abandons it: no response, the host goes on with the command after it, and what
happened before the reset has happened: an event between a store of TILE.WRW and the reset hands the display
exactly the rows stored by then, up to all eight (spec/70_reset_and_hazards.md R241, R52, R30). The agenda's
entries for a reset, and what falls before one, are log 6; the ports outside the reset log 9; the draws that
every byte then stands on, one of memory and one of `VIS`, log 2. -/
def Obligations.ResetAbandonsTheCommand : Prop :=
  (∀ (s : State) (ag : List Move),
    s.agenda = .rst :: ag ∨ (s.waiting = true ∧ ∃ beats, s.agenda = .rstDuring beats :: ag) →
    ∃ t, step s = .next t ∧ t.waiting = false ∧ t.rsp = s.rsp ∧ t.cmds = s.cmds ∧ t.agenda = ag ∧
      t.keyIn = s.keyIn ∧ t.frames = s.frames ∧
      ∀ a, t.mem.byte a = Config.resetByte s.draws a ∧ t.vis.byte a = Config.resetByte (s.draws + 1) a) ∧
    (∀ (s : State) (beats : List Beat) (ag : List Move) (c : Command) (rest : List Command),
      s.agenda = .rstDuring beats :: ag → s.waiting = false → s.cmds = c :: rest →
      ∃ t, step s = .next t ∧ t.waiting = false ∧ t.rsp = s.rsp ∧ t.cmds = rest ∧ t.agenda = ag ∧
        t.faultCode = 0 ∧ t.allocCtr = 0 ∧ t.blob = [] ∧ t.desc = { w0 := 0, w1 := 0, w2 := 0 } ∧
        t.keyIn = keysAfter s.keyIn (beats.map Beat.move) ∧
        s.frames <:+ t.frames ∧ t.frames.length = beats.count .vblank + s.frames.length ∧
        ∃ n, s.draws ≤ n ∧
          ∀ a, t.mem.byte a = Config.resetByte n a ∧ t.vis.byte a = Config.resetByte (n + 1) a) ∧
    ∀ (s : State) (k : Nat) (ag : List Move) (c : Command) (rest : List Command) (t : Half) (ws : List Word),
      s.agenda = .rstDuring (List.replicate k .core ++ [.vblank]) :: ag → s.waiting = false →
      s.cmds = c :: rest → decode c = .ok (.tileWrw t ws) → s.faultCode = 0 → t.toNat < 1024 → k < 8 →
      ∃ u f, step s = .next u ∧ u.rsp = s.rsp ∧ u.frames = f :: s.frames ∧
        ∀ r, r < 8 → f.word (tileWordAddr (8 * t.toNat + r)) =
          if r ≤ k then ws.getD r 0 else s.tilew (8 * t.toNat + r)

/-- Taking a fault, over all instructions (spec/60_exceptions.md R212): a command that answers a fault was
run by a CORE not halted, and changes nothing but `fault_code` and the response, which has no words; a code
already there is kept; `fault_o` goes high; and from then on every command but NOP and STAT.RD is turned
away. -/
def Obligations.FaultChangesOnlyTheFaultCode : Prop :=
  (∀ (i : Instr) (s t : State) (k : FaultKind) (ws : List Word),
    exec i s = .next t → t.rsp = { status := k.status, words := ws } :: s.rsp →
      s.faultCode = 0 ∧ ws = [] ∧ t = faulted k s ∧ t.faultOut = true ∧
        ∀ j : Instr, j ≠ .nop → j ≠ .statRd → exec j t = .next (turnedAway t)) ∧
    (∀ (s : State) (k : FaultKind), s.faultCode ≠ 0 → (s.raise k).faultCode = s.faultCode) ∧
    ∀ k : FaultKind, k.status.code = k.code

/-- The common prologue (R213): the halted check, then the illegal checks, then the command's own rule; and
what goes on while the CORE is halted. -/
def Obligations.EveryCommandPassesThePrologue : Prop :=
  (∀ (c : Command) (s : State), s.faultCode ≠ 0 →
    ((decode c = .ok .nop ∨ decode c = .ok .statRd) →
      ∃ ws, runCommand c s = .next { s with rsp := { status := .ok, words := ws } :: s.rsp } ∧
        ∀ i, decode c = .ok i → runCommand c s = exec i s) ∧
    (¬(decode c = .ok .nop ∨ decode c = .ok .statRd) → runCommand c s = .next (turnedAway s))) ∧
    (∀ (c : Command) (s : State), s.faultCode = 0 →
      (∀ e, decode c = .error e → runCommand c s = .next (faulted .illegalCommand s)) ∧
        ∀ i, decode c = .ok i → runCommand c s = exec i s) ∧
    ∀ s t : State, s.faultCode ≠ 0 → (∀ m ∈ s.agenda.head?, m.isReset = false) → step s = .next t →
      t.faultCode = s.faultCode ∧ t.mem = s.mem ∧
        (∀ ag, s.agenda = .vblank :: ag → t.vis = s.mem ∧ t.frames = s.mem :: s.frames) ∧
        ∀ k ag, s.agenda = .keys k :: ag → t.keyIn = k

/-- No command clears `fault_code` and none replaces it: of all steps only a reset leaves the halted state
(R22, R217). -/
def Obligations.OnlyResetClearsTheFaultCode : Prop :=
  ∀ s t : State, s.faultCode ≠ 0 → step s = .next t →
    t.faultCode = s.faultCode ∨
      ((∃ m ∈ s.agenda.head?, m.isReset = true) ∧ t.faultCode = 0)

/-- A command gives exactly one response; with `OK` it carries the number of words R76 gives, otherwise none
(R74, R76). VBL.WAIT responds when it is released. -/
def Obligations.OneResponseOfTheRightLength : Prop :=
  ∀ (i : Instr) (s t : State), exec i s = .next t → i ≠ .vblWait →
    ∃ r : Response, t.rsp = r :: s.rsp ∧ (r.status = .ok → r.words.length = responseLen i) ∧
      (r.status ≠ .ok → r.words = [])

/-- Only vertical-blank events write `VIS` (spec/10_state.md R30): a command uses up the front of the agenda,
no more of it than its element stores have gaps for, and `VIS` is as it was unless an event is among what it
used up; the display is handed one value for each such event. The agenda is log 6. -/
def Obligations.CommandsDoNotWriteVis : Prop :=
  ∀ (i : Instr) (s t : State), exec i s = .next t → OthersMoved (storeCount s.params.clearPolicy i) s t

/-- An event between two stores of TILE.WRW shows exactly the rows stored before it, each whole, and the
tile is whole after the command; an event between two stores of OAM.CLEAR shows exactly the slots cleared
before it (spec/20_memory.md R52). The agenda that places the event is log 6. -/
def Obligations.EventInsideACommandSeesAPrefix : Prop :=
  (∀ (s : State) (t : Half) (ws : List Word) (k : Nat) (rest : List Move),
    s.faultCode = 0 → t.toNat < 1024 → ws.length = 8 → k < 7 →
    s.agenda = List.replicate k .core ++ .vblank :: rest → Move.vblank ∉ rest →
    ∃ u, exec (.tileWrw t ws) s = .next u ∧ u.frames = u.vis :: s.frames ∧ ∀ r, r < 8 →
      u.vis.word (tileWordAddr (8 * t.toNat + r)) =
          (if r ≤ k then ws.getD r 0 else s.tilew (8 * t.toNat + r)) ∧
        u.tilew (8 * t.toNat + r) = ws.getD r 0) ∧
    ∀ (s : State) (k : Nat) (rest : List Move),
      s.faultCode = 0 → k < 127 →
      s.agenda = List.replicate k .core ++ .vblank :: rest → Move.vblank ∉ rest →
      ∃ u, exec .oamClear s = .next u ∧ u.frames = u.vis :: s.frames ∧ ∀ i, i < 128 →
        u.vis.descAt (elemAddr .oam i) = (if i ≤ k then zeroDesc else s.oam i)

/-- Every store of every command (spec/20_memory.md R52): a command that answers `OK` makes the number of
element stores R52 gives, in strictly ascending address order; a vertical-blank event after the first `k + 1`
of them latches exactly that prefix, and the command then completes the rest; with any number of events in
each gap the display is handed, in order, one value an event, each the memory after the stores before it
(spec/10_state.md R30); a command that faults stores nothing. The agenda that places the events is log 6. -/
def Obligations.EventSeesAPrefixOfTheStores : Prop :=
  ∀ (i : Instr) (s t : State), exec i s = .next t →
    (∀ ws, t.rsp = { status := .ok, words := ws } :: s.rsp →
      ∃ es : List ElemStore, es.length = storeCount s.params.clearPolicy i ∧
        es.Pairwise (fun e f => e.addr + e.size ≤ f.addr) ∧ t.mem = s.mem.storeAll es ∧
        (∀ (k : Nat) (rest : List Move), k + 1 < es.length → Move.vblank ∉ rest →
          ∃ u, exec i { s with agenda := List.replicate k .core ++ .vblank :: rest } = .next u ∧
            u.vis = s.mem.storeAll (es.take (k + 1)) ∧ u.frames = u.vis :: s.frames ∧
            u.mem = t.mem ∧ u.rsp = t.rsp) ∧
        ∀ (gaps : List Nat) (rest : List Move), gaps.length + 1 = es.length →
          ∃ u, exec i { s with
              agenda := (gaps.flatMap fun g => List.replicate g .vblank ++ [.core]) ++ rest } = .next u ∧
            u.frames = ((List.range gaps.length).flatMap fun k =>
              List.replicate (gaps.getD k 0) (s.mem.storeAll (es.take (k + 1)))).reverse ++ s.frames ∧
            u.agenda = rest ∧ u.mem = t.mem ∧ u.rsp = t.rsp) ∧
    ∀ (k : FaultKind) (ws : List Word), t.rsp = { status := k.status, words := ws } :: s.rsp →
      t.mem = s.mem ∧ t.vis = s.vis ∧ t.frames = s.frames

/-- No command reads `VIS` (R30) or what the display was handed: two states that differ only in these give
results that differ only in these, with the same values handed to the display. -/
def Obligations.CommandsDoNotReadVis : Prop :=
  ∀ (i : Instr) (s t : State) (v : Memory) (fs : List Memory), exec i s = .next t →
    ∃ t' new, exec i { s with vis := v, frames := fs } = .next t' ∧
      t.frames = new ++ s.frames ∧ t'.frames = new ++ fs ∧
      { t' with vis := t.vis, frames := t.frames } = t

/-- A vertical-blank event latches the regions into `VIS`, hands that value to the display, releases a pending
VBL.WAIT with its response, and changes nothing else, halted or not (spec/44_sync_status.md R202,
spec/10_state.md R30). A key change sets `key_i` and changes nothing else, in every state (spec/10_state.md
R24, spec/60_exceptions.md R233). The agenda that places them is log 6. -/
def Obligations.VblankEventLatchesVis : Prop :=
  (∀ (s : State) (ag : List Move), s.agenda = .vblank :: ag →
    step s = .next { s with
      agenda := ag, vis := s.mem, frames := s.mem :: s.frames, waiting := false,
      rsp := if s.waiting then { status := .ok, words := [] } :: s.rsp else s.rsp }) ∧
    ∀ (s : State) (k : BitVec 10) (ag : List Move), s.agenda = .keys k :: ag →
      step s = .next { s with agenda := ag, keyIn := k }

/-- VBL.WAIT (R203) becomes pending and gives no response; an instant without an event leaves it pending;
the next event latches `VIS`, which then equals the regions as they stood when it was issued, and completes
it; a halted CORE does not wait. -/
def Obligations.VblWaitPendsUntilTheEvent : Prop :=
  decode { cw := 0x02000000, pl := [] } = .ok .vblWait ∧
    (∀ s : State, s.faultCode = 0 → exec .vblWait s = .next { s with waiting := true } ∧
      (∀ ag, step { s with waiting := true, agenda := .core :: ag } =
        .next { s with waiting := true, agenda := ag }) ∧
      ∀ ag, step { s with waiting := true, agenda := .vblank :: ag } =
        .next { s with waiting := false, agenda := ag, vis := s.mem, frames := s.mem :: s.frames,
                       rsp := { status := .ok, words := [] } :: s.rsp }) ∧
    ∀ s : State, s.faultCode ≠ 0 → exec .vblWait s = .next (turnedAway s)

/-- A pending VBL.WAIT is released after finitely many steps, unless a reset ends it (R202, R203). The
bound rests on log 7: an event follows when the agenda is used up. -/
def Obligations.PendingWaitIsReleased : Prop :=
  ∀ s : State, s.waiting = true → (∀ m ∈ s.agenda, m.isReset = false) →
    ∃ n t, n ≤ s.agenda.length + 1 ∧ Sys2Proof.core.run n s = .next t ∧ t.waiting = false ∧
      t.vis = s.mem ∧ t.mem = s.mem ∧ t.rsp = { status := .ok, words := [] } :: s.rsp ∧
      t.desc = s.desc ∧ t.allocCtr = s.allocCtr ∧ t.faultCode = s.faultCode ∧ t.blob = s.blob

/-- OAM.ALLOC steps the allocator's counter, FRAME.BEGIN zeroes it, no other command and no
vertical-blank event writes it (spec/10_state.md R21). -/
def Obligations.OnlyAllocAndFrameWriteTheCounter : Prop :=
  (∀ (i : Instr) (s t : State), exec i s = .next t → t.allocCtr ≠ s.allocCtr →
    (i = .oamAlloc ∧ t.allocCtr = s.allocCtr + 1) ∨ (i = .frameBegin ∧ t.allocCtr = 0)) ∧
    ∀ s : State, s.vblankEvent.allocCtr = s.allocCtr

/-- Only CMP.BITMAP writes the blob and its registers, and only while there is no blob: it is written at
most once between resets (R23). -/
def Obligations.BlobIsWrittenOnlyWhileEmpty : Prop :=
  ∀ (i : Instr) (s t : State), exec i s = .next t →
    (t.blob ≠ s.blob ∨ t.sheetWt ≠ s.sheetWt ∨ t.sheetHt ≠ s.sheetHt) →
    i.opcode = .cmpBitmap ∧ s.blob = []

/-- Only DESC.NEW and the five field commands write the staging descriptor; storing it does not consume it
(R20). -/
def Obligations.OnlyBuildersWriteTheDescriptor : Prop :=
  ∀ (i : Instr) (s t : State), exec i s = .next t → t.desc ≠ s.desc →
    i = .descNew ∨ isFieldCommand i = true

/-- No command touches a byte that is not one of a storage region's elements, KEYINPUT and bytes 6 and 7 of
a table entry among them (R13, R18, R100), and a command that does not store leaves all of memory as it
is. -/
def Obligations.CommandsStoreOnlyToElements : Prop :=
  (∀ (i : Instr) (s t : State) (a : Nat), exec i s = .next t → storageByte a = false →
    t.mem.get? a = s.mem.get? a ∧ t.mem.byte a = s.mem.byte a) ∧
    (∀ (i : Instr) (s t : State), exec i s = .next t → isStoring i = false → t.mem = s.mem) ∧
    storageByte 0x04000130 = false ∧ storageByte 0x04000131 = false ∧
    ∀ slot, slot < 128 →
      storageByte (0x07000000 + 8 * slot + 6) = false ∧ storageByte (0x07000000 + 8 * slot + 7) = false

/-! ### Region access -/

/-- The element address function and its bound (spec/20_memory.md R47). -/
def Obligations.IndexChecksTheCount : Prop :=
  ∀ (r : Region) (i : Nat) (s : State) (body : Nat → Result), s.faultCode = 0 →
    (i < regionCount r → elemAddr r i = regionBase r + i * regionStride r ∧
      withIndex r i s body = body (elemAddr r i)) ∧
    (regionCount r ≤ i → withIndex r i s body = .next (faulted .outOfRange s))

/-- The address of every element, by the region table's rows; elements do not overlap: a physical byte belongs
to at most one byte of one element of one region, and every element lies inside its region's declared size
(R11, R46; spec/90_conflicts.md C11). -/
def Obligations.RegionElementsDoNotOverlap : Prop :=
  (∀ i : Nat, elemAddr .dispcnt 0 = 0x04000000 ∧ elemAddr .keyinput 0 = 0x04000130 ∧
    elemAddr .backdrop 0 = 0x05000000 ∧ elemAddr .objpal i = 0x05000200 + 2 * i ∧
    elemAddr .objtile i = 0x06010000 + 32 * i ∧ elemAddr .oam i = 0x07000000 + 8 * i) ∧
    (∀ r : Region, regionElemSize r ≤ regionStride r ∧ regionCount r * regionStride r ≤ regionSize r) ∧
    ∀ (r r' : Region) (i i' j j' : Nat), i < regionCount r → i' < regionCount r' →
      j < regionElemSize r → j' < regionElemSize r' → elemAddr r i + j = elemAddr r' i' + j' →
      r = r' ∧ i = i' ∧ j = j'

/-- RGN.ADDR answers the address `base + i·stride`, exactly, below the count, and faults from the count on
(spec/40_region_access.md R101), with the id, base, count and stride of every row of the region table
(spec/10_state.md R11); a region id above 5 is an illegal command. -/
def Obligations.RgnAddrAnswersTheAddress : Prop :=
  ∀ (s : State) (i : Half), s.faultCode = 0 →
    (∀ a : Byte, 6 ≤ a.toNat → RaisesIllegal 0x10 a i [] s) ∧
    ∀ (r : Region) (id : Byte) (base count stride : Nat),
      (r, id, base, count, stride) ∈
        [(Region.dispcnt, (0 : Byte), 0x04000000, 1, 2), (Region.keyinput, 1, 0x04000130, 1, 2),
         (Region.backdrop, 2, 0x05000000, 1, 2), (Region.objpal, 3, 0x05000200, 256, 2),
         (Region.objtile, 4, 0x06010000, 1024, 32), (Region.oam, 5, 0x07000000, 128, 8)] →
      Encodes 0x10 id i [] (.rgnAddr r i) ∧
      (i.toNat < count → ∃ w : Word, w.toNat = base + i.toNat * stride ∧
        exec (.rgnAddr r i) s = .next { s with rsp := { status := .ok, words := [w] } :: s.rsp }) ∧
      (count ≤ i.toNat → exec (.rgnAddr r i) s = .next (faulted .outOfRange s))

/-- REG.RD answers DISPCNT or BACKDROP zero-extended, and for KEYINPUT the keys as they stand in bits 9 to 0
with zeros above bit 15; bits 15 to 10 are free. No other region can be read, and `v` is zero (R102). The
counter of draws may move (log 3). -/
def Obligations.RegRdReadsTheRegister : Prop :=
  ∀ s : State, s.faultCode = 0 →
    (Encodes 0x11 0 0 [] (.regRd .dispcnt) ∧ Encodes 0x11 1 0 [] (.regRd .keyinput) ∧
      Encodes 0x11 2 0 [] (.regRd .backdrop)) ∧
    exec (.regRd .dispcnt) s =
      .next { s with rsp := { status := .ok, words := [s.dispcnt.setWidth 32] } :: s.rsp } ∧
    exec (.regRd .backdrop) s =
      .next { s with rsp := { status := .ok, words := [s.backdrop.setWidth 32] } :: s.rsp } ∧
    (∃ (w : Word) (n : Nat), w.extractLsb' 0 10 = s.keyIn ∧ w.extractLsb' 16 16 = 0 ∧
      exec (.regRd .keyinput) s =
        .next { s with draws := n, rsp := { status := .ok, words := [w] } :: s.rsp }) ∧
    ∀ (a : Byte) (v : Half), 3 ≤ a.toNat ∨ v ≠ 0 → RaisesIllegal 0x11 a v [] s

/-- REG.WR stores the 16 bits to DISPCNT or BACKDROP as one store and changes nothing else; the write has
reached memory and not `VIS`, which takes it at the next vertical-blank event (R103). Every other selector is
an illegal command, KEYINPUT's among them (R104). -/
def Obligations.RegWrStoresTheRegister : Prop :=
  ∀ (s : State) (r : Region) (val : Half), s.faultCode = 0 →
    (Encodes 0x12 0 val [] (.regWr .dispcnt val) ∧ Encodes 0x12 2 val [] (.regWr .backdrop val)) ∧
    (r = .dispcnt ∨ r = .backdrop →
      ∃ t, exec (.regWr r val) s = .next t ∧ t.mem.half (elemAddr r 0) = val ∧
        SameMemoryOutside (elemAddr r 0) 2 s t ∧ SameRegisters s t ∧ AnsweredOk [] s t ∧
        NoOtherMoved s t ∧ t.vblankEvent.vis.half (elemAddr r 0) = val) ∧
    ∀ a : Byte, a ≠ 0 → a ≠ 2 → RaisesIllegal 0x12 a val [] s

/-- PAL.WR stores the 16 bits as given, bit 15 too, at element `i` of OBJPAL and changes nothing else
(R106). -/
def Obligations.PalWrStoresTheColour : Prop :=
  ∀ (s : State) (i : Byte) (c : Half), s.faultCode = 0 →
    Encodes 0x14 i c [] (.palWr i c) ∧
    ∃ t, exec (.palWr i c) s = .next t ∧ t.pal i.toNat = c ∧
      (∀ j, j < 256 → j ≠ i.toNat → t.pal j = s.pal j) ∧
      SameMemoryOutside (elemAddr .objpal i.toNat) 2 s t ∧ SameRegisters s t ∧ AnsweredOk [] s t ∧
      NoOtherMoved s t

/-- PAL.RD answers the colour zero-extended and changes nothing; it cannot be out of range (R105). -/
def Obligations.PalRdReadsTheColour : Prop :=
  ∀ (s : State) (i : Byte), s.faultCode = 0 →
    Encodes 0x13 i 0 [] (.palRd i) ∧ (∀ v : Half, v ≠ 0 → RaisesIllegal 0x13 i v [] s) ∧
    s.pal i.toNat = s.mem.half (0x05000200 + 2 * i.toNat) ∧
    exec (.palRd i) s =
      .next { s with rsp := { status := .ok, words := [(s.pal i.toNat).setWidth 32] } :: s.rsp }

/-! ### Tile engine -/

/-- `pack8` (spec/41_tile_engine.md R120): the word is the sum of `16^k · p_k`, and lane `k` holds pixel
`k`; a command handed a pixel above 15 faults before packing. -/
def Obligations.PackedWordHoldsPixelInLane : Prop :=
  (∀ px : List Byte, px.length = 8 → (∀ p ∈ px, p.toNat ≤ 15) →
    (packNibbles px).toNat = ((List.range 8).map fun k => 16 ^ k * (px.getD k 0).toNat).sum ∧
      ∀ k, k < 8 → ((packNibbles px).extractLsb' (4 * k) 4).toNat = (px.getD k 0).toNat) ∧
    ∀ (s : State) (t : Half) (px : List Byte), s.faultCode = 0 → (∃ p ∈ px, 15 < p.toNat) →
      (px.length = 8 → exec (.pack8 px) s = .next (faulted .formatError s)) ∧
      (px.length = 64 → t.toNat < 1024 → exec (.tileWrpx t px) s = .next (faulted .formatError s))

/-- `unpack8` is total, gives eight values in 0 to 15, lane by lane, and is the inverse of `pack8`
(R121). -/
def Obligations.UnpackInvertsPack : Prop :=
  (∀ w : Word, (unpackNibbles w).length = 8 ∧ (∀ p ∈ unpackNibbles w, p.toNat ≤ 15) ∧
    (∀ k, k < 8 → ((unpackNibbles w).getD k 0).toNat = (w.extractLsb' (4 * k) 4).toNat) ∧
    packNibbles (unpackNibbles w) = w) ∧
    ∀ px : List Byte, px.length = 8 → (∀ p ∈ px, p.toNat ≤ 15) → unpackNibbles (packNibbles px) = px

/-- `pack_tile` and `unpack_tile` row by row (R122), and their round trips (R123). -/
def Obligations.PackTileRoundTrips : Prop :=
  (∀ px : List Byte, px.length = 64 → (packTile px).length = 8 ∧ ∀ i, i < 8 →
    (packTile px).getD i 0 = packNibbles ((List.range 8).map fun k => px.getD (8 * i + k) 0)) ∧
    (∀ ws : List Word, ws.length = 8 → (unpackTile ws).length = 64 ∧ ∀ i k, i < 8 → k < 8 →
      ((unpackTile ws).getD (8 * i + k) 0).toNat = ((ws.getD i 0).extractLsb' (4 * k) 4).toNat) ∧
    (∀ px : List Byte, px.length = 64 → (∀ p ∈ px, p.toNat ≤ 15) → unpackTile (packTile px) = px) ∧
    ∀ ws : List Word, ws.length = 8 → packTile (unpackTile ws) = ws

/-- PACK8 takes pixel `j` from byte `j mod 4` of payload word `j/4`, answers the packed word and changes
nothing; a pixel byte above 15 is a `FormatError` (R124); a payload of another length than two words is an
illegal command (check (4) of R84; test vector T9). -/
def Obligations.PackCommandPacksEightPixels : Prop :=
  ∀ (s : State) (px : List Byte), s.faultCode = 0 →
    (∀ p q : Word, ∃ bytes : List Byte, Encodes 0x20 0 0 [p, q] (.pack8 bytes) ∧ bytes.length = 8 ∧
      ∀ j, j < 8 → bytes.getD j 0 = ([p, q].getD (j / 4) 0).extractLsb' (8 * (j % 4)) 8) ∧
    (px.length = 8 → (∀ p ∈ px, p.toNat ≤ 15) → ∃ w : Word,
      exec (.pack8 px) s = .next { s with rsp := { status := .ok, words := [w] } :: s.rsp } ∧
      ∀ k, k < 8 → (w.extractLsb' (4 * k) 4).toNat = (px.getD k 0).toNat) ∧
    (px.length = 8 → (∃ p ∈ px, 15 < p.toNat) → exec (.pack8 px) s = .next (faulted .formatError s)) ∧
    ∀ pl : List Word, pl.length ≠ 2 → RaisesIllegal 0x20 0 0 pl s

/-- UNPACK8 answers the eight lanes as pixel bytes in two words, byte `j` of a word its pixel, and changes
nothing (R125). -/
def Obligations.UnpackCommandAnswersPixelBytes : Prop :=
  ∀ (s : State) (w : Word), s.faultCode = 0 →
    Encodes 0x21 0 0 [w] (.unpack8 w) ∧
    ∃ lo hi : Word,
      exec (.unpack8 w) s = .next { s with rsp := { status := .ok, words := [lo, hi] } :: s.rsp } ∧
      ∀ j, j < 4 → (lo.extractLsb' (8 * j) 8).toNat = (w.extractLsb' (4 * j) 4).toNat ∧
        (hi.extractLsb' (8 * j) 8).toNat = (w.extractLsb' (16 + 4 * j) 4).toNat

/-- TILE.WRPX stores the 64 pixels, pixel `8·row + col` in lane `col` of row word `row`, and changes no
other byte; the index is checked before the pixels, both before the first store (R126). -/
def Obligations.TileWrpxStoresThePixels : Prop :=
  ∀ (s : State) (t : Half) (px : List Byte), s.faultCode = 0 → px.length = 64 →
    (∀ pl : List Word, pl.length = 16 → ∃ bytes : List Byte, Encodes 0x22 0 t pl (.tileWrpx t bytes) ∧
      bytes.length = 64 ∧
      ∀ j, j < 64 → bytes.getD j 0 = (pl.getD (j / 4) 0).extractLsb' (8 * (j % 4)) 8) ∧
    (t.toNat < 1024 → (∀ p ∈ px, p.toNat ≤ 15) → ∃ u, exec (.tileWrpx t px) s = .next u ∧
      (∀ row col, row < 8 → col < 8 →
        ((u.tilew (8 * t.toNat + row)).extractLsb' (4 * col) 4).toNat =
          (px.getD (8 * row + col) 0).toNat) ∧
      SameMemoryOutside (elemAddr .objtile t.toNat) 32 s u ∧ SameRegisters s u ∧ AnsweredOk [] s u ∧
      OthersMoved 8 s u) ∧
    (1024 ≤ t.toNat → exec (.tileWrpx t px) s = .next (faulted .outOfRange s)) ∧
    (t.toNat < 1024 → (∃ p ∈ px, 15 < p.toNat) →
      exec (.tileWrpx t px) s = .next (faulted .formatError s))

/-- TILE.RDW answers the eight row words, row 0 first; TILE.RDPX answers the 64 pixels as bytes, four a
word; neither changes anything (R129, R127). -/
def Obligations.TileReadsAnswerTheTile : Prop :=
  ∀ (s : State) (t : Half), s.faultCode = 0 →
    Encodes 0x25 0 t [] (.tileRdw t) ∧ Encodes 0x23 0 t [] (.tileRdpx t) ∧
    (t.toNat < 1024 →
      exec (.tileRdw t) s = .next { s with
        rsp := { status := .ok, words := (List.range 8).map fun r => s.tilew (8 * t.toNat + r) } :: s.rsp } ∧
      ∃ ws : List Word,
        exec (.tileRdpx t) s = .next { s with rsp := { status := .ok, words := ws } :: s.rsp } ∧
        ws.length = 16 ∧ ∀ row col, row < 8 → col < 8 →
          ((ws.getD (2 * row + col / 4) 0).extractLsb' (8 * (col % 4)) 8).toNat =
            ((s.tilew (8 * t.toNat + row)).extractLsb' (4 * col) 4).toNat) ∧
    (1024 ≤ t.toNat → exec (.tileRdw t) s = .next (faulted .outOfRange s) ∧
      exec (.tileRdpx t) s = .next (faulted .outOfRange s))

/-- TILE.WRW stores its eight words as the rows of the tile, whatever they hold, and changes no other byte
(R128). -/
def Obligations.TileWrwStoresTheRows : Prop :=
  ∀ (s : State) (t : Half) (ws : List Word), s.faultCode = 0 → ws.length = 8 →
    Encodes 0x24 0 t ws (.tileWrw t ws) ∧
    (t.toNat < 1024 → ∃ u, exec (.tileWrw t ws) s = .next u ∧
      (∀ row, row < 8 → u.tilew (8 * t.toNat + row) = ws.getD row 0) ∧
      SameMemoryOutside (elemAddr .objtile t.toNat) 32 s u ∧ SameRegisters s u ∧ AnsweredOk [] s u ∧
      OthersMoved 8 s u) ∧
    (1024 ≤ t.toNat → exec (.tileWrw t ws) s = .next (faulted .outOfRange s))

/-- After TILE.WRPX a TILE.RDPX of the same tile answers the same pixel bytes (R127; test vector S1). -/
def Obligations.PixelsWrittenAreReadBack : Prop :=
  ∀ (s u : State) (t : Half) (px : List Byte), s.faultCode = 0 → t.toNat < 1024 → px.length = 64 →
    (∀ p ∈ px, p.toNat ≤ 15) → exec (.tileWrpx t px) s = .next u →
    exec (.tileRdpx t) u =
      .next { u with rsp := { status := .ok, words := wordsOfBytes px } :: u.rsp }

/-! ### Tile mapper -/

/-- MAP.PX answers the tile index and the offset in the tile, exactly; a sheet of no width is a
`FormatError`, a column outside the sheet is out of range (spec/42_tile_mapper.md R143, R140). -/
def Obligations.MapPxAnswersTileAndOffset : Prop :=
  ∀ (s : State) (wt x y : Half), s.faultCode = 0 →
    Encodes 0x30 0 wt [pairWord y x] (.mapPx wt x y) ∧
    (wt ≠ 0 → x.toNat < 8 * wt.toNat → ∃ n o : Word,
      n.toNat = y.toNat / 8 * wt.toNat + x.toNat / 8 ∧ o.toNat = y.toNat % 8 * 8 + x.toNat % 8 ∧
      exec (.mapPx wt x y) s = .next { s with rsp := { status := .ok, words := [n, o] } :: s.rsp }) ∧
    (wt = 0 → exec (.mapPx wt x y) s = .next (faulted .formatError s)) ∧
    (wt ≠ 0 → 8 * wt.toNat ≤ x.toNat → exec (.mapPx wt x y) s = .next (faulted .outOfRange s))

/-- MAP.QUAD answers the four tiles of sprite cell `k`: with `h = W_t/2`, the cell at column `k mod h` and
row `k/h` of a grid of 2 by 2 tiles, top left, top right, bottom left, bottom right; an odd or zero width is
a `FormatError`, a high bit in the index word an illegal command (R144, R141). -/
def Obligations.MapQuadAnswersTheFourTiles : Prop :=
  ∀ (s : State) (wt k : Half), s.faultCode = 0 →
    Encodes 0x31 0 wt [pairWord 0 k] (.mapQuad wt k) ∧
    (∀ p : Word, 2 ^ 16 ≤ p.toNat → RaisesIllegal 0x31 0 wt [p] s) ∧
    (wt ≠ 0 → wt.toNat % 2 = 0 → ∃ a b c d : Word,
      a.toNat = 2 * (k.toNat / (wt.toNat / 2)) * wt.toNat + 2 * (k.toNat % (wt.toNat / 2)) ∧
      b.toNat = a.toNat + 1 ∧ c.toNat = a.toNat + wt.toNat ∧ d.toNat = a.toNat + wt.toNat + 1 ∧
      exec (.mapQuad wt k) s =
        .next { s with rsp := { status := .ok, words := [a, b, c, d] } :: s.rsp }) ∧
    (wt = 0 ∨ wt.toNat % 2 = 1 → exec (.mapQuad wt k) s = .next (faulted .formatError s))

/-- CMP.BITMAP on a legal bitmap that fits: pixel (x, y) lands in nibble `x mod 8` of row word `y mod 8` of
tile `(y/8)·(W/8) + x/8`, the four blob registers change together, the response is the blob, and nothing
else changes (R146, R142, R140). -/
def Obligations.CompiledBlobHoldsEveryPixel : Prop :=
  ∀ (s : State) (W H : Half) (px : List Word), s.faultCode = 0 → s.blob = [] →
    W ≠ 0 → H ≠ 0 → W.toNat % 8 = 0 → H.toNat % 8 = 0 →
    W.toNat * H.toNat / 8 ≤ s.params.blobMaxWords → px.length = W.toNat * H.toNat →
    (∀ w ∈ px, (channelOf s.params.indexChannel w).toNat ≤ 15) →
    ∃ blob : List Word,
      exec (.cmpBitmap (pairWord H W :: px)) s = .next { s with
        blob := blob, sheetWt := W / 8, sheetHt := H / 8,
        rsp := { status := .ok, words := blob } :: s.rsp } ∧
      blob.length = W.toNat * H.toNat / 8 ∧
      ∀ x y, x < W.toNat → y < H.toNat →
        ((blob.getD (8 * (y / 8 * (W.toNat / 8) + x / 8) + y % 8) 0).extractLsb' (4 * (x % 8)) 4).toNat =
          (channelOf s.params.indexChannel (px.getD (y * W.toNat + x) 0)).toNat

/-- The checks of CMP.BITMAP in their order, for every capacity and index channel (R146, R214; the arguments
are log 1): a later check is made only when the earlier ones pass. -/
def Obligations.CompileChecksInOrder : Prop :=
  ∀ (s : State) (W H : Half) (px : List Word), s.faultCode = 0 →
    let cap := s.params.blobMaxWords
    let run := exec (.cmpBitmap (pairWord H W :: px)) s
    exec (.cmpBitmap []) s = .next (faulted .illegalCommand s) ∧
    (s.blob ≠ [] → run = .next (faulted .blobLocked s)) ∧
    (s.blob = [] → W = 0 ∨ H = 0 ∨ W.toNat % 8 ≠ 0 ∨ H.toNat % 8 ≠ 0 →
      run = .next (faulted .formatError s)) ∧
    (s.blob = [] → W ≠ 0 → H ≠ 0 → W.toNat % 8 = 0 → H.toNat % 8 = 0 →
      (cap < W.toNat * H.toNat / 8 → run = .next (faulted .outOfRange s)) ∧
      (W.toNat * H.toNat / 8 ≤ cap → px.length ≠ W.toNat * H.toNat →
        run = .next (faulted .illegalCommand s)) ∧
      (W.toNat * H.toNat / 8 ≤ cap → px.length = W.toNat * H.toNat →
        (∃ w ∈ px, 15 < (channelOf s.params.indexChannel w).toNat) →
        run = .next (faulted .formatError s)))

/-- Channel `c` of a source pixel is bits `8c + 7` to `8c`; the three channels that do not hold the index are
discarded: bitmaps that agree on the index channel compile alike (R145). -/
def Obligations.OtherChannelsAreDiscarded : Prop :=
  (∀ (ch : BitVec 2) (w : Word), (channelOf ch w).toNat = w.toNat / 2 ^ (8 * ch.toNat) % 256) ∧
    ∀ (s : State) (dims : Word) (px px' : List Word),
      px.map (channelOf s.params.indexChannel) = px'.map (channelOf s.params.indexChannel) →
      exec (.cmpBitmap (dims :: px)) s = exec (.cmpBitmap (dims :: px')) s

/-- BLOB.RD answers the blob word and changes nothing; an index at or past the blob's length is out of
range, every index while there is no blob; no command writes a word of a blob (R147). -/
def Obligations.BlobRdReadsTheBlob : Prop :=
  ∀ (s : State) (j : Word), s.faultCode = 0 →
    Encodes 0x33 0 0 [j] (.blobRd j) ∧
    (j.toNat < s.blobLen → exec (.blobRd j) s =
      .next { s with rsp := { status := .ok, words := [s.blob.getD j.toNat 0] } :: s.rsp }) ∧
    (s.blobLen ≤ j.toNat → exec (.blobRd j) s = .next (faulted .outOfRange s)) ∧
    ∀ (i : Instr) (t : State), s.blob ≠ [] → exec i s = .next t → t.blob = s.blob

/-- TILE.LDB copies blob tile `src` to slot `dst`, row by row, and changes no other byte; an index past
either end is out of range and nothing is stored (R148). -/
def Obligations.TileLdbCopiesTheBlobTile : Prop :=
  ∀ (s : State) (dst : Half) (src : Word), s.faultCode = 0 →
    (src.toNat < s.blobLen / 8 → dst.toNat < 1024 → ∃ t, exec (.tileLdb dst src) s = .next t ∧
      (∀ r, r < 8 → t.tilew (8 * dst.toNat + r) = s.blob.getD (8 * src.toNat + r) 0) ∧
      SameMemoryOutside (elemAddr .objtile dst.toNat) 32 s t ∧ SameRegisters s t ∧ AnsweredOk [] s t ∧
      OthersMoved 8 s t) ∧
    (s.blobLen / 8 ≤ src.toNat ∨ 1024 ≤ dst.toNat →
      exec (.tileLdb dst src) s = .next (faulted .outOfRange s))

/-- SPR.LOAD16 copies the four tiles of sprite cell `k` of the sheet to slots `dst` to `dst + 3`, and
changes no other byte; its checks come in the order of R149, the first of them that there is a blob (test
vector B14), and all before the first store. The width is not zero in any state with a blob that the machine
reaches (log 16). -/
def Obligations.SprLoadCopiesTheQuad : Prop :=
  ∀ (s : State) (dst k : Half), s.faultCode = 0 →
    let wt := s.sheetWt.toNat
    let tl := 2 * (k.toNat / (wt / 2) * wt + k.toNat % (wt / 2))
    (s.blob = [] → exec (.sprLoad16 dst k) s = .next (faulted .outOfRange s)) ∧
    (s.blob ≠ [] → wt % 2 = 1 → exec (.sprLoad16 dst k) s = .next (faulted .formatError s)) ∧
    (s.blob ≠ [] → wt ≠ 0 → wt % 2 = 0 → s.blobLen / 8 ≤ tl + wt + 1 ∨ 1024 ≤ dst.toNat + 3 →
      exec (.sprLoad16 dst k) s = .next (faulted .outOfRange s)) ∧
    (s.blob ≠ [] → wt ≠ 0 → wt % 2 = 0 → tl + wt + 1 < s.blobLen / 8 → dst.toNat + 3 < 1024 →
      ∃ t, exec (.sprLoad16 dst k) s = .next t ∧
      (∀ j r, j < 4 → r < 8 → t.tilew (8 * (dst.toNat + j) + r) =
        s.blob.getD (8 * ([tl, tl + 1, tl + wt, tl + wt + 1].getD j 0) + r) 0) ∧
      SameMemoryOutside (elemAddr .objtile dst.toNat) 128 s t ∧ SameRegisters s t ∧ AnsweredOk [] s t ∧
      OthersMoved 32 s t)

/-! ### Descriptors and the sprite table -/

/-- The encode and decode functions of spec/43_sprite_descriptor.md R172, field by field; decode undoes
encode; encode undoes decode exactly when the bits without a field are zero; the zero descriptor has every
field zero. -/
def Obligations.DescriptorDecodeInvertsEncode : Prop :=
  (∀ f : DescFields, (encodeDesc f).w0.toNat = 2 ^ 14 * f.shape.toNat + f.y.toNat ∧
    (encodeDesc f).w1.toNat = 2 ^ 14 * f.size.toNat + f.x.toNat ∧
    (encodeDesc f).w2.toNat = 2 ^ 12 * f.palette.toNat + f.tile.toNat) ∧
    (∀ d : Desc, (decodeDesc d).shape.toNat = d.w0.toNat / 2 ^ 14 ∧
      (decodeDesc d).size.toNat = d.w1.toNat / 2 ^ 14 ∧ (decodeDesc d).tile.toNat = d.w2.toNat % 2 ^ 10 ∧
      (decodeDesc d).palette.toNat = d.w2.toNat / 2 ^ 12 ∧ (decodeDesc d).x.toNat = d.w1.toNat % 2 ^ 9 ∧
      (decodeDesc d).y.toNat = d.w0.toNat % 2 ^ 8) ∧
    (∀ f : DescFields, decodeDesc (encodeDesc f) = f) ∧
    (∀ d : Desc, encodeDesc (decodeDesc d) = d ↔ d.spareZero = true) ∧
    decodeDesc zeroDesc = { shape := 0, size := 0, tile := 0, palette := 0, x := 0, y := 0 } ∧
    encodeDesc { shape := 0, size := 0, tile := 0, palette := 0, x := 0, y := 0 } = zeroDesc

/-- The builder commands (R173 to R178): each replaces its own field of `desc`, keeps every other bit of
it, answers `OK` without words, and changes nothing else; DESC.NEW sets all of `desc` to zero; an operand too
large for its field is an illegal command. -/
def Obligations.BuilderCommandsReplaceOneField : Prop :=
  ∀ s : State, s.faultCode = 0 →
    Encodes 0x40 0 0 [] .descNew ∧
    exec .descNew s = .next { s with
      desc := { w0 := 0, w1 := 0, w2 := 0 }, rsp := { status := .ok, words := [] } :: s.rsp } ∧
    (∀ (shape size : BitVec 2) (tile : BitVec 10) (palette : BitVec 4) (x : BitVec 9) (y : BitVec 8),
      ∀ p ∈ [(Instr.descSize shape size, { decodeDesc s.desc with shape := shape, size := size }),
             (Instr.descTile tile, { decodeDesc s.desc with tile := tile }),
             (Instr.descPal palette, { decodeDesc s.desc with palette := palette }),
             (Instr.descX x, { decodeDesc s.desc with x := x }),
             (Instr.descY y, { decodeDesc s.desc with y := y })],
        ∃ d : Desc, exec p.1 s =
            .next { s with desc := d, rsp := { status := .ok, words := [] } :: s.rsp } ∧
          decodeDesc d = p.2 ∧ d.spare = s.desc.spare) ∧
    ∀ v : Half,
      (v.toNat ≤ 15 → Encodes 0x41 0 v [] (.descSize (v.extractLsb' 2 2) (v.extractLsb' 0 2)) ∧
        Encodes 0x43 0 v [] (.descPal (v.setWidth 4))) ∧
      (15 < v.toNat → RaisesIllegal 0x41 0 v [] s ∧ RaisesIllegal 0x43 0 v [] s) ∧
      (v.toNat ≤ 1023 → Encodes 0x42 0 v [] (.descTile (v.setWidth 10))) ∧
      (1023 < v.toNat → RaisesIllegal 0x42 0 v [] s) ∧
      (v.toNat ≤ 511 → Encodes 0x44 0 v [] (.descX (v.setWidth 9))) ∧
      (511 < v.toNat → RaisesIllegal 0x44 0 v [] s) ∧
      (v.toNat ≤ 255 → Encodes 0x45 0 v [] (.descY (v.setWidth 8))) ∧
      (255 < v.toNat → RaisesIllegal 0x45 0 v [] s)

/-- Order independence (R187): after DESC.NEW, two sequences of field commands with the same last operand
for each kind leave the same descriptor, and a kind never issued leaves its field zero. -/
def Obligations.BuilderOrderDoesNotMatter : Prop :=
  ∀ (ops ops' : List Instr) (s s' : State), s.faultCode = 0 → s'.faultCode = 0 →
    (∀ i ∈ ops, isFieldCommand i = true) → (∀ i ∈ ops', isFieldCommand i = true) →
    (∀ o, lastOf o ops = lastOf o ops') →
    ∃ t t', runInstrs (.descNew :: ops) s = .next t ∧ runInstrs (.descNew :: ops') s' = .next t' ∧
      t.desc = t'.desc ∧
      (lastOf .descSize ops = none →
        (decodeDesc t.desc).shape = 0 ∧ (decodeDesc t.desc).size = 0) ∧
      (lastOf .descTile ops = none → (decodeDesc t.desc).tile = 0) ∧
      (lastOf .descPal ops = none → (decodeDesc t.desc).palette = 0) ∧
      (lastOf .descX ops = none → (decodeDesc t.desc).x = 0) ∧
      (lastOf .descY ops = none → (decodeDesc t.desc).y = 0)

/-- DESC.RD answers the staging descriptor as a pair; DESC.DEC answers the six fields of its operand, each
zero-extended, in the order shape, size, tile, palette, x, y; neither changes anything; a high bit in the
second word of the pair is an illegal command (R179, R180). -/
def Obligations.DescReadsAnswerTheFields : Prop :=
  ∀ (s : State) (w0 w1 w2 : Half), s.faultCode = 0 →
    Encodes 0x46 0 0 [] .descRd ∧ Encodes 0x47 0 0 [pairWord w1 w0, pairWord 0 w2] (.descDec w0 w1 w2) ∧
    (∀ p q : Word, 2 ^ 16 ≤ q.toNat → RaisesIllegal 0x47 0 0 [p, q] s) ∧
    (∃ p q : Word,
      exec .descRd s = .next { s with rsp := { status := .ok, words := [p, q] } :: s.rsp } ∧
      lowHalf p = s.desc.w0 ∧ highHalf p = s.desc.w1 ∧ lowHalf q = s.desc.w2 ∧ highHalf q = 0) ∧
    ∃ a b c d e f : Word,
      exec (.descDec w0 w1 w2) s =
        .next { s with rsp := { status := .ok, words := [a, b, c, d, e, f] } :: s.rsp } ∧
      a.toNat = w0.toNat / 2 ^ 14 ∧ b.toNat = w1.toNat / 2 ^ 14 ∧ c.toNat = w2.toNat % 2 ^ 10 ∧
      d.toNat = w2.toNat / 2 ^ 12 ∧ e.toNat = w1.toNat % 2 ^ 9 ∧ f.toNat = w0.toNat % 2 ^ 8

/-- OAM.ALLOC stores `desc` in the slot the counter names, steps the counter, answers the slot, and changes
no other byte and no other register; with the counter at 128 or above it faults and stores nothing
(R181). -/
def Obligations.OamAllocStoresAtTheCounter : Prop :=
  ∀ s : State, s.faultCode = 0 →
    (s.allocCtr.toNat < 128 → ∃ t, exec .oamAlloc s = .next t ∧
      t.oam s.allocCtr.toNat = s.desc ∧ t.allocCtr.toNat = s.allocCtr.toNat + 1 ∧
      AnsweredOk [s.allocCtr.setWidth 32] s t ∧
      SameMemoryOutside (elemAddr .oam s.allocCtr.toNat) 6 s t ∧ t.desc = s.desc ∧ SameRest s t ∧
      NoOtherMoved s t) ∧
    (128 ≤ s.allocCtr.toNat → exec .oamAlloc s = .next (faulted .outOfRange s))

/-- `n` allocations from a counter of 0 occupy slots 0 to `n - 1` in order and leave the other slots alone;
after 128 of them the next one faults (R181; test vector S8). -/
def Obligations.AllocationsOccupySlotsInOrder : Prop :=
  ∀ (s : State) (n : Nat), s.faultCode = 0 → s.allocCtr = 0 → n ≤ 128 →
    ∃ t, runInstrs (List.replicate n .oamAlloc) s = .next t ∧ t.allocCtr.toNat = n ∧
      (∀ k, k < n → t.oam k = s.desc) ∧ (∀ k, n ≤ k → k < 128 → t.oam k = s.oam k) ∧
      t.rsp = (List.range n).reverse.map
        (fun k => { status := .ok, words := [BitVec.ofNat 32 k] }) ++ s.rsp ∧
      (n = 128 → exec .oamAlloc t = .next (faulted .outOfRange t))

/-- OAM.WR stores `desc` in the named slot as one element store and changes no other byte and no register;
a slot past 127 is out of range (R182). -/
def Obligations.OamWrStoresInTheSlot : Prop :=
  ∀ (s : State) (slot : Half), s.faultCode = 0 →
    Encodes 0x49 0 slot [] (.oamWr slot) ∧
    (slot.toNat < 128 → ∃ t, exec (.oamWr slot) s = .next t ∧ t.oam slot.toNat = s.desc ∧
      SameMemoryOutside (elemAddr .oam slot.toNat) 6 s t ∧ SameRegisters s t ∧ AnsweredOk [] s t ∧
      NoOtherMoved s t) ∧
    (128 ≤ slot.toNat → exec (.oamWr slot) s = .next (faulted .outOfRange s))

/-- OAM.RD answers a table entry as a descriptor pair and changes nothing; a slot past 127 is out of range
(R183). -/
def Obligations.OamRdReadsTheSlot : Prop :=
  ∀ (s : State) (slot : Half), s.faultCode = 0 →
    Encodes 0x4A 0 slot [] (.oamRd slot) ∧
    (slot.toNat < 128 → exec (.oamRd slot) s = .next { s with
      rsp := { status := .ok, words := [pairWord (s.oam slot.toNat).w1 (s.oam slot.toNat).w0,
        pairWord 0 (s.oam slot.toNat).w2] } :: s.rsp }) ∧
    (128 ≤ slot.toNat → exec (.oamRd slot) s = .next (faulted .outOfRange s))

/-- OAM.CLEAR zeroes all 128 entries and changes no byte outside them and no register (R184). -/
def Obligations.OamClearZeroesTheTable : Prop :=
  decode { cw := 0x4B000000, pl := [] } = .ok .oamClear ∧
    ∀ s : State, s.faultCode = 0 → ∃ t, exec .oamClear s = .next t ∧
      (∀ i, i < 128 → t.oam i = { w0 := 0, w1 := 0, w2 := 0 }) ∧
      (∀ a, inRegion .oam a = false → t.mem.byte a = s.mem.byte a) ∧ SameRegisters s t ∧
      AnsweredOk [] s t ∧ OthersMoved 128 s t

/-- FRAME.BEGIN zeroes the allocator's counter; under `every_frame` it also zeroes all 128 entries, under
`explicit_only` it leaves memory as it is; no other byte and no other register changes (R185). The machine's
own policy is open (log 1). -/
def Obligations.FrameBeginFollowsThePolicy : Prop :=
  decode { cw := 0x4C000000, pl := [] } = .ok .frameBegin ∧
    ∀ s : State, s.faultCode = 0 → ∃ t, exec .frameBegin s = .next t ∧
      t.allocCtr = 0 ∧ t.desc = s.desc ∧ SameRest s t ∧ AnsweredOk [] s t ∧
      (∀ a, inRegion .oam a = false → t.mem.byte a = s.mem.byte a) ∧
      (s.params.clearPolicy = .explicitOnly → t.mem = s.mem ∧ NoOtherMoved s t) ∧
      (s.params.clearPolicy = .everyFrame → (∀ i, i < 128 → t.oam i = { w0 := 0, w1 := 0, w2 := 0 }) ∧
        OthersMoved 128 s t)

/-! ### Status -/

/-- NOP answers `OK` without words and STAT.RD the three status words, halted or not, and neither changes
anything (spec/44_sync_status.md R200, R201). The third word is `blob_len` while that is below 2^32. -/
def Obligations.NopAndStatRdAlwaysAnswer : Prop :=
  ∀ s : State,
    Encodes 0x00 0 0 [] .nop ∧ Encodes 0x01 0 0 [] .statRd ∧
    (∀ (op a : Byte) (v : Half) (pl : List Word), op = 0x00 ∨ op = 0x01 → a ≠ 0 ∨ v ≠ 0 ∨ pl ≠ [] →
      (s.faultCode = 0 → RaisesIllegal op a v pl s) ∧
      (s.faultCode ≠ 0 → runCommand { cw := wordOf op a v, pl := pl } s = .next (turnedAway s))) ∧
    exec .nop s = .next { s with rsp := { status := .ok, words := [] } :: s.rsp } ∧
    ∃ s0 s1 s2 : Word,
      exec .statRd s = .next { s with rsp := { status := .ok, words := [s0, s1, s2] } :: s.rsp } ∧
      s0.extractLsb' 0 8 = s.allocCtr ∧ s0.extractLsb' 8 4 = s.faultCode ∧
      (s0.getLsbD 12 = true ↔ s.blobLen ≠ 0) ∧ s0.extractLsb' 13 19 = 0 ∧
      lowHalf s1 = s.sheetWt ∧ highHalf s1 = s.sheetHt ∧ (s.blobLen < 2 ^ 32 → s2.toNat = s.blobLen)
end

