-- ==== Sys2Proof/Laws/Bits.lean ====
section
/-! SUPPORT. Bit fields: an element is the concatenation of its parts, and a part is read out of a
concatenation. -/

namespace Sys2Proof

theorem half_of_bytes (v : Half) : v.extractLsb' 8 8 ++ v.extractLsb' 0 8 = v := by
  rw [BitVec.extractLsb'_append_extractLsb'_eq_extractLsb' (by omega)]
  simp

theorem word_of_bytes (v : Word) :
    v.extractLsb' 24 8 ++ v.extractLsb' 16 8 ++ v.extractLsb' 8 8 ++ v.extractLsb' 0 8 = v := by
  rw [BitVec.extractLsb'_append_extractLsb'_eq_extractLsb' (by omega),
    BitVec.extractLsb'_append_extractLsb'_eq_extractLsb' (by omega),
    BitVec.extractLsb'_append_extractLsb'_eq_extractLsb' (by omega)]
  simp

theorem pairWord_halves (w : Word) : pairWord (highHalf w) (lowHalf w) = w := by
  unfold pairWord highHalf lowHalf
  rw [BitVec.extractLsb'_append_extractLsb'_eq_extractLsb' (by omega)]
  simp

/-- The low part of a concatenation. -/
theorem extract_append_low {m n : Nat} (a : BitVec m) (b : BitVec n) :
    (a ++ b).extractLsb' 0 n = b := by
  apply BitVec.eq_of_getLsbD_eq
  intro i hi
  simp only [BitVec.getLsbD_extractLsb', BitVec.getLsbD_append, Nat.zero_add]
  simp [hi]

/-- The part of a concatenation that lies in its high operand. -/
theorem extract_append_high {m n : Nat} (a : BitVec m) (b : BitVec n) (k len : Nat) (h : n ≤ k) :
    (a ++ b).extractLsb' k len = a.extractLsb' (k - n) len := by
  apply BitVec.eq_of_getLsbD_eq
  intro i hi
  simp only [BitVec.getLsbD_extractLsb', BitVec.getLsbD_append]
  simp [show ¬k + i < n by omega, show k + i - n = k - n + i by omega]

/-- The part of a concatenation that lies in its low operand. -/
theorem extract_append_lower {m n : Nat} (a : BitVec m) (b : BitVec n) (k len : Nat)
    (h : k + len ≤ n) : (a ++ b).extractLsb' k len = b.extractLsb' k len := by
  apply BitVec.eq_of_getLsbD_eq
  intro i hi
  simp only [BitVec.getLsbD_extractLsb', BitVec.getLsbD_append]
  simp [show k + i < n by omega]

@[simp] theorem extract_full {n : Nat} (a : BitVec n) : a.extractLsb' 0 n = a := by
  apply BitVec.eq_of_getLsbD_eq
  intro i hi
  simp [hi]

@[simp] theorem lowHalf_pairWord (hi lo : Half) : lowHalf (pairWord hi lo) = lo :=
  extract_append_low hi lo

@[simp] theorem highHalf_pairWord (hi lo : Half) : highHalf (pairWord hi lo) = hi := by
  unfold highHalf pairWord
  rw [extract_append_high hi lo 16 16 (by omega)]
  exact extract_full hi

end Sys2Proof
end

