-- ==== Sys2Proof/Laws/Decode.lean ====
section
/-! SUPPORT. The fields of a built command, the opcode table, and the byte packings. -/

namespace Sys2Proof

@[simp] theorem mkCommand_op (o : Opcode) (a : Byte) (v : Half) (pl : List Word) :
    (mkCommand o a v pl).op = o.code := by
  unfold Command.op mkCommand
  simp only
  rw [extract_append_high _ _ 24 8 (by omega), extract_append_high _ _ _ _ (by omega)]
  exact extract_full _

@[simp] theorem mkCommand_a (o : Opcode) (a : Byte) (v : Half) (pl : List Word) :
    (mkCommand o a v pl).a = a := by
  unfold Command.a mkCommand
  simp only
  rw [extract_append_high _ _ 16 8 (by omega)]
  exact extract_append_low _ _

@[simp] theorem mkCommand_v (o : Opcode) (a : Byte) (v : Half) (pl : List Word) :
    (mkCommand o a v pl).v = v := extract_append_low _ _

@[simp] theorem mkCommand_pl (o : Opcode) (a : Byte) (v : Half) (pl : List Word) :
    (mkCommand o a v pl).pl = pl := rfl

/-- A command is its three fields and its payload. -/
theorem command_fields (c : Command) : c = { cw := c.op ++ c.a ++ c.v, pl := c.pl } := by
  obtain ⟨cw, pl⟩ := c
  congr 1
  simp only [Command.op, Command.a, Command.v]
  rw [BitVec.extractLsb'_append_extractLsb'_eq_extractLsb' (by omega),
    BitVec.extractLsb'_append_extractLsb'_eq_extractLsb' (by omega)]
  simp

/-- The opcode table maps each `op` value back to its opcode: no two rows share one. -/
@[simp] theorem ofCode_code (o : Opcode) : Opcode.ofCode o.code = some o := by cases o <;> decide

/-- An `op` value that the table maps is that opcode's. -/
theorem code_of_ofCode {b : Byte} {o : Opcode} (h : Opcode.ofCode b = some o) : o.code = b := by
  have := List.find?_some h
  simpa using this

@[simp] theorem ofId_id (r : Region) : Region.ofId r.id = some r := by cases r <;> decide

theorem id_of_ofId {a : Byte} {r : Region} (h : Region.ofId a = some r) : r.id = a := by
  unfold Region.ofId at h
  split_ifs at h <;> simp_all [Region.id] <;> subst h <;> rfl

/-! ### Byte packings -/

@[simp] theorem bytesOfWords_length (ws : List Word) : (bytesOfWords ws).length = 4 * ws.length := by
  induction ws with
  | nil => rfl
  | cons w ws ih => simp [bytesOfWords, bytesOfWord, ih]; omega

theorem wordsOfBytes_length (bs : List Byte) : (wordsOfBytes bs).length = bs.length / 4 := by
  induction bs using wordsOfBytes.induct with
  | case1 b0 b1 b2 b3 rest ih => simp only [wordsOfBytes, List.length_cons, ih]; omega
  | case2 bs h =>
    match bs, h with
    | [], _ => rfl
    | [_], _ => simp [wordsOfBytes]
    | [_, _], _ => simp [wordsOfBytes]
    | [_, _, _], _ => simp [wordsOfBytes]
    | b0 :: b1 :: b2 :: b3 :: rest, h => exact absurd rfl (h b0 b1 b2 b3 rest)

theorem bytesOfWord_join (b0 b1 b2 b3 : Byte) :
    bytesOfWord (b3 ++ b2 ++ b1 ++ b0) = [b0, b1, b2, b3] := by
  unfold bytesOfWord
  rw [extract_append_low, extract_append_high _ _ 8 8 (by omega), extract_append_low,
    extract_append_high _ _ 16 8 (by omega), extract_append_high _ _ _ _ (by omega), extract_append_low,
    extract_append_high _ _ 24 8 (by omega), extract_append_high _ _ _ _ (by omega),
    extract_append_high _ _ _ _ (by omega), extract_full]

/-- Words packed from whole groups of four bytes unpack to those bytes. -/
theorem bytesOfWords_wordsOfBytes (bs : List Byte) (h : bs.length % 4 = 0) :
    bytesOfWords (wordsOfBytes bs) = bs := by
  induction bs using wordsOfBytes.induct with
  | case1 b0 b1 b2 b3 rest ih =>
    rw [wordsOfBytes, bytesOfWords, bytesOfWord_join, ih (by simp only [List.length_cons] at h; omega)]
    rfl
  | case2 bs hb =>
    match bs, h, hb with
    | [], _, _ => rfl
    | b0 :: b1 :: b2 :: b3 :: rest, _, hb => exact absurd rfl (hb b0 b1 b2 b3 rest)

/-- Bytes unpacked from words pack back to those words. -/
theorem wordsOfBytes_bytesOfWords (ws : List Word) : wordsOfBytes (bytesOfWords ws) = ws := by
  induction ws with
  | nil => rfl
  | cons w ws ih =>
    simp only [bytesOfWords, bytesOfWord, List.cons_append, List.nil_append, wordsOfBytes, ih,
      word_of_bytes]

end Sys2Proof
end

