-- ==== Sys2Proof/Laws/Desc.lean ====
section
/-! SUPPORT. The builder keeps the bits of a descriptor that hold no field. -/

namespace Sys2Proof.Machine

theorem spareZero_iff (d : Desc) : d.spareZero = true ↔ d.spare = (0, 0, 0) := by
  simp [Desc.spareZero, Desc.spare, and_assoc]

/-- Bits of a half-word that a masked update does not write. -/
theorem extract_masked_or (w mask v : Half) (k len : Nat)
    (hm : ∀ i, i < len → mask.getLsbD (k + i) = true) (hv : ∀ i, i < len → v.getLsbD (k + i) = false) :
    ((w &&& mask) ||| v).extractLsb' k len = w.extractLsb' k len := by
  apply BitVec.eq_of_getLsbD_eq
  intro i hi
  simp [BitVec.getLsbD_extractLsb', hm i hi, hv i hi]

theorem getLsbD_field_low {n : Nat} (v : BitVec n) (i : Nat) (h : n ≤ i) :
    (v.setWidth 16).getLsbD i = false := by
  simp [h]

theorem getLsbD_field_high {n : Nat} (v : BitVec n) (k i : Nat) (h : i < k) :
    (v.setWidth 16 <<< k : Half).getLsbD i = false := by
  simp [h]

@[simp] theorem withSize_spare (d : Desc) (shape size : BitVec 2) :
    (d.withSize shape size).spare = d.spare := by
  simp only [Desc.spare, Desc.withSize]
  rw [extract_masked_or _ _ _ 8 6 (by decide) fun i hi => getLsbD_field_high _ _ _ (by omega),
    extract_masked_or _ _ _ 9 5 (by decide) fun i hi => getLsbD_field_high _ _ _ (by omega)]

@[simp] theorem withTile_spare (d : Desc) (tile : BitVec 10) : (d.withTile tile).spare = d.spare := by
  simp only [Desc.spare, Desc.withTile]
  rw [extract_masked_or _ _ _ 10 2 (by decide) fun i hi => getLsbD_field_low _ _ (by omega)]

@[simp] theorem withPalette_spare (d : Desc) (palette : BitVec 4) :
    (d.withPalette palette).spare = d.spare := by
  simp only [Desc.spare, Desc.withPalette]
  rw [extract_masked_or _ _ _ 10 2 (by decide) fun i hi => getLsbD_field_high _ _ _ (by omega)]

@[simp] theorem withX_spare (d : Desc) (x : BitVec 9) : (d.withX x).spare = d.spare := by
  simp only [Desc.spare, Desc.withX]
  rw [extract_masked_or _ _ _ 9 5 (by decide) fun i hi => getLsbD_field_low _ _ (by omega)]

@[simp] theorem withY_spare (d : Desc) (y : BitVec 8) : (d.withY y).spare = d.spare := by
  simp only [Desc.spare, Desc.withY]
  rw [extract_masked_or _ _ _ 8 6 (by decide) fun i hi => getLsbD_field_low _ _ (by omega)]

end Sys2Proof.Machine
end

