-- ==== Sys2Proof/Laws/Memory.lean ====
section
/-! SUPPORT. Memory: read after write, the canonical form, and what an element store leaves alone. -/

namespace Sys2Proof.Machine

/-! ### The list of bytes -/

theorem lookupCell_insertCell (a b : Nat) (v : Byte) (cs : List Host.Cell) :
    lookupCell a (insertCell b v cs) = if a = b then some v else lookupCell a cs := by
  induction cs with
  | nil => simp [insertCell, lookupCell]
  | cons c cs ih =>
    obtain ⟨k, w⟩ := c
    simp only [insertCell]
    by_cases hab : a = b
    · subst hab
      split_ifs <;> simp_all [lookupCell]
    · split_ifs <;> simp_all [lookupCell]

theorem mem_insertCell {a : Nat} {v : Byte} {cs : List Host.Cell} {c : Host.Cell}
    (h : c ∈ insertCell a v cs) : c = (a, v) ∨ c ∈ cs := by
  induction cs with
  | nil => simpa [insertCell] using h
  | cons d cs ih =>
    obtain ⟨k, w⟩ := d
    simp only [insertCell] at h
    split_ifs at h <;> simp only [List.mem_cons] at h ⊢ <;> tauto

theorem insertCell_sorted {a : Nat} {v : Byte} {cs : List Host.Cell}
    (h : cs.Pairwise fun c d => c.1 < d.1) :
    (insertCell a v cs).Pairwise fun c d => c.1 < d.1 := by
  induction cs with
  | nil => simp [insertCell]
  | cons d cs ih =>
    obtain ⟨k, w⟩ := d
    rw [List.pairwise_cons] at h
    simp only [insertCell]
    split_ifs with h1 h2
    · refine List.pairwise_cons.2 ⟨fun c hc => ?_, List.pairwise_cons.2 h⟩
      rcases List.mem_cons.1 hc with rfl | hc
      · exact h1
      · exact Nat.lt_trans h1 (h.1 c hc)
    · subst h2
      exact List.pairwise_cons.2 ⟨fun c hc => h.1 c hc, h.2⟩
    · refine List.pairwise_cons.2 ⟨fun c hc => ?_, ih h.2⟩
      rcases mem_insertCell hc with rfl | hc
      · simp only at *; omega
      · exact h.1 c hc

/-! ### Bytes -/

@[simp] theorem Memory.setByte_draw (m : Memory) (a : Nat) (v : Byte) : (m.setByte a v).draw = m.draw := rfl

theorem Memory.get?_setByte (m : Memory) (a b : Nat) (v : Byte) :
    (m.setByte b v).get? a = if a = b then some v else m.get? a :=
  lookupCell_insertCell a b v m.cells

theorem Memory.byte_setByte (m : Memory) (a b : Nat) (v : Byte) :
    (m.setByte b v).byte a = if a = b then v else m.byte a := by
  unfold Memory.byte
  rw [Memory.get?_setByte]
  split <;> rfl

/-- Two memories in canonical form that read the same are the same data. -/
theorem Memory.ext_get? {m n : Memory} (hm : m.wf) (hn : n.wf) (hd : m.draw = n.draw)
    (h : ∀ a, m.get? a = n.get? a) : m = n := by
  obtain ⟨dm, cm⟩ := m
  obtain ⟨dn, cn⟩ := n
  obtain ⟨hm, -⟩ := hm
  obtain ⟨hn, -⟩ := hn
  simp only at hd hm hn
  subst hd
  have below : ∀ (a : Nat) (cs : List Host.Cell), (∀ c ∈ cs, a < c.1) → lookupCell a cs = none := by
    intro a cs
    induction cs with
    | nil => intro _; rfl
    | cons c cs ih =>
      intro hc
      have := hc c (by simp)
      simp [lookupCell, Nat.ne_of_lt this, ih fun d hd => hc d (by simp [hd])]
  have key : ∀ (xs ys : List Host.Cell), xs.Pairwise (fun c d => c.1 < d.1) →
      ys.Pairwise (fun c d => c.1 < d.1) → (∀ a, lookupCell a xs = lookupCell a ys) → xs = ys := by
    intro xs
    induction xs with
    | nil =>
      intro ys _ _ h
      cases ys with
      | nil => rfl
      | cons y ys => have := h y.1; simp [lookupCell] at this
    | cons x xs ih =>
      intro ys hx hy h
      cases ys with
      | nil => have := h x.1; simp [lookupCell] at this
      | cons y ys =>
        rw [List.pairwise_cons] at hx hy
        have hk : x.1 = y.1 := by
          rcases Nat.lt_trichotomy x.1 y.1 with lt | eq | lt
          · have e := h x.1
            have n1 := below x.1 (y :: ys) (by
              intro c hc; rcases List.mem_cons.1 hc with rfl | hc
              · exact lt
              · exact Nat.lt_trans lt (hy.1 c hc))
            rw [n1] at e; simp [lookupCell] at e
          · exact eq
          · have e := h y.1
            have n1 := below y.1 (x :: xs) (by
              intro c hc; rcases List.mem_cons.1 hc with rfl | hc
              · exact lt
              · exact Nat.lt_trans lt (hx.1 c hc))
            rw [n1] at e; simp [lookupCell] at e
        have hv : x.2 = y.2 := by
          have e := h x.1
          simpa [lookupCell, hk] using e
        have hxy : x = y := Prod.ext hk hv
        subst hxy
        congr 1
        refine ih ys hx.2 hy.2 fun a => ?_
        by_cases ha : a = x.1
        · subst ha
          rw [below x.1 xs hx.1, below x.1 ys hy.1]
        · have e := h a
          simpa [lookupCell, ha] using e
  have := key cm cn hm hn h
  subst this
  rfl

/-! ### Elements -/

@[simp] theorem Memory.setHalf_draw (m : Memory) (a : Nat) (v : Half) : (m.setHalf a v).draw = m.draw := rfl
@[simp] theorem Memory.setWord_draw (m : Memory) (a : Nat) (v : Word) : (m.setWord a v).draw = m.draw := rfl
@[simp] theorem Memory.setDesc_draw (m : Memory) (a : Nat) (d : Desc) : (m.setDesc a d).draw = m.draw := rfl

@[simp] theorem Memory.store_draw (m : Memory) (e : ElemStore) : (m.store e).draw = m.draw := by
  cases e <;> rfl

@[simp] theorem Memory.storeAll_draw (m : Memory) (es : List ElemStore) :
    (m.storeAll es).draw = m.draw := by
  induction es generalizing m with
  | nil => rfl
  | cons e es ih => simp [Memory.storeAll, ih]

/-- A 16-bit element reads as what was stored in it. -/
theorem Memory.half_setHalf (m : Memory) (a : Nat) (v : Half) : (m.setHalf a v).half a = v := by
  simp only [Memory.half, Memory.setHalf, Memory.byte_setByte]
  rw [if_pos trivial, if_neg (show ¬a = a + 1 by omega), if_pos trivial]
  exact half_of_bytes v

/-- A tile word reads as what was stored in it. -/
theorem Memory.word_setWord (m : Memory) (a : Nat) (v : Word) : (m.setWord a v).word a = v := by
  simp only [Memory.word, Memory.setWord, Memory.byte_setByte]
  rw [if_pos trivial, if_neg (show ¬a + 2 = a + 3 by omega), if_pos trivial,
    if_neg (show ¬a + 1 = a + 3 by omega), if_neg (show ¬a + 1 = a + 2 by omega), if_pos trivial,
    if_neg (show ¬a = a + 3 by omega), if_neg (show ¬a = a + 2 by omega),
    if_neg (show ¬a = a + 1 by omega), if_pos trivial]
  exact word_of_bytes v

/-- A byte outside an element store reads as before; also what is listed there. -/
theorem Memory.get?_store_other (m : Memory) (e : ElemStore) (a : Nat)
    (h : a < e.addr ∨ e.addr + e.size ≤ a) : (m.store e).get? a = m.get? a := by
  cases e <;> simp only [ElemStore.addr, ElemStore.size] at h <;>
    simp only [Memory.store, Memory.setDesc, Memory.setHalf, Memory.setWord, Memory.get?_setByte] <;>
    repeat rw [if_neg (by omega)]

theorem Memory.byte_store_other (m : Memory) (e : ElemStore) (a : Nat)
    (h : a < e.addr ∨ e.addr + e.size ≤ a) : (m.store e).byte a = m.byte a := by
  unfold Memory.byte
  rw [Memory.get?_store_other m e a h, Memory.store_draw]

/-- A 16-bit element apart from the stored one reads as before. -/
theorem Memory.half_store_other (m : Memory) (e : ElemStore) (a : Nat)
    (h : a + 2 ≤ e.addr ∨ e.addr + e.size ≤ a) : (m.store e).half a = m.half a := by
  unfold Memory.half
  rw [Memory.byte_store_other m e a (by omega), Memory.byte_store_other m e (a + 1) (by omega)]

/-- A tile word apart from the stored element reads as before. -/
theorem Memory.word_store_other (m : Memory) (e : ElemStore) (a : Nat)
    (h : a + 4 ≤ e.addr ∨ e.addr + e.size ≤ a) : (m.store e).word a = m.word a := by
  unfold Memory.word
  rw [Memory.byte_store_other m e a (by omega), Memory.byte_store_other m e (a + 1) (by omega),
    Memory.byte_store_other m e (a + 2) (by omega), Memory.byte_store_other m e (a + 3) (by omega)]

/-- A table entry apart from the stored element reads as before. -/
theorem Memory.descAt_store_other (m : Memory) (e : ElemStore) (a : Nat)
    (h : a + 6 ≤ e.addr ∨ e.addr + e.size ≤ a) : (m.store e).descAt a = m.descAt a := by
  unfold Memory.descAt
  rw [Memory.half_store_other m e a (by omega), Memory.half_store_other m e (a + 2) (by omega),
    Memory.half_store_other m e (a + 4) (by omega)]

/-- A table entry reads as what was stored in it. -/
theorem Memory.descAt_setDesc (m : Memory) (a : Nat) (d : Desc) : (m.setDesc a d).descAt a = d := by
  have h0 : (m.setDesc a d).half a = d.w0 := by
    unfold Memory.setDesc
    have e1 := Memory.half_store_other ((m.setHalf a d.w0).setHalf (a + 2) d.w1) (.half (a + 4) d.w2) a
      (by simp only [ElemStore.addr]; omega)
    have e2 := Memory.half_store_other (m.setHalf a d.w0) (.half (a + 2) d.w1) a
      (by simp only [ElemStore.addr]; omega)
    simp only [Memory.store] at e1 e2
    rw [e1, e2, Memory.half_setHalf]
  have h1 : (m.setDesc a d).half (a + 2) = d.w1 := by
    unfold Memory.setDesc
    have e1 := Memory.half_store_other ((m.setHalf a d.w0).setHalf (a + 2) d.w1) (.half (a + 4) d.w2)
      (a + 2) (by simp only [ElemStore.addr]; omega)
    simp only [Memory.store] at e1
    rw [e1, Memory.half_setHalf]
  have h2 : (m.setDesc a d).half (a + 4) = d.w2 := by
    unfold Memory.setDesc
    rw [Memory.half_setHalf]
  unfold Memory.descAt
  rw [h0, h1, h2]

/-! ### The canonical form -/

/-- Writing a byte that can be stored to keeps the canonical form. -/
theorem Memory.setByte_wf {m : Memory} (h : m.wf) {a : Nat} (ha : storageByte a = true) (v : Byte) :
    (m.setByte a v).wf := by
  refine ⟨insertCell_sorted h.1, fun c hc => ?_⟩
  rcases mem_insertCell hc with rfl | hc
  · exact ha
  · exact h.2 c hc

end Sys2Proof.Machine
end

