-- ==== Sys2Proof/Laws/Regions.lean ====
section
/-! SUPPORT. The address map: every element the index function reaches lies in its region, so every access a
command makes is one spec/20_memory.md R42 defines, and every store keeps the canonical form. -/

namespace Sys2Proof.Machine

/-- What the index function can answer: the address `base + i·stride` of an element below the count. -/
theorem regionIndex_some {r : Region} {i a : Nat} (h : regionIndex r i = some a) :
    i < regionCount r ∧ a = elemAddr r i := by
  unfold regionIndex at h
  split at h
  · exact ⟨‹_›, by simpa using h.symm⟩
  · cases h

theorem regionIndex_of_lt {r : Region} {i : Nat} (h : i < regionCount r) :
    regionIndex r i = some (elemAddr r i) := if_pos h

theorem regionIndex_of_ge {r : Region} {i : Nat} (h : regionCount r ≤ i) : regionIndex r i = none :=
  if_neg (Nat.not_lt.2 h)

theorem inRegion_iff {r : Region} {a : Nat} : inRegion r a = true ↔
    regionBase r ≤ a ∧ (a - regionBase r) / regionStride r < regionCount r ∧
      (a - regionBase r) % regionStride r < regionElemSize r := by
  simp [inRegion, and_assoc]

theorem elemSize_le_stride (r : Region) : regionElemSize r ≤ regionStride r := by cases r <;> decide

/-- A byte of an element lies in its region. -/
theorem inRegion_elem {r : Region} {i j : Nat} (hi : i < regionCount r) (hj : j < regionElemSize r) :
    inRegion r (elemAddr r i + j) = true := by
  have hs : j < regionStride r := Nat.lt_of_lt_of_le hj (elemSize_le_stride r)
  have e : elemAddr r i + j - regionBase r = j + i * regionStride r := by unfold elemAddr; omega
  refine inRegion_iff.2 ⟨by unfold elemAddr; omega, ?_, ?_⟩
  · rw [e, Nat.add_mul_div_right _ _ (by omega), Nat.div_eq_of_lt hs]
    omega
  · rw [e, Nat.add_mul_mod_self_right, Nat.mod_eq_of_lt hs]
    exact hj

theorem halfMapped_palette {i : Nat} (hi : i < 256) : halfMapped (elemAddr .objpal i) = true := by
  have h : inRegion .objpal (elemAddr .objpal i) = true :=
    inRegion_elem (r := .objpal) (j := 0) hi (by decide)
  have : elemAddr .objpal i % 2 = 0 := by simp only [elemAddr, regionBase, regionStride]; omega
  simp [halfMapped, h, this]

theorem descMapped_slot {i : Nat} (hi : i < 128) : descMapped (elemAddr .oam i) = true := by
  have h : inRegion .oam (elemAddr .oam i) = true := inRegion_elem (r := .oam) (j := 0) hi (by decide)
  have : elemAddr .oam i % 8 = 0 := by simp only [elemAddr, regionBase, regionStride]; omega
  simp [descMapped, h, this]

theorem wordMapped_row {t k : Nat} (ht : t < 1024) (hk : k < 8) :
    wordMapped (elemAddr .objtile t + 4 * k) = true := by
  have h : inRegion .objtile (elemAddr .objtile t + 4 * k) = true :=
    inRegion_elem (r := .objtile) ht (by simp only [regionElemSize]; omega)
  have : (elemAddr .objtile t + 4 * k) % 4 = 0 := by
    simp only [elemAddr, regionBase, regionStride]; omega
  simp [wordMapped, h, this]

/-- The bytes of a mapped element store are bytes that can be stored to. -/
theorem storageByte_of_mapped {e : ElemStore} (h : e.mapped = true) {j : Nat} (hj : j < e.size) :
    storageByte (e.addr + j) = true := by
  have up : ∀ (r : Region) (a : Nat), inRegion r a = true →
      (a - regionBase r) % regionStride r + j < regionElemSize r → inRegion r (a + j) = true := by
    intro r a ha hr
    obtain ⟨h1, h2, -⟩ := inRegion_iff.1 ha
    have e : a + j = elemAddr r ((a - regionBase r) / regionStride r) +
        ((a - regionBase r) % regionStride r + j) := by
      have := Nat.div_add_mod (a - regionBase r) (regionStride r)
      rw [Nat.mul_comm] at this
      unfold elemAddr
      omega
    rw [e]
    exact inRegion_elem h2 hr
  cases e with
  | half a v =>
    simp only [ElemStore.mapped, halfMapped, Bool.and_eq_true, Bool.or_eq_true,
      decide_eq_true_eq] at h
    change j < 2 at hj
    obtain ⟨((h | h) | h) | h, h2⟩ := h
    · simp [storageByte, ElemStore.addr, up _ _ h (by
        simp only [regionBase, regionStride, regionElemSize] at *; omega)]
    · simp [storageByte, ElemStore.addr, up _ _ h (by
        simp only [regionBase, regionStride, regionElemSize] at *; omega)]
    · simp [storageByte, ElemStore.addr, up _ _ h (by
        simp only [regionBase, regionStride, regionElemSize] at *; omega)]
    · have hr := (inRegion_iff.1 h).2.2
      simp [storageByte, ElemStore.addr, up _ _ h (by
        simp only [regionBase, regionStride, regionElemSize] at *; omega)]
  | word a v =>
    simp only [ElemStore.mapped, wordMapped, Bool.and_eq_true, decide_eq_true_eq] at h
    change j < 4 at hj
    simp [storageByte, ElemStore.addr, up _ _ h.1 (by
      simp only [regionBase, regionStride, regionElemSize] at *; omega)]
  | desc a d =>
    simp only [ElemStore.mapped, descMapped, Bool.and_eq_true, decide_eq_true_eq] at h
    change j < 6 at hj
    simp [storageByte, ElemStore.addr, up _ _ h.1 (by
      simp only [regionBase, regionStride, regionElemSize] at *; omega)]

/-- A mapped element store keeps the canonical form. -/
theorem Memory.store_wf {m : Memory} (h : m.wf) {e : ElemStore} (he : e.mapped = true) :
    (m.store e).wf := by
  have b : ∀ j, j < e.size → storageByte (e.addr + j) = true := fun j hj => storageByte_of_mapped he hj
  cases e with
  | half a v =>
    exact Memory.setByte_wf (Memory.setByte_wf h (b 0 (by simp [ElemStore.size])) _) (b 1 (by simp [ElemStore.size])) _
  | word a v =>
    exact Memory.setByte_wf (Memory.setByte_wf (Memory.setByte_wf (Memory.setByte_wf h
      (b 0 (by simp [ElemStore.size])) _) (b 1 (by simp [ElemStore.size])) _) (b 2 (by simp [ElemStore.size])) _) (b 3 (by simp [ElemStore.size])) _
  | desc a d =>
    exact Memory.setByte_wf (Memory.setByte_wf (Memory.setByte_wf (Memory.setByte_wf
      (Memory.setByte_wf (Memory.setByte_wf h (b 0 (by simp [ElemStore.size])) _) (b 1 (by simp [ElemStore.size])) _)
      (b 2 (by simp [ElemStore.size])) _) (b 3 (by simp [ElemStore.size])) _) (b 4 (by simp [ElemStore.size])) _) (b 5 (by simp [ElemStore.size])) _

/-- A list of mapped element stores keeps the canonical form. -/
theorem Memory.storeAll_wf {m : Memory} (h : m.wf) {es : List ElemStore}
    (he : ∀ e ∈ es, e.mapped = true) : (m.storeAll es).wf := by
  induction es generalizing m with
  | nil => exact h
  | cons e es ih =>
    exact ih (Memory.store_wf h (he e (by simp))) fun d hd => he d (by simp [hd])

/-! ### Lists of element stores -/

theorem Memory.storeAll_append (m : Memory) (es fs : List ElemStore) :
    m.storeAll (es ++ fs) = (m.storeAll es).storeAll fs := by
  induction es generalizing m with
  | nil => rfl
  | cons e es ih => simp [Memory.storeAll, ih]

/-- What is listed at a byte outside every store of a list stays. -/
theorem Memory.get?_storeAll_other (m : Memory) (es : List ElemStore) (a : Nat)
    (h : ∀ e ∈ es, a < e.addr ∨ e.addr + e.size ≤ a) : (m.storeAll es).get? a = m.get? a := by
  induction es generalizing m with
  | nil => rfl
  | cons e es ih =>
    rw [Memory.storeAll, ih _ fun d hd => h d (by simp [hd])]
    exact Memory.get?_store_other m e a (h e (by simp))

theorem Memory.byte_storeAll_other (m : Memory) (es : List ElemStore) (a : Nat)
    (h : ∀ e ∈ es, a < e.addr ∨ e.addr + e.size ≤ a) : (m.storeAll es).byte a = m.byte a := by
  unfold Memory.byte
  rw [Memory.get?_storeAll_other m es a h, Memory.storeAll_draw]

/-- Bytes no command can store to stay as they are under mapped stores. -/
theorem Memory.get?_storeAll_unmapped (m : Memory) (es : List ElemStore) (a : Nat)
    (he : ∀ e ∈ es, e.mapped = true) (ha : storageByte a = false) :
    (m.storeAll es).get? a = m.get? a := by
  refine Memory.get?_storeAll_other m es a fun e hm => ?_
  by_contra hc
  have := storageByte_of_mapped (he e hm) (j := a - e.addr) (by omega)
  rw [show e.addr + (a - e.addr) = a by omega, ha] at this
  cases this

theorem wordStores_addr {a : Nat} {ws : List Word} {e : ElemStore} (h : e ∈ wordStores a ws) :
    ∃ k, k < ws.length ∧ e.addr = a + 4 * k ∧ e.size = 4 ∧ ∃ w, e = .word (a + 4 * k) w := by
  induction ws generalizing a with
  | nil => cases h
  | cons w ws ih =>
    rcases List.mem_cons.1 h with rfl | h
    · exact ⟨0, by simp, rfl, rfl, w, rfl⟩
    · obtain ⟨k, hk, h1, h2, v, hv⟩ := ih h
      refine ⟨k + 1, by simpa using hk, by omega, h2, v, ?_⟩
      rw [hv]; congr 1; omega

/-- The rows of a tile slot are mapped. -/
theorem wordStores_mapped {t : Nat} (ht : t < 1024) {ws : List Word} (hw : ws.length ≤ 8) :
    ∀ e ∈ wordStores (elemAddr .objtile t) ws, e.mapped = true := by
  intro e he
  obtain ⟨k, hk, -, -, w, rfl⟩ := wordStores_addr he
  exact wordMapped_row ht (by omega)

/-- Words stored at ascending addresses read back in order. -/
theorem Memory.word_storeAll_wordStores (m : Memory) (a : Nat) (ws : List Word) (k : Nat)
    (hk : k < ws.length) : (m.storeAll (wordStores a ws)).word (a + 4 * k) = ws[k] := by
  induction ws generalizing m a k with
  | nil => cases hk
  | cons w ws ih =>
    cases k with
    | zero =>
      have other : ∀ (es : List ElemStore) (n : Memory),
          (∀ e ∈ es, a + 4 ≤ e.addr) → (n.storeAll es).word a = n.word a := by
        intro es
        induction es with
        | nil => intros; rfl
        | cons e es ih =>
          intro n h
          rw [Memory.storeAll, ih _ fun d hd => h d (by simp [hd])]
          exact Memory.word_store_other n e a (Or.inl (h e (by simp)))
      have := other (wordStores (a + 4) ws) (m.setWord a w) fun e he => by
        obtain ⟨j, -, h1, -⟩ := wordStores_addr he
        omega
      simpa [wordStores, Memory.storeAll, Memory.store, Memory.word_setWord] using this
    | succ k =>
      have := ih (m.store (.word a w)) (a + 4) k (by simpa using hk)
      simpa [wordStores, Memory.storeAll, show a + 4 * (k + 1) = a + 4 + 4 * k by omega] using this

theorem zeroSlots_mem {i n : Nat} {e : ElemStore} (h : e ∈ zeroSlots i n) :
    ∃ k, i ≤ k ∧ k < i + n ∧ e = .desc (elemAddr .oam k) { w0 := 0, w1 := 0, w2 := 0 } := by
  induction n generalizing i with
  | zero => cases h
  | succ n ih =>
    rcases List.mem_cons.1 h with rfl | h
    · exact ⟨i, by omega, by omega, rfl⟩
    · obtain ⟨k, h1, h2, h3⟩ := ih h
      exact ⟨k, by omega, by omega, h3⟩

/-- The full-table clear stores to mapped slots only. -/
theorem clearStores_mapped : ∀ e ∈ clearStores, e.mapped = true := by
  intro e he
  obtain ⟨k, -, h, rfl⟩ := zeroSlots_mem he
  exact descMapped_slot (by simpa [regionCount] using h)

end Sys2Proof.Machine
end

