-- ==== Sys2Proof/Laws/State.lean ====
section
/-! SUPPORT. One lemma per field per update of `State`, so that no later proof unfolds a record update. -/

namespace Sys2Proof.Machine

/-! ### `respond` -/

@[simp] theorem State.respond_mem (s : State) (st : Status) (ws : List Word) : (s.respond st ws).mem = s.mem := rfl
@[simp] theorem State.respond_vis (s : State) (st : Status) (ws : List Word) : (s.respond st ws).vis = s.vis := rfl
@[simp] theorem State.respond_frames (s : State) (st : Status) (ws : List Word) : (s.respond st ws).frames = s.frames := rfl
@[simp] theorem State.respond_desc (s : State) (st : Status) (ws : List Word) : (s.respond st ws).desc = s.desc := rfl
@[simp] theorem State.respond_allocCtr (s : State) (st : Status) (ws : List Word) : (s.respond st ws).allocCtr = s.allocCtr := rfl
@[simp] theorem State.respond_faultCode (s : State) (st : Status) (ws : List Word) : (s.respond st ws).faultCode = s.faultCode := rfl
@[simp] theorem State.respond_blob (s : State) (st : Status) (ws : List Word) : (s.respond st ws).blob = s.blob := rfl
@[simp] theorem State.respond_sheetWt (s : State) (st : Status) (ws : List Word) : (s.respond st ws).sheetWt = s.sheetWt := rfl
@[simp] theorem State.respond_sheetHt (s : State) (st : Status) (ws : List Word) : (s.respond st ws).sheetHt = s.sheetHt := rfl
@[simp] theorem State.respond_waiting (s : State) (st : Status) (ws : List Word) : (s.respond st ws).waiting = s.waiting := rfl
@[simp] theorem State.respond_rsp (s : State) (st : Status) (ws : List Word) : (s.respond st ws).rsp = { status := st, words := ws } :: s.rsp := rfl
@[simp] theorem State.respond_cmds (s : State) (st : Status) (ws : List Word) : (s.respond st ws).cmds = s.cmds := rfl
@[simp] theorem State.respond_agenda (s : State) (st : Status) (ws : List Word) : (s.respond st ws).agenda = s.agenda := rfl
@[simp] theorem State.respond_keyIn (s : State) (st : Status) (ws : List Word) : (s.respond st ws).keyIn = s.keyIn := rfl
@[simp] theorem State.respond_draws (s : State) (st : Status) (ws : List Word) : (s.respond st ws).draws = s.draws := rfl
@[simp] theorem State.respond_params (s : State) (st : Status) (ws : List Word) : (s.respond st ws).params = s.params := rfl

/-! ### `raise` -/

@[simp] theorem State.raise_mem (s : State) (k : FaultKind) : (s.raise k).mem = s.mem := rfl
@[simp] theorem State.raise_vis (s : State) (k : FaultKind) : (s.raise k).vis = s.vis := rfl
@[simp] theorem State.raise_frames (s : State) (k : FaultKind) : (s.raise k).frames = s.frames := rfl
@[simp] theorem State.raise_desc (s : State) (k : FaultKind) : (s.raise k).desc = s.desc := rfl
@[simp] theorem State.raise_allocCtr (s : State) (k : FaultKind) : (s.raise k).allocCtr = s.allocCtr := rfl
@[simp] theorem State.raise_faultCode (s : State) (k : FaultKind) : (s.raise k).faultCode = stickyCode s.faultCode k.code := rfl
@[simp] theorem State.raise_blob (s : State) (k : FaultKind) : (s.raise k).blob = s.blob := rfl
@[simp] theorem State.raise_sheetWt (s : State) (k : FaultKind) : (s.raise k).sheetWt = s.sheetWt := rfl
@[simp] theorem State.raise_sheetHt (s : State) (k : FaultKind) : (s.raise k).sheetHt = s.sheetHt := rfl
@[simp] theorem State.raise_waiting (s : State) (k : FaultKind) : (s.raise k).waiting = s.waiting := rfl
@[simp] theorem State.raise_rsp (s : State) (k : FaultKind) : (s.raise k).rsp = { status := k.status, words := [] } :: s.rsp := rfl
@[simp] theorem State.raise_cmds (s : State) (k : FaultKind) : (s.raise k).cmds = s.cmds := rfl
@[simp] theorem State.raise_agenda (s : State) (k : FaultKind) : (s.raise k).agenda = s.agenda := rfl
@[simp] theorem State.raise_keyIn (s : State) (k : FaultKind) : (s.raise k).keyIn = s.keyIn := rfl
@[simp] theorem State.raise_draws (s : State) (k : FaultKind) : (s.raise k).draws = s.draws := rfl
@[simp] theorem State.raise_params (s : State) (k : FaultKind) : (s.raise k).params = s.params := rfl

/-! ### `storeElem` -/

@[simp] theorem State.storeElem_mem (s : State) (e : ElemStore) : (s.storeElem e).mem = s.mem.store e := rfl
@[simp] theorem State.storeElem_vis (s : State) (e : ElemStore) : (s.storeElem e).vis = s.vis := rfl
@[simp] theorem State.storeElem_frames (s : State) (e : ElemStore) : (s.storeElem e).frames = s.frames := rfl
@[simp] theorem State.storeElem_desc (s : State) (e : ElemStore) : (s.storeElem e).desc = s.desc := rfl
@[simp] theorem State.storeElem_allocCtr (s : State) (e : ElemStore) : (s.storeElem e).allocCtr = s.allocCtr := rfl
@[simp] theorem State.storeElem_faultCode (s : State) (e : ElemStore) : (s.storeElem e).faultCode = s.faultCode := rfl
@[simp] theorem State.storeElem_blob (s : State) (e : ElemStore) : (s.storeElem e).blob = s.blob := rfl
@[simp] theorem State.storeElem_sheetWt (s : State) (e : ElemStore) : (s.storeElem e).sheetWt = s.sheetWt := rfl
@[simp] theorem State.storeElem_sheetHt (s : State) (e : ElemStore) : (s.storeElem e).sheetHt = s.sheetHt := rfl
@[simp] theorem State.storeElem_waiting (s : State) (e : ElemStore) : (s.storeElem e).waiting = s.waiting := rfl
@[simp] theorem State.storeElem_rsp (s : State) (e : ElemStore) : (s.storeElem e).rsp = s.rsp := rfl
@[simp] theorem State.storeElem_cmds (s : State) (e : ElemStore) : (s.storeElem e).cmds = s.cmds := rfl
@[simp] theorem State.storeElem_agenda (s : State) (e : ElemStore) : (s.storeElem e).agenda = s.agenda := rfl
@[simp] theorem State.storeElem_keyIn (s : State) (e : ElemStore) : (s.storeElem e).keyIn = s.keyIn := rfl
@[simp] theorem State.storeElem_draws (s : State) (e : ElemStore) : (s.storeElem e).draws = s.draws := rfl
@[simp] theorem State.storeElem_params (s : State) (e : ElemStore) : (s.storeElem e).params = s.params := rfl

/-! ### `latch` -/

@[simp] theorem State.latch_mem (s : State) : (s.latch).mem = s.mem := rfl
@[simp] theorem State.latch_vis (s : State) : (s.latch).vis = s.mem := rfl
@[simp] theorem State.latch_frames (s : State) : (s.latch).frames = s.mem :: s.frames := rfl
@[simp] theorem State.latch_desc (s : State) : (s.latch).desc = s.desc := rfl
@[simp] theorem State.latch_allocCtr (s : State) : (s.latch).allocCtr = s.allocCtr := rfl
@[simp] theorem State.latch_faultCode (s : State) : (s.latch).faultCode = s.faultCode := rfl
@[simp] theorem State.latch_blob (s : State) : (s.latch).blob = s.blob := rfl
@[simp] theorem State.latch_sheetWt (s : State) : (s.latch).sheetWt = s.sheetWt := rfl
@[simp] theorem State.latch_sheetHt (s : State) : (s.latch).sheetHt = s.sheetHt := rfl
@[simp] theorem State.latch_waiting (s : State) : (s.latch).waiting = s.waiting := rfl
@[simp] theorem State.latch_rsp (s : State) : (s.latch).rsp = s.rsp := rfl
@[simp] theorem State.latch_cmds (s : State) : (s.latch).cmds = s.cmds := rfl
@[simp] theorem State.latch_agenda (s : State) : (s.latch).agenda = s.agenda := rfl
@[simp] theorem State.latch_keyIn (s : State) : (s.latch).keyIn = s.keyIn := rfl
@[simp] theorem State.latch_draws (s : State) : (s.latch).draws = s.draws := rfl
@[simp] theorem State.latch_params (s : State) : (s.latch).params = s.params := rfl

/-! ### `passGap`, `instant` and `passAll`: all but `vis`, `frames`, `keyIn` and the agenda -/

@[simp] theorem passGap_mem (ms : List Move) (s : State) : (passGap ms s).mem = s.mem := by
  induction ms generalizing s with
  | nil => rfl
  | cons m ms ih => cases m <;> simp [passGap, ih]
@[simp] theorem passGap_desc (ms : List Move) (s : State) : (passGap ms s).desc = s.desc := by
  induction ms generalizing s with
  | nil => rfl
  | cons m ms ih => cases m <;> simp [passGap, ih]
@[simp] theorem passGap_allocCtr (ms : List Move) (s : State) : (passGap ms s).allocCtr = s.allocCtr := by
  induction ms generalizing s with
  | nil => rfl
  | cons m ms ih => cases m <;> simp [passGap, ih]
@[simp] theorem passGap_faultCode (ms : List Move) (s : State) : (passGap ms s).faultCode = s.faultCode := by
  induction ms generalizing s with
  | nil => rfl
  | cons m ms ih => cases m <;> simp [passGap, ih]
@[simp] theorem passGap_blob (ms : List Move) (s : State) : (passGap ms s).blob = s.blob := by
  induction ms generalizing s with
  | nil => rfl
  | cons m ms ih => cases m <;> simp [passGap, ih]
@[simp] theorem passGap_sheetWt (ms : List Move) (s : State) : (passGap ms s).sheetWt = s.sheetWt := by
  induction ms generalizing s with
  | nil => rfl
  | cons m ms ih => cases m <;> simp [passGap, ih]
@[simp] theorem passGap_sheetHt (ms : List Move) (s : State) : (passGap ms s).sheetHt = s.sheetHt := by
  induction ms generalizing s with
  | nil => rfl
  | cons m ms ih => cases m <;> simp [passGap, ih]
@[simp] theorem passGap_waiting (ms : List Move) (s : State) : (passGap ms s).waiting = s.waiting := by
  induction ms generalizing s with
  | nil => rfl
  | cons m ms ih => cases m <;> simp [passGap, ih]
@[simp] theorem passGap_rsp (ms : List Move) (s : State) : (passGap ms s).rsp = s.rsp := by
  induction ms generalizing s with
  | nil => rfl
  | cons m ms ih => cases m <;> simp [passGap, ih]
@[simp] theorem passGap_cmds (ms : List Move) (s : State) : (passGap ms s).cmds = s.cmds := by
  induction ms generalizing s with
  | nil => rfl
  | cons m ms ih => cases m <;> simp [passGap, ih]
@[simp] theorem passGap_draws (ms : List Move) (s : State) : (passGap ms s).draws = s.draws := by
  induction ms generalizing s with
  | nil => rfl
  | cons m ms ih => cases m <;> simp [passGap, ih]
@[simp] theorem passGap_params (ms : List Move) (s : State) : (passGap ms s).params = s.params := by
  induction ms generalizing s with
  | nil => rfl
  | cons m ms ih => cases m <;> simp [passGap, ih]
@[simp] theorem passAll_mem (ms : List Move) (s : State) : (passAll ms s).mem = s.mem := by
  induction ms generalizing s with
  | nil => rfl
  | cons m ms ih => cases m <;> simp [passAll, ih]
@[simp] theorem passAll_desc (ms : List Move) (s : State) : (passAll ms s).desc = s.desc := by
  induction ms generalizing s with
  | nil => rfl
  | cons m ms ih => cases m <;> simp [passAll, ih]
@[simp] theorem passAll_allocCtr (ms : List Move) (s : State) : (passAll ms s).allocCtr = s.allocCtr := by
  induction ms generalizing s with
  | nil => rfl
  | cons m ms ih => cases m <;> simp [passAll, ih]
@[simp] theorem passAll_faultCode (ms : List Move) (s : State) : (passAll ms s).faultCode = s.faultCode := by
  induction ms generalizing s with
  | nil => rfl
  | cons m ms ih => cases m <;> simp [passAll, ih]
@[simp] theorem passAll_blob (ms : List Move) (s : State) : (passAll ms s).blob = s.blob := by
  induction ms generalizing s with
  | nil => rfl
  | cons m ms ih => cases m <;> simp [passAll, ih]
@[simp] theorem passAll_sheetWt (ms : List Move) (s : State) : (passAll ms s).sheetWt = s.sheetWt := by
  induction ms generalizing s with
  | nil => rfl
  | cons m ms ih => cases m <;> simp [passAll, ih]
@[simp] theorem passAll_sheetHt (ms : List Move) (s : State) : (passAll ms s).sheetHt = s.sheetHt := by
  induction ms generalizing s with
  | nil => rfl
  | cons m ms ih => cases m <;> simp [passAll, ih]
@[simp] theorem passAll_waiting (ms : List Move) (s : State) : (passAll ms s).waiting = s.waiting := by
  induction ms generalizing s with
  | nil => rfl
  | cons m ms ih => cases m <;> simp [passAll, ih]
@[simp] theorem passAll_rsp (ms : List Move) (s : State) : (passAll ms s).rsp = s.rsp := by
  induction ms generalizing s with
  | nil => rfl
  | cons m ms ih => cases m <;> simp [passAll, ih]
@[simp] theorem passAll_cmds (ms : List Move) (s : State) : (passAll ms s).cmds = s.cmds := by
  induction ms generalizing s with
  | nil => rfl
  | cons m ms ih => cases m <;> simp [passAll, ih]
@[simp] theorem passAll_agenda (ms : List Move) (s : State) : (passAll ms s).agenda = s.agenda := by
  induction ms generalizing s with
  | nil => rfl
  | cons m ms ih => cases m <;> simp [passAll, ih]
@[simp] theorem passAll_draws (ms : List Move) (s : State) : (passAll ms s).draws = s.draws := by
  induction ms generalizing s with
  | nil => rfl
  | cons m ms ih => cases m <;> simp [passAll, ih]
@[simp] theorem passAll_params (ms : List Move) (s : State) : (passAll ms s).params = s.params := by
  induction ms generalizing s with
  | nil => rfl
  | cons m ms ih => cases m <;> simp [passAll, ih]
@[simp] theorem State.instant_mem (s : State) : s.instant.mem = s.mem := passGap_mem _ _
@[simp] theorem State.instant_desc (s : State) : s.instant.desc = s.desc := passGap_desc _ _
@[simp] theorem State.instant_allocCtr (s : State) : s.instant.allocCtr = s.allocCtr := passGap_allocCtr _ _
@[simp] theorem State.instant_faultCode (s : State) : s.instant.faultCode = s.faultCode := passGap_faultCode _ _
@[simp] theorem State.instant_blob (s : State) : s.instant.blob = s.blob := passGap_blob _ _
@[simp] theorem State.instant_sheetWt (s : State) : s.instant.sheetWt = s.sheetWt := passGap_sheetWt _ _
@[simp] theorem State.instant_sheetHt (s : State) : s.instant.sheetHt = s.sheetHt := passGap_sheetHt _ _
@[simp] theorem State.instant_waiting (s : State) : s.instant.waiting = s.waiting := passGap_waiting _ _
@[simp] theorem State.instant_rsp (s : State) : s.instant.rsp = s.rsp := passGap_rsp _ _
@[simp] theorem State.instant_cmds (s : State) : s.instant.cmds = s.cmds := passGap_cmds _ _
@[simp] theorem State.instant_draws (s : State) : s.instant.draws = s.draws := passGap_draws _ _
@[simp] theorem State.instant_params (s : State) : s.instant.params = s.params := passGap_params _ _

/-! ### `runLater` and `runStores`: all but `mem`, `vis`, `frames`, `keyIn` and `agenda` -/

@[simp] theorem runLater_desc (es : List ElemStore) (s : State) : (runLater es s).desc = s.desc := by
  induction es generalizing s with
  | nil => rfl
  | cons e es ih => simp [runLater, ih]
@[simp] theorem runStores_desc (es : List ElemStore) (s : State) : (runStores es s).desc = s.desc := by
  cases es <;> simp [runStores]
@[simp] theorem runLater_allocCtr (es : List ElemStore) (s : State) : (runLater es s).allocCtr = s.allocCtr := by
  induction es generalizing s with
  | nil => rfl
  | cons e es ih => simp [runLater, ih]
@[simp] theorem runStores_allocCtr (es : List ElemStore) (s : State) : (runStores es s).allocCtr = s.allocCtr := by
  cases es <;> simp [runStores]
@[simp] theorem runLater_faultCode (es : List ElemStore) (s : State) : (runLater es s).faultCode = s.faultCode := by
  induction es generalizing s with
  | nil => rfl
  | cons e es ih => simp [runLater, ih]
@[simp] theorem runStores_faultCode (es : List ElemStore) (s : State) : (runStores es s).faultCode = s.faultCode := by
  cases es <;> simp [runStores]
@[simp] theorem runLater_blob (es : List ElemStore) (s : State) : (runLater es s).blob = s.blob := by
  induction es generalizing s with
  | nil => rfl
  | cons e es ih => simp [runLater, ih]
@[simp] theorem runStores_blob (es : List ElemStore) (s : State) : (runStores es s).blob = s.blob := by
  cases es <;> simp [runStores]
@[simp] theorem runLater_sheetWt (es : List ElemStore) (s : State) : (runLater es s).sheetWt = s.sheetWt := by
  induction es generalizing s with
  | nil => rfl
  | cons e es ih => simp [runLater, ih]
@[simp] theorem runStores_sheetWt (es : List ElemStore) (s : State) : (runStores es s).sheetWt = s.sheetWt := by
  cases es <;> simp [runStores]
@[simp] theorem runLater_sheetHt (es : List ElemStore) (s : State) : (runLater es s).sheetHt = s.sheetHt := by
  induction es generalizing s with
  | nil => rfl
  | cons e es ih => simp [runLater, ih]
@[simp] theorem runStores_sheetHt (es : List ElemStore) (s : State) : (runStores es s).sheetHt = s.sheetHt := by
  cases es <;> simp [runStores]
@[simp] theorem runLater_waiting (es : List ElemStore) (s : State) : (runLater es s).waiting = s.waiting := by
  induction es generalizing s with
  | nil => rfl
  | cons e es ih => simp [runLater, ih]
@[simp] theorem runStores_waiting (es : List ElemStore) (s : State) : (runStores es s).waiting = s.waiting := by
  cases es <;> simp [runStores]
@[simp] theorem runLater_rsp (es : List ElemStore) (s : State) : (runLater es s).rsp = s.rsp := by
  induction es generalizing s with
  | nil => rfl
  | cons e es ih => simp [runLater, ih]
@[simp] theorem runStores_rsp (es : List ElemStore) (s : State) : (runStores es s).rsp = s.rsp := by
  cases es <;> simp [runStores]
@[simp] theorem runLater_cmds (es : List ElemStore) (s : State) : (runLater es s).cmds = s.cmds := by
  induction es generalizing s with
  | nil => rfl
  | cons e es ih => simp [runLater, ih]
@[simp] theorem runStores_cmds (es : List ElemStore) (s : State) : (runStores es s).cmds = s.cmds := by
  cases es <;> simp [runStores]
@[simp] theorem runLater_draws (es : List ElemStore) (s : State) : (runLater es s).draws = s.draws := by
  induction es generalizing s with
  | nil => rfl
  | cons e es ih => simp [runLater, ih]
@[simp] theorem runStores_draws (es : List ElemStore) (s : State) : (runStores es s).draws = s.draws := by
  cases es <;> simp [runStores]
@[simp] theorem runLater_params (es : List ElemStore) (s : State) : (runLater es s).params = s.params := by
  induction es generalizing s with
  | nil => rfl
  | cons e es ih => simp [runLater, ih]
@[simp] theorem runStores_params (es : List ElemStore) (s : State) : (runStores es s).params = s.params := by
  cases es <;> simp [runStores]

/-! ### `rst` -/

@[simp] theorem State.rst_mem (s : State) : (s.rst).mem = { draw := s.draws, cells := [] } := rfl
@[simp] theorem State.rst_vis (s : State) : (s.rst).vis = { draw := s.draws + 1, cells := [] } := rfl
@[simp] theorem State.rst_frames (s : State) : (s.rst).frames = s.frames := rfl
@[simp] theorem State.rst_desc (s : State) : (s.rst).desc = { w0 := 0, w1 := 0, w2 := 0 } := rfl
@[simp] theorem State.rst_allocCtr (s : State) : (s.rst).allocCtr = 0 := rfl
@[simp] theorem State.rst_faultCode (s : State) : (s.rst).faultCode = 0 := rfl
@[simp] theorem State.rst_blob (s : State) : (s.rst).blob = [] := rfl
@[simp] theorem State.rst_sheetWt (s : State) : (s.rst).sheetWt = 0 := rfl
@[simp] theorem State.rst_sheetHt (s : State) : (s.rst).sheetHt = 0 := rfl
@[simp] theorem State.rst_waiting (s : State) : (s.rst).waiting = false := rfl
@[simp] theorem State.rst_rsp (s : State) : (s.rst).rsp = s.rsp := rfl
@[simp] theorem State.rst_cmds (s : State) : (s.rst).cmds = s.cmds := rfl
@[simp] theorem State.rst_agenda (s : State) : (s.rst).agenda = s.agenda := rfl
@[simp] theorem State.rst_keyIn (s : State) : (s.rst).keyIn = s.keyIn := rfl
@[simp] theorem State.rst_draws (s : State) : (s.rst).draws = s.draws + 2 := rfl
@[simp] theorem State.rst_params (s : State) : (s.rst).params = s.params := rfl

/-! ### `vblankEvent` -/

@[simp] theorem State.vblankEvent_mem (s : State) : s.vblankEvent.mem = s.mem := by
  unfold State.vblankEvent; split <;> rfl
@[simp] theorem State.vblankEvent_desc (s : State) : s.vblankEvent.desc = s.desc := by
  unfold State.vblankEvent; split <;> rfl
@[simp] theorem State.vblankEvent_allocCtr (s : State) : s.vblankEvent.allocCtr = s.allocCtr := by
  unfold State.vblankEvent; split <;> rfl
@[simp] theorem State.vblankEvent_faultCode (s : State) : s.vblankEvent.faultCode = s.faultCode := by
  unfold State.vblankEvent; split <;> rfl
@[simp] theorem State.vblankEvent_blob (s : State) : s.vblankEvent.blob = s.blob := by
  unfold State.vblankEvent; split <;> rfl
@[simp] theorem State.vblankEvent_sheetWt (s : State) : s.vblankEvent.sheetWt = s.sheetWt := by
  unfold State.vblankEvent; split <;> rfl
@[simp] theorem State.vblankEvent_sheetHt (s : State) : s.vblankEvent.sheetHt = s.sheetHt := by
  unfold State.vblankEvent; split <;> rfl
@[simp] theorem State.vblankEvent_cmds (s : State) : s.vblankEvent.cmds = s.cmds := by
  unfold State.vblankEvent; split <;> rfl
@[simp] theorem State.vblankEvent_agenda (s : State) : s.vblankEvent.agenda = s.agenda := by
  unfold State.vblankEvent; split <;> rfl
@[simp] theorem State.vblankEvent_keyIn (s : State) : s.vblankEvent.keyIn = s.keyIn := by
  unfold State.vblankEvent; split <;> rfl
@[simp] theorem State.vblankEvent_draws (s : State) : s.vblankEvent.draws = s.draws := by
  unfold State.vblankEvent; split <;> rfl
@[simp] theorem State.vblankEvent_params (s : State) : s.vblankEvent.params = s.params := by
  unfold State.vblankEvent; split <;> rfl
@[simp] theorem State.vblankEvent_vis (s : State) : s.vblankEvent.vis = s.mem := by
  unfold State.vblankEvent; split <;> rfl
@[simp] theorem State.vblankEvent_frames (s : State) : s.vblankEvent.frames = s.mem :: s.frames := by
  unfold State.vblankEvent; split <;> rfl
@[simp] theorem State.vblankEvent_waiting (s : State) : s.vblankEvent.waiting = false := by
  unfold State.vblankEvent; split <;> simp_all

/-! ### `offer` -/

@[simp] theorem State.offer_mem (s : State) (c : Command) : (s.offer c).mem = s.mem := rfl
@[simp] theorem State.offer_vis (s : State) (c : Command) : (s.offer c).vis = s.vis := rfl
@[simp] theorem State.offer_frames (s : State) (c : Command) : (s.offer c).frames = s.frames := rfl
@[simp] theorem State.offer_desc (s : State) (c : Command) : (s.offer c).desc = s.desc := rfl
@[simp] theorem State.offer_allocCtr (s : State) (c : Command) : (s.offer c).allocCtr = s.allocCtr := rfl
@[simp] theorem State.offer_faultCode (s : State) (c : Command) : (s.offer c).faultCode = s.faultCode := rfl
@[simp] theorem State.offer_blob (s : State) (c : Command) : (s.offer c).blob = s.blob := rfl
@[simp] theorem State.offer_sheetWt (s : State) (c : Command) : (s.offer c).sheetWt = s.sheetWt := rfl
@[simp] theorem State.offer_sheetHt (s : State) (c : Command) : (s.offer c).sheetHt = s.sheetHt := rfl
@[simp] theorem State.offer_waiting (s : State) (c : Command) : (s.offer c).waiting = false := rfl
@[simp] theorem State.offer_rsp (s : State) (c : Command) : (s.offer c).rsp = s.rsp := rfl
@[simp] theorem State.offer_cmds (s : State) (c : Command) : (s.offer c).cmds = c :: s.cmds := rfl
@[simp] theorem State.offer_agenda (s : State) (c : Command) : (s.offer c).agenda = .core :: s.agenda := rfl
@[simp] theorem State.offer_keyIn (s : State) (c : Command) : (s.offer c).keyIn = s.keyIn := rfl
@[simp] theorem State.offer_draws (s : State) (c : Command) : (s.offer c).draws = s.draws := rfl
@[simp] theorem State.offer_params (s : State) (c : Command) : (s.offer c).params = s.params := rfl

end Sys2Proof.Machine
end

