-- ==== Sys2Proof/Laws/Ops.lean ====
section
/-! SUPPORT. One lemma per shared operation: what it can do, to be cited instead of unfolded. -/

namespace Sys2Proof.Machine

/-! ### The halted check and faults -/

theorem halted_iff (s : State) : s.halted = true ↔ s.faultCode ≠ 0 := by simp [State.halted]

theorem unlessHalted_live {s : State} (h : s.faultCode = 0) (body : Result) :
    unlessHalted s body = body := by simp [unlessHalted, State.halted, h]

theorem unlessHalted_halted {s : State} (h : s.faultCode ≠ 0) (body : Result) :
    unlessHalted s body = .next (s.respond .halted []) :=
  if_pos ((halted_iff s).2 h)

/-- A fault taken by a CORE that is not halted. -/
theorem raise_live {s : State} (h : s.faultCode = 0) (k : FaultKind) :
    s.raise k = { s with faultCode := k.code, rsp := { status := k.status, words := [] } :: s.rsp } := by
  simp [State.raise, State.respond, stickyCode, h]

theorem code_ne_zero (k : FaultKind) : k.code ≠ 0 := by cases k <;> decide

theorem stickyCode_of_ne {old new : BitVec 4} (h : old ≠ 0) : stickyCode old new = old := if_neg h

/-! ### Index, reads -/

theorem withIndex_lt {r : Region} {i : Nat} (h : i < regionCount r) (s : State) (body : Nat → Result) :
    withIndex r i s body = body (elemAddr r i) := by simp [withIndex, regionIndex_of_lt h]

theorem withIndex_ge {r : Region} {i : Nat} (h : regionCount r ≤ i) (s : State) (body : Nat → Result) :
    withIndex r i s body = raising .outOfRange s := by simp [withIndex, regionIndex_of_ge h]

theorem memRead2_half {s : State} {a : Nat} (h : halfMapped a = true) :
    memRead2 s a = some (s.mem.half a, s) := by
  have : a ≠ regionBase .keyinput := by rintro rfl; revert h; decide
  simp [memRead2, this, h]

theorem memRead2_keyinput (s : State) :
    memRead2 s (regionBase .keyinput) = some (keyinputValue s, { s with draws := s.draws + 1 }) := by
  simp [memRead2]

/-- Words read from the rows of a tile slot. -/
theorem memReadWords_tile (s : State) {t : Nat} (ht : t < 1024) (j n : Nat) (h : j + n ≤ 8) :
    memReadWords s (elemAddr .objtile t + 4 * j) n =
      some ((List.range n).map fun k => s.mem.word (elemAddr .objtile t + 4 * (j + k))) := by
  induction n generalizing j with
  | zero => rfl
  | succ n ih =>
    have e : elemAddr .objtile t + 4 * j + 4 = elemAddr .objtile t + 4 * (j + 1) := by omega
    rw [memReadWords, e, ih (j + 1) (by omega), memRead4, if_pos (wordMapped_row ht (by omega))]
    simp [List.range_succ_eq_map, Function.comp_def, Nat.add_assoc, Nat.add_comm 1]

theorem memReadDesc_slot (s : State) {i : Nat} (h : i < 128) :
    memReadDesc s (elemAddr .oam i) = some (s.oam i) := if_pos (descMapped_slot h)

/-! ### Element stores -/

@[simp] theorem runLater_mem (es : List ElemStore) (s : State) :
    (runLater es s).mem = s.mem.storeAll es := by
  induction es generalizing s with
  | nil => rfl
  | cons e es ih => simp [runLater, ih, Memory.storeAll]

/-- The memory after a command's stores does not depend on the events between them. -/
@[simp] theorem runStores_mem (es : List ElemStore) (s : State) :
    (runStores es s).mem = s.mem.storeAll es := by
  cases es <;> simp [runStores, Memory.storeAll]

/-! ### What the other agents do during a command -/

/-- What the entries `used`, taken off the front of the agenda, do between `s` and `t`: no reset is among them,
the display is handed one value for each event, `VIS` is the last of these or as it was, and the keys follow
the key changes. -/
structure Passed (used : List Move) (s t : State) : Prop where
  noReset : ∀ m ∈ used, m.isReset = false
  handed : s.frames <:+ t.frames
  count : t.frames.length = used.count .vblank + s.frames.length
  latched : Move.vblank ∈ used → t.frames.head? = some t.vis
  kept : Move.vblank ∉ used → t.vis = s.vis
  keys : t.keyIn = keysAfter s.keyIn used

theorem keysAfter_append (k : BitVec 10) (l l' : List Move) :
    keysAfter k (l ++ l') = keysAfter (keysAfter k l) l' := by
  induction l generalizing k with
  | nil => rfl
  | cons m l ih => cases m <;> simp [keysAfter, ih]

theorem Passed.stop (s : State) (ag : List Move) : Passed [] s { s with agenda := ag } where
  noReset := by simp
  handed := List.suffix_rfl
  count := by simp
  latched := by simp
  kept _ := rfl
  keys := rfl

theorem Passed.nil (s : State) : Passed [] s s := .stop s s.agenda

theorem Passed.trans {l l' : List Move} {s t u : State} (h : Passed l s t) (h' : Passed l' t u) :
    Passed (l ++ l') s u where
  noReset m hm := (List.mem_append.1 hm).elim (h.noReset m) (h'.noReset m)
  handed := h.handed.trans h'.handed
  count := by rw [h'.count, h.count, List.count_append]; omega
  latched hm := by
    by_cases hv : Move.vblank ∈ l'
    · exact h'.latched hv
    · have hl : t.frames.length = u.frames.length := by rw [h'.count, List.count_eq_zero.2 hv, Nat.zero_add]
      rw [← h'.handed.eq_of_length hl, h'.kept hv]
      exact h.latched ((List.mem_append.1 hm).resolve_right hv)
  kept hm := by
    rw [List.mem_append, not_or] at hm
    rw [h'.kept hm.2, h.kept hm.1]
  keys := by rw [h'.keys, h.keys, keysAfter_append]

theorem Passed.vblank (s : State) : Passed [.vblank] s s.latch where
  noReset := by simp [Move.isReset]
  handed := List.suffix_cons _ _
  count := by simp [Nat.add_comm]
  latched _ := rfl
  kept h := absurd (List.mem_singleton_self _) h
  keys := rfl

theorem Passed.keysMove (s : State) (k : BitVec 10) : Passed [.keys k] s { s with keyIn := k } where
  noReset := by simp [Move.isReset]
  handed := List.suffix_rfl
  count := by simp
  latched := by simp
  kept _ := rfl
  keys := rfl

/-- A gap takes off the front of the list what comes before the CORE's next move, and that entry. -/
theorem passGap_passed (l : List Move) (s : State) :
    ∃ used, l = used ++ (passGap l s).agenda ∧ used.count .core ≤ 1 ∧ Passed used s (passGap l s) := by
  induction l generalizing s with
  | nil => exact ⟨[], rfl, by simp, .stop s []⟩
  | cons m l ih =>
    cases m with
    | vblank =>
      obtain ⟨used, h1, h2, h3⟩ := ih s.latch
      exact ⟨.vblank :: used, by simp [passGap, ← h1], by simpa using h2, (Passed.vblank s).trans h3⟩
    | keys k =>
      obtain ⟨used, h1, h2, h3⟩ := ih { s with keyIn := k }
      exact ⟨.keys k :: used, by simp [passGap, ← h1], by simpa using h2, (Passed.keysMove s k).trans h3⟩
    | core =>
      exact ⟨[.core], rfl, by simp, by simp [Move.isReset], List.suffix_rfl, by simp [passGap], by simp,
        fun _ => rfl, rfl⟩
    | rst => exact ⟨[], rfl, by simp, .stop s _⟩
    | rstDuring beats => exact ⟨[], rfl, by simp, .stop s _⟩

/-- All of a list without resets, whatever its length. -/
theorem passAll_passed {l : List Move} (h : ∀ m ∈ l, m.isReset = false) (s : State) :
    Passed l s (passAll l s) := by
  induction l generalizing s with
  | nil => exact .nil s
  | cons m l ih =>
    have hl := fun m' hm' => h m' (List.mem_cons_of_mem _ hm')
    cases m with
    | vblank => exact (Passed.vblank s).trans (ih hl s.latch)
    | keys k => exact (Passed.keysMove s k).trans (ih hl { s with keyIn := k })
    | core =>
      refine Passed.trans (l := [.core]) ⟨?_, List.suffix_rfl, ?_, ?_, fun _ => rfl, rfl⟩ (ih hl s) <;>
        simp [Move.isReset]
    | rst => exact absurd (h _ (List.mem_cons_self ..)) (by simp [Move.isReset])
    | rstDuring b => exact absurd (h _ (List.mem_cons_self ..)) (by simp [Move.isReset])

theorem runLater_passed (es : List ElemStore) (s : State) :
    ∃ used, s.agenda = used ++ (runLater es s).agenda ∧ (es = [] → used = []) ∧
      used.count .core ≤ es.length ∧ Passed used s (runLater es s) := by
  induction es generalizing s with
  | nil => exact ⟨[], rfl, fun _ => rfl, by simp, .nil s⟩
  | cons e es ih =>
    obtain ⟨u, h1, h2, h3⟩ := passGap_passed s.agenda s
    obtain ⟨v, g1, -, g3, g4⟩ := ih (s.instant.storeElem e)
    refine ⟨u ++ v, ?_, by simp, ?_, h3.trans ⟨g4.1, g4.2, g4.3, g4.4, g4.5, g4.6⟩⟩
    · rw [h1, List.append_assoc]
      exact congrArg (u ++ ·) g1
    · rw [List.count_append, List.length_cons]
      omega

/-- The stores of a command let the other agents move in their gaps and nowhere else (spec/20_memory.md
R52). -/
theorem runStores_othersMoved (es : List ElemStore) (s : State) :
    OthersMoved es.length s (runStores es s) := by
  cases es with
  | nil => exact ⟨[], rfl, by simp, fun _ => rfl, by simp, List.suffix_rfl, by simp [runStores], by simp, fun _ => rfl, rfl⟩
  | cons e es =>
    obtain ⟨used, h1, h2, h3, h4⟩ := runLater_passed es (s.storeElem e)
    exact ⟨used, h1, h4.noReset, fun h => h2 (by simpa using h), by simpa using h3, h4.handed, h4.count,
      h4.latched, h4.kept, h4.keys⟩

/-- What the display is handed in a gap: the memory as it stands, any number of times. -/
theorem passGap_shown (l : List Move) (s : State) : ∃ new, (passGap l s).frames = new ++ s.frames ∧
    (∀ f ∈ new, f = s.mem) ∧ ((passGap l s).vis = s.vis ∨ (passGap l s).vis ∈ new) := by
  induction l generalizing s with
  | nil => exact ⟨[], rfl, by simp, .inl rfl⟩
  | cons m l ih =>
    cases m with
    | vblank =>
      obtain ⟨new, h1, h2, h3⟩ := ih s.latch
      refine ⟨new ++ [s.mem], by simp [passGap, h1], fun f hf => ?_, .inr ?_⟩
      · exact (List.mem_append.1 hf).elim (h2 f) List.mem_singleton.1
      · exact List.mem_append.2 (h3.elim (fun h => .inr (by simp [passGap, h])) .inl)
    | keys k => exact ih { s with keyIn := k }
    | _ => exact ⟨[], rfl, by simp, .inl rfl⟩

theorem runLater_shown (es : List ElemStore) (s : State) :
    ∃ new, (runLater es s).frames = new ++ s.frames ∧
      (∀ f ∈ new, ∃ n, n < es.length ∧ f = s.mem.storeAll (es.take n)) ∧
      ((runLater es s).vis = s.vis ∨ (runLater es s).vis ∈ new) := by
  induction es generalizing s with
  | nil => exact ⟨[], rfl, by simp, .inl rfl⟩
  | cons e es ih =>
    obtain ⟨old, h1, h2, h3⟩ := passGap_shown s.agenda s
    obtain ⟨new, g1, g2, g3⟩ := ih (s.instant.storeElem e)
    refine ⟨new ++ old, by rw [List.append_assoc, ← h1]; exact g1, fun f hf => ?_, ?_⟩
    · rcases List.mem_append.1 hf with hf | hf
      · obtain ⟨n, hn, h⟩ := g2 f hf
        exact ⟨n + 1, by simpa using hn, by simpa [Memory.storeAll] using h⟩
      · exact ⟨0, by simp, h2 f hf⟩
    · rw [List.mem_append]
      rcases g3 with g | g
      · exact h3.imp (fun h => g.trans h) (fun h => .inr (by rw [runLater, g]; exact h))
      · exact .inr (.inl g)

/-- What the display is handed during a command: values of the memory after a part of its stores, from the
first on and short of the last; `VIS` is one of them or as it was (spec/20_memory.md R52). -/
theorem runStores_shown (es : List ElemStore) (s : State) :
    ∃ new, (runStores es s).frames = new ++ s.frames ∧
      (∀ f ∈ new, ∃ n, 0 < n ∧ n < es.length ∧ f = s.mem.storeAll (es.take n)) ∧
      ((runStores es s).vis = s.vis ∨ (runStores es s).vis ∈ new) := by
  cases es with
  | nil => exact ⟨[], rfl, by simp, .inl rfl⟩
  | cons e es =>
    obtain ⟨new, h1, h2, h3⟩ := runLater_shown es (s.storeElem e)
    refine ⟨new, h1, fun f hf => ?_, h3⟩
    obtain ⟨n, hn, h⟩ := h2 f hf
    exact ⟨n + 1, by omega, by simpa using hn, by simpa [Memory.storeAll] using h⟩

/-- One store passes no instant. -/
@[simp] theorem runStores_one (e : ElemStore) (s : State) : runStores [e] s = s.storeElem e := rfl

/-! ### The last part of a storing command -/

theorem find?_mapped {es : List ElemStore} (h : ∀ e ∈ es, e.mapped = true) :
    es.find? (fun e => !e.mapped) = none := by
  rw [List.find?_eq_none]
  intro e he
  simp [h e he]

/-- Mapped stores are made, and the command answers `OK`. -/
theorem commitWhen_mapped {es : List ElemStore} (h : ∀ e ∈ es, e.mapped = true) (b : Bool)
    (ws : List Word) (s : State) :
    commitWhen b es ws s = .next ((if b then runStores es s else s).respond .ok ws) := by
  simp [commitWhen, find?_mapped h]

theorem commit_mapped {es : List ElemStore} (h : ∀ e ∈ es, e.mapped = true) (ws : List Word)
    (s : State) : commit es ws s = .next ((runStores es s).respond .ok ws) := by
  simp [commit, commitWhen_mapped h]

end Sys2Proof.Machine
end

