-- ==== Sys2Proof/Laws/Exec.lean ====
section
/-! SUPPORT. Everything an instruction can do, said once: `exec_effect`. Facts about all instructions are
case splits over `Effect`, not unfoldings of 33 meanings. -/

namespace Sys2Proof.Machine

/-- The next states an instruction can have. -/
inductive Effect (i : Instr) (s : State) : State → Prop where
  /-- A halted CORE turned it away. -/
  | turned (hs : s.faultCode ≠ 0) (hi : i ≠ .nop ∧ i ≠ .statRd) : Effect i s (s.respond .halted [])
  /-- It took a fault. -/
  | fault (hs : s.faultCode = 0) (k : FaultKind) (hi : i ≠ .nop ∧ i ≠ .statRd ∧ i ≠ .vblWait) :
      Effect i s (s.raise k)
  /-- It answered and changed nothing. -/
  | answer (ws : List Word) (hl : ws.length = responseLen i) (hi : i ≠ .vblWait)
      (hs : s.faultCode = 0 ∨ i = .nop ∨ i = .statRd) : Effect i s (s.respond .ok ws)
  /-- It read KEYINPUT and used up a draw. -/
  | keyRead (hs : s.faultCode = 0) (hi : i = .regRd .keyinput) (w : Word) :
      Effect i s ({ s with draws := s.draws + 1 }.respond .ok [w])
  /-- It is VBL.WAIT, now pending. -/
  | pend (hs : s.faultCode = 0) (hi : i = .vblWait) : Effect i s { s with waiting := true }
  /-- It replaced the staging descriptor. -/
  | build (hs : s.faultCode = 0) (hi : i = .descNew ∨ isFieldCommand i = true) (d : Desc)
      (hd : s.desc.spareZero = true → d.spareZero = true) (hl : responseLen i = 0) (hw : i ≠ .vblWait) :
      Effect i s ({ s with desc := d }.respond .ok [])
  /-- It is CMP.BITMAP and compiled the blob. -/
  | compile (hs : s.faultCode = 0) (hi : i.opcode = .cmpBitmap) (hb : s.blob = []) (blob : List Word)
      (wt ht : Half) (hl : blob.length = responseLen i) (hn : blob.length = 8 * (wt.toNat * ht.toNat))
      (hc : blob.length ≤ s.params.blobMaxWords) (hne : blob ≠ []) :
      Effect i s ({ s with blob := blob, sheetWt := wt, sheetHt := ht }.respond .ok blob)
  /-- It made its number of element stores, to mapped addresses; OAM.ALLOC and FRAME.BEGIN also wrote the
  counter. -/
  | store (hs : s.faultCode = 0) (hi : isStoring i = true) (es : List ElemStore)
      (hm : ∀ e ∈ es, e.mapped = true) (hk : es.length = storeCount s.params.clearPolicy i) (ws : List Word) (hl : ws.length = responseLen i) (c : BitVec 8)
      (hc : c = s.allocCtr ∨ (i = .oamAlloc ∧ s.allocCtr.toNat < 128 ∧ c = s.allocCtr + 1) ∨
        (i = .frameBegin ∧ c = 0)) :
      Effect i s ((runStores es { s with allocCtr := c }).respond .ok ws)

/-! ### The shared operations' answers -/

/-- What follows the halted check: the command was turned away, or the CORE is not halted. -/
theorem unlessHalted_next {s t : State} {body : Result} (h : unlessHalted s body = .next t) :
    (s.faultCode ≠ 0 ∧ t = s.respond .halted []) ∨ (s.faultCode = 0 ∧ body = .next t) := by
  unfold unlessHalted at h
  split at h
  · rename_i hh
    exact .inl ⟨(halted_iff s).1 hh, by simpa using h.symm⟩
  · rename_i hh
    exact .inr ⟨by simpa [halted_iff] using hh, h⟩

theorem withIndex_next {r : Region} {n : Nat} {s t : State} {body : Nat → Result}
    (h : withIndex r n s body = .next t) :
    (n < regionCount r ∧ body (elemAddr r n) = .next t) ∨ t = s.raise .outOfRange := by
  by_cases hn : n < regionCount r
  · exact .inl ⟨hn, by rwa [withIndex_lt hn] at h⟩
  · rw [withIndex_ge (Nat.not_lt.1 hn)] at h
    exact .inr (by simpa [raising] using h.symm)

theorem withRead_next {α : Type} {a : Nat} {read : Option α} {body : α → Result} {t : State}
    (h : withRead a read body = .next t) : ∃ x, read = some x ∧ body x = .next t := by
  cases read with
  | none => cases h
  | some x => exact ⟨x, rfl, h⟩

theorem commitWhen_next {b : Bool} {es : List ElemStore} {ws : List Word} {s t : State}
    (h : commitWhen b es ws s = .next t) :
    (∀ e ∈ es, e.mapped = true) ∧ t = (runStores (if b then es else []) s).respond .ok ws := by
  unfold commitWhen at h
  split at h
  · cases h
  · rename_i hf
    refine ⟨fun e he => ?_, ?_⟩
    · have := List.find?_eq_none.1 hf e he
      simpa using this
    · cases b <;> simpa [runStores] using h.symm

theorem commit_next {es : List ElemStore} {ws : List Word} {s t : State}
    (h : commit es ws s = .next t) :
    (∀ e ∈ es, e.mapped = true) ∧ t = (runStores es s).respond .ok ws := commitWhen_next h

theorem memReadWords_length {s : State} {a n : Nat} {ws : List Word}
    (h : memReadWords s a n = some ws) : ws.length = n := by
  induction n generalizing a ws with
  | zero => simp only [memReadWords, Option.some.injEq] at h; simp [← h]
  | succ n ih =>
    simp only [memReadWords] at h
    split at h
    · rename_i w vs h1 h2
      simp only [Option.some.injEq] at h
      simp [← h, ih h2]
    · cases h

theorem unpackTile_length (ws : List Word) : (unpackTile ws).length = 8 * ws.length := by
  induction ws with
  | nil => rfl
  | cons w ws ih =>
    rw [unpackTile, List.flatMap_cons, List.length_append, ← unpackTile, ih]
    simp [unpackNibbles]
    omega

theorem compileBitmap_length (W H : Nat) (idx : Nat → Nat → Byte) :
    (compileBitmap W H idx).length = W / 8 * (H / 8) * 8 := by
  simp [compileBitmap, List.length_flatMap]

/-- A command that stores and keeps the counter. -/
theorem Effect.store_of_commit {i : Instr} {s t : State} {es : List ElemStore} {ws : List Word}
    (hs : s.faultCode = 0) (hi : isStoring i = true) (hl : ws.length = responseLen i)
    (hk : es.length = storeCount s.params.clearPolicy i) (h : commit es ws s = .next t) : Effect i s t := by
  obtain ⟨hm, rfl⟩ := commit_next h
  exact Effect.store hs hi es hm hk ws hl s.allocCtr (.inl rfl)

theorem wordStores_length (a : Nat) (ws : List Word) : (wordStores a ws).length = ws.length := by
  induction ws generalizing a with
  | nil => rfl
  | cons w ws ih => simp [wordStores, ih]

theorem zeroSlots_length (i n : Nat) : (zeroSlots i n).length = n := by
  induction n generalizing i with
  | zero => rfl
  | succ n ih => simp [zeroSlots, ih]

theorem clearStores_length : clearStores.length = 128 := zeroSlots_length _ _

/-- A blob tile that is in the blob has eight words. -/
theorem blobTile_length {s : State} {n : Nat} (h : n < s.blobLen / 8) : (s.blobTile n).length = 8 := by
  have : s.blobLen = s.blob.length := rfl
  simp only [State.blobTile, List.length_take, List.length_drop]
  omega

theorem quadStores_length {s : State} {dst : Nat} {qs : List Nat} (h : ∀ q ∈ qs, q < s.blobLen / 8) :
    (quadStores s dst qs).length = 8 * qs.length := by
  induction qs generalizing dst with
  | nil => rfl
  | cons q qs ih =>
    rw [quadStores, List.length_append, wordStores_length, blobTile_length (h q (List.mem_cons_self ..)),
      ih fun q' hq' => h q' (List.mem_cons_of_mem _ hq'), List.length_cons]
    omega

/-! ### The families -/

theorem execRgnAddr_effect {r : Region} {n : Half} {s t : State}
    (h : execRgnAddr r n s = .next t) : Effect (.rgnAddr r n) s t := by
  rcases unlessHalted_next h with ⟨hs, rfl⟩ | ⟨hs, h⟩
  · exact .turned hs ⟨by simp, by simp⟩
  rcases withIndex_next h with ⟨-, h⟩ | rfl
  · simp only [answering, Host.Outcome.next.injEq] at h
    subst h
    exact .answer _ rfl (by simp) (.inl hs)
  · exact .fault hs _ (by simp)

/-- What a 16-bit read returns: the state as it was, but at KEYINPUT. -/
theorem memRead2_state {s s' : State} {a : Nat} {v : Half} (h : memRead2 s a = some (v, s')) :
    s' = s ∨ (a = regionBase .keyinput ∧ s' = { s with draws := s.draws + 1 }) := by
  unfold memRead2 at h
  split_ifs at h with h1 h2
  · simp only [Option.some.injEq, Prod.mk.injEq] at h
    exact .inr ⟨h1, h.2.symm⟩
  · simp only [Option.some.injEq, Prod.mk.injEq] at h
    exact .inl h.2.symm

theorem execRegRd_effect {r : Region} {s t : State} (h : execRegRd r s = .next t) :
    Effect (.regRd r) s t := by
  rcases unlessHalted_next h with ⟨hs, rfl⟩ | ⟨hs, h⟩
  · exact .turned hs ⟨by simp, by simp⟩
  split at h
  · rcases withIndex_next h with ⟨-, h⟩ | rfl
    · obtain ⟨⟨v, s'⟩, hr, h⟩ := withRead_next h
      simp only [answering, Host.Outcome.next.injEq] at h
      subst h
      rcases memRead2_state hr with rfl | ⟨ha, rfl⟩
      · exact .answer _ rfl (by simp) (.inl hs)
      · have : r = .keyinput := by revert ha; cases r <;> decide
        subst this
        exact .keyRead hs rfl _
    · exact .fault hs _ (by simp)
  · simp only [raising, Host.Outcome.next.injEq] at h
    subst h
    exact .fault hs _ (by simp)

theorem execRegWr_effect {r : Region} {v : Half} {s t : State} (h : execRegWr r v s = .next t) :
    Effect (.regWr r v) s t := by
  rcases unlessHalted_next h with ⟨hs, rfl⟩ | ⟨hs, h⟩
  · exact .turned hs ⟨by simp, by simp⟩
  split at h
  · rcases withIndex_next h with ⟨-, h⟩ | rfl
    · exact .store_of_commit hs rfl rfl rfl h
    · exact .fault hs _ (by simp)
  · simp only [raising, Host.Outcome.next.injEq] at h
    subst h
    exact .fault hs _ (by simp)

theorem execPalRd_effect {n : Byte} {s t : State} (h : execPalRd n s = .next t) :
    Effect (.palRd n) s t := by
  rcases unlessHalted_next h with ⟨hs, rfl⟩ | ⟨hs, h⟩
  · exact .turned hs ⟨by simp, by simp⟩
  rcases withIndex_next h with ⟨-, h⟩ | rfl
  · obtain ⟨⟨v, s'⟩, hr, h⟩ := withRead_next h
    simp only [answering, Host.Outcome.next.injEq] at h
    subst h
    rcases memRead2_state hr with rfl | ⟨ha, rfl⟩
    · exact .answer _ rfl (by simp) (.inl hs)
    · simp only [elemAddr, regionBase, regionStride] at ha
      omega
  · exact .fault hs _ (by simp)

theorem execPalWr_effect {n : Byte} {c : Half} {s t : State} (h : execPalWr n c s = .next t) :
    Effect (.palWr n c) s t := by
  rcases unlessHalted_next h with ⟨hs, rfl⟩ | ⟨hs, h⟩
  · exact .turned hs ⟨by simp, by simp⟩
  rcases withIndex_next h with ⟨-, h⟩ | rfl
  · exact .store_of_commit hs rfl rfl rfl h
  · exact .fault hs _ (by simp)

theorem withPixels_next {px : List Byte} {s t : State} {body : Result}
    (h : withPixels px s body = .next t) : body = .next t ∨ t = s.raise .formatError := by
  unfold withPixels at h
  split at h
  · exact .inr (by simpa [raising] using h.symm)
  · exact .inl h

theorem execPack8_effect {px : List Byte} {s t : State} (h : execPack8 px s = .next t) :
    Effect (.pack8 px) s t := by
  rcases unlessHalted_next h with ⟨hs, rfl⟩ | ⟨hs, h⟩
  · exact .turned hs ⟨by simp, by simp⟩
  split at h
  · rcases withPixels_next h with h | rfl
    · simp only [answering, Host.Outcome.next.injEq] at h
      subst h
      exact .answer _ rfl (by simp) (.inl hs)
    · exact .fault hs _ (by simp)
  · simp only [raising, Host.Outcome.next.injEq] at h
    subst h
    exact .fault hs _ (by simp)

theorem execUnpack8_effect {w : Word} {s t : State} (h : execUnpack8 w s = .next t) :
    Effect (.unpack8 w) s t := by
  rcases unlessHalted_next h with ⟨hs, rfl⟩ | ⟨hs, h⟩
  · exact .turned hs ⟨by simp, by simp⟩
  simp only [answering, Host.Outcome.next.injEq] at h
  subst h
  exact .answer _ (by rw [wordsOfBytes_length]; simp [unpackNibbles, responseLen]) (by simp) (.inl hs)

theorem execTileWrpx_effect {n : Half} {px : List Byte} {s t : State}
    (h : execTileWrpx n px s = .next t) : Effect (.tileWrpx n px) s t := by
  rcases unlessHalted_next h with ⟨hs, rfl⟩ | ⟨hs, h⟩
  · exact .turned hs ⟨by simp, by simp⟩
  split at h
  · rcases withIndex_next h with ⟨-, h⟩ | rfl
    · rcases withPixels_next h with h | rfl
      · exact .store_of_commit hs rfl rfl rfl h
      · exact .fault hs _ (by simp)
    · exact .fault hs _ (by simp)
  · simp only [raising, Host.Outcome.next.injEq] at h
    subst h
    exact .fault hs _ (by simp)

theorem execTileRdpx_effect {n : Half} {s t : State} (h : execTileRdpx n s = .next t) :
    Effect (.tileRdpx n) s t := by
  rcases unlessHalted_next h with ⟨hs, rfl⟩ | ⟨hs, h⟩
  · exact .turned hs ⟨by simp, by simp⟩
  rcases withIndex_next h with ⟨-, h⟩ | rfl
  · obtain ⟨ws, hr, h⟩ := withRead_next h
    simp only [answering, Host.Outcome.next.injEq] at h
    subst h
    refine .answer _ ?_ (by simp) (.inl hs)
    rw [wordsOfBytes_length, unpackTile_length, memReadWords_length hr]
    rfl
  · exact .fault hs _ (by simp)

theorem execTileWrw_effect {n : Half} {ws : List Word} {s t : State}
    (h : execTileWrw n ws s = .next t) : Effect (.tileWrw n ws) s t := by
  rcases unlessHalted_next h with ⟨hs, rfl⟩ | ⟨hs, h⟩
  · exact .turned hs ⟨by simp, by simp⟩
  split at h
  · rename_i h8
    rcases withIndex_next h with ⟨-, h⟩ | rfl
    · exact .store_of_commit hs rfl rfl ((wordStores_length ..).trans h8) h
    · exact .fault hs _ (by simp)
  · simp only [raising, Host.Outcome.next.injEq] at h
    subst h
    exact .fault hs _ (by simp)

theorem execTileRdw_effect {n : Half} {s t : State} (h : execTileRdw n s = .next t) :
    Effect (.tileRdw n) s t := by
  rcases unlessHalted_next h with ⟨hs, rfl⟩ | ⟨hs, h⟩
  · exact .turned hs ⟨by simp, by simp⟩
  rcases withIndex_next h with ⟨-, h⟩ | rfl
  · obtain ⟨ws, hr, h⟩ := withRead_next h
    simp only [answering, Host.Outcome.next.injEq] at h
    subst h
    exact .answer _ (memReadWords_length hr) (by simp) (.inl hs)
  · exact .fault hs _ (by simp)

theorem execMapPx_effect {wt x y : Half} {s t : State} (h : execMapPx wt x y s = .next t) :
    Effect (.mapPx wt x y) s t := by
  rcases unlessHalted_next h with ⟨hs, rfl⟩ | ⟨hs, h⟩
  · exact .turned hs ⟨by simp, by simp⟩
  split_ifs at h <;> simp only [raising, answering, Host.Outcome.next.injEq] at h <;> subst h
  · exact .fault hs _ (by simp)
  · exact .fault hs _ (by simp)
  · exact .answer _ rfl (by simp) (.inl hs)

theorem execMapQuad_effect {wt k : Half} {s t : State} (h : execMapQuad wt k s = .next t) :
    Effect (.mapQuad wt k) s t := by
  rcases unlessHalted_next h with ⟨hs, rfl⟩ | ⟨hs, h⟩
  · exact .turned hs ⟨by simp, by simp⟩
  split_ifs at h <;> simp only [raising, answering, Host.Outcome.next.injEq] at h <;> subst h
  · exact .fault hs _ (by simp)
  · exact .answer _ rfl (by simp) (.inl hs)

theorem badDimension_false {n : Nat} (h : badDimension n = false) : n ≠ 0 ∧ n % 8 = 0 := by
  simpa [badDimension] using h

theorem execCmpBitmap_effect {pl : List Word} {s t : State} (h : execCmpBitmap pl s = .next t) :
    Effect (.cmpBitmap pl) s t := by
  rcases unlessHalted_next h with ⟨hs, rfl⟩ | ⟨hs, h⟩
  · exact .turned hs ⟨by simp, by simp⟩
  unfold compileCommand at h
  cases pl with
  | nil =>
    simp only [raising, Host.Outcome.next.injEq] at h
    subst h
    exact .fault hs _ (by simp)
  | cons dims px =>
    simp only at h
    split_ifs at h with h1 h2 h3 h4 h5 <;>
      simp only [raising, answering, Host.Outcome.next.injEq] at h <;> subst h
    · exact .fault hs _ (by simp)
    · exact .fault hs _ (by simp)
    · exact .fault hs _ (by simp)
    · exact .fault hs _ (by simp)
    · exact .fault hs _ (by simp)
    · simp only [Bool.or_eq_true, not_or, Bool.not_eq_true] at h2
      obtain ⟨⟨w0, w8⟩, g0, g8⟩ := And.intro (badDimension_false h2.1) (badDimension_false h2.2)
      have lw := (lowHalf dims).isLt
      have lh := (highHalf dims).isLt
      have ew : (BitVec.ofNat 16 ((lowHalf dims).toNat / 8)).toNat = (lowHalf dims).toNat / 8 :=
        Nat.mod_eq_of_lt (by omega)
      have eh : (BitVec.ofNat 16 ((highHalf dims).toNat / 8)).toNat = (highHalf dims).toNat / 8 :=
        Nat.mod_eq_of_lt (by omega)
      obtain ⟨a, ha⟩ : ∃ a, (lowHalf dims).toNat = 8 * a := ⟨_, (Nat.mul_div_cancel' (Nat.dvd_of_mod_eq_zero w8)).symm⟩
      obtain ⟨b, hb⟩ : ∃ b, (highHalf dims).toNat = 8 * b := ⟨_, (Nat.mul_div_cancel' (Nat.dvd_of_mod_eq_zero g8)).symm⟩
      have ea : 8 * a / 8 = a := by omega
      have eb : 8 * b / 8 = b := by omega
      have ep : 8 * a * (8 * b) / 8 = a * b * 8 := by
        rw [show 8 * a * (8 * b) = a * b * 8 * 8 by ring]; omega
      have apos : 0 < a := by omega
      have bpos : 0 < b := by omega
      have hpos := Nat.mul_pos apos bpos
      refine .compile hs rfl (by simpa [State.blobLen] using h1) _ _ _ ?_ ?_ ?_ ?_
      · simp only [responseLen, List.getD_cons_zero, compileBitmap_length, ha, hb, ea, eb, ep]
      · rw [compileBitmap_length, ew, eh, ha, hb, ea, eb]; ring
      · rw [compileBitmap_length, ha, hb, ea, eb]
        rw [ha, hb, ep] at h3
        omega
      · intro hnil
        have := congrArg List.length hnil
        rw [compileBitmap_length, ha, hb, ea, eb] at this
        simp at this
        omega

theorem execBlobRd_effect {j : Word} {s t : State} (h : execBlobRd j s = .next t) :
    Effect (.blobRd j) s t := by
  rcases unlessHalted_next h with ⟨hs, rfl⟩ | ⟨hs, h⟩
  · exact .turned hs ⟨by simp, by simp⟩
  split at h <;> simp only [raising, answering, Host.Outcome.next.injEq] at h <;> subst h
  · exact .answer _ rfl (by simp) (.inl hs)
  · exact .fault hs _ (by simp)

theorem execTileLdb_effect {dst : Half} {src : Word} {s t : State}
    (h : execTileLdb dst src s = .next t) : Effect (.tileLdb dst src) s t := by
  rcases unlessHalted_next h with ⟨hs, rfl⟩ | ⟨hs, h⟩
  · exact .turned hs ⟨by simp, by simp⟩
  split at h
  · simp only [raising, Host.Outcome.next.injEq] at h
    subst h
    exact .fault hs _ (by simp)
  · rename_i hsrc
    rcases withIndex_next h with ⟨-, h⟩ | rfl
    · exact .store_of_commit hs rfl rfl ((wordStores_length ..).trans (blobTile_length (Nat.lt_of_not_le hsrc))) h
    · exact .fault hs _ (by simp)

theorem execSprLoad16_effect {dst k : Half} {s t : State} (h : execSprLoad16 dst k s = .next t) :
    Effect (.sprLoad16 dst k) s t := by
  rcases unlessHalted_next h with ⟨hs, rfl⟩ | ⟨hs, h⟩
  · exact .turned hs ⟨by simp, by simp⟩
  split_ifs at h
  · simp only [raising, Host.Outcome.next.injEq] at h
    subst h
    exact .fault hs _ (by simp)
  · simp only [raising, Host.Outcome.next.injEq] at h
    subst h
    exact .fault hs _ (by simp)
  · simp only [raising, Host.Outcome.next.injEq] at h
    subst h
    exact .fault hs _ (by simp)
  · simp only [raising, Host.Outcome.next.injEq] at h
    subst h
    exact .fault hs _ (by simp)
  · rename_i hq _
    refine .store_of_commit hs rfl rfl (quadStores_length fun q hm => ?_) h
    simp only [quadTiles, List.mem_cons, List.not_mem_nil, or_false] at hm
    omega

/-- A builder command, with the bits without a field kept at zero. -/
theorem building_effect {i : Instr} {s t : State} {d : Desc}
    (hi : i = .descNew ∨ isFieldCommand i = true) (hl : responseLen i = 0)
    (hw : i ≠ .vblWait ∧ i ≠ .nop ∧ i ≠ .statRd)
    (hd : s.desc.spareZero = true → d.spareZero = true) (h : building s d = .next t) : Effect i s t := by
  rcases unlessHalted_next h with ⟨hs, rfl⟩ | ⟨hs, h⟩
  · exact .turned hs hw.2
  simp only [answering, Host.Outcome.next.injEq] at h
  subst h
  exact .build hs hi d hd hl hw.1

theorem spareZero_of_spare {d e : Desc} (h : e.spare = d.spare) :
    d.spareZero = true → e.spareZero = true := by
  rw [spareZero_iff, spareZero_iff, h]
  exact id

/-- A command that answers without a state change, once the halted check is passed. -/
theorem answering_effect {i : Instr} {s t : State} {ws : List Word} (hl : ws.length = responseLen i)
    (hw : i ≠ .vblWait ∧ i ≠ .nop ∧ i ≠ .statRd)
    (h : unlessHalted s (answering ws s) = .next t) : Effect i s t := by
  rcases unlessHalted_next h with ⟨hs, rfl⟩ | ⟨hs, h⟩
  · exact .turned hs hw.2
  simp only [answering, Host.Outcome.next.injEq] at h
  subst h
  exact .answer _ hl hw.1 (.inl hs)

theorem execOamAlloc_effect {s t : State} (h : execOamAlloc s = .next t) : Effect .oamAlloc s t := by
  rcases unlessHalted_next h with ⟨hs, rfl⟩ | ⟨hs, h⟩
  · exact .turned hs ⟨by simp, by simp⟩
  split at h
  · simp only [raising, Host.Outcome.next.injEq] at h
    subst h
    exact .fault hs _ (by simp)
  · rename_i hc
    obtain ⟨hm, rfl⟩ := commit_next h
    exact .store hs rfl _ hm rfl _ rfl (s.allocCtr + 1) (.inr (.inl ⟨rfl, by omega, rfl⟩))

theorem execOamWr_effect {slot : Half} {s t : State} (h : execOamWr slot s = .next t) :
    Effect (.oamWr slot) s t := by
  rcases unlessHalted_next h with ⟨hs, rfl⟩ | ⟨hs, h⟩
  · exact .turned hs ⟨by simp, by simp⟩
  rcases withIndex_next h with ⟨-, h⟩ | rfl
  · exact .store_of_commit hs rfl rfl rfl h
  · exact .fault hs _ (by simp)

theorem execOamRd_effect {slot : Half} {s t : State} (h : execOamRd slot s = .next t) :
    Effect (.oamRd slot) s t := by
  rcases unlessHalted_next h with ⟨hs, rfl⟩ | ⟨hs, h⟩
  · exact .turned hs ⟨by simp, by simp⟩
  rcases withIndex_next h with ⟨-, h⟩ | rfl
  · obtain ⟨d, -, h⟩ := withRead_next h
    simp only [answering, Host.Outcome.next.injEq] at h
    subst h
    exact .answer _ rfl (by simp) (.inl hs)
  · exact .fault hs _ (by simp)

theorem execOamClear_effect {s t : State} (h : execOamClear s = .next t) : Effect .oamClear s t := by
  rcases unlessHalted_next h with ⟨hs, rfl⟩ | ⟨hs, h⟩
  · exact .turned hs ⟨by simp, by simp⟩
  exact .store_of_commit hs rfl rfl rfl h

theorem execFrameBegin_effect {s t : State} (h : execFrameBegin s = .next t) :
    Effect .frameBegin s t := by
  rcases unlessHalted_next h with ⟨hs, rfl⟩ | ⟨hs, h⟩
  · exact .turned hs ⟨by simp, by simp⟩
  obtain ⟨hm, rfl⟩ := commitWhen_next h
  refine Effect.store (i := .frameBegin) hs rfl
    (if s.params.clearPolicy == .everyFrame then clearStores else []) (fun e he => ?_) ?_ [] rfl 0
    (.inr (.inr ⟨rfl, rfl⟩))
  · split at he
    · exact hm e he
    · cases he
  · cases s.params.clearPolicy with
    | explicitOnly => simp [storeCount]
    | everyFrame => simp [storeCount, clearStores_length]

theorem execVblWait_effect {s t : State} (h : execVblWait s = .next t) : Effect .vblWait s t := by
  rcases unlessHalted_next h with ⟨hs, rfl⟩ | ⟨hs, h⟩
  · exact .turned hs ⟨by simp, by simp⟩
  simp only [Host.Outcome.next.injEq] at h
  subst h
  exact .pend hs rfl

/-- Everything an instruction can do: if it answers a next state, that state is one of `Effect`. -/
theorem exec_effect {i : Instr} {s t : State} (h : exec i s = .next t) : Effect i s t := by
  cases i with
  | nop =>
    simp only [exec, execNop, answering, Host.Outcome.next.injEq] at h
    subst h
    exact .answer _ rfl (by simp) (.inr (.inl rfl))
  | statRd =>
    simp only [exec, execStatRd, answering, Host.Outcome.next.injEq] at h
    subst h
    exact .answer _ rfl (by simp) (.inr (.inr rfl))
  | vblWait => exact execVblWait_effect h
  | rgnAddr r n => exact execRgnAddr_effect h
  | regRd r => exact execRegRd_effect h
  | regWr r v => exact execRegWr_effect h
  | palRd n => exact execPalRd_effect h
  | palWr n c => exact execPalWr_effect h
  | pack8 px => exact execPack8_effect h
  | unpack8 w => exact execUnpack8_effect h
  | tileWrpx n px => exact execTileWrpx_effect h
  | tileRdpx n => exact execTileRdpx_effect h
  | tileWrw n ws => exact execTileWrw_effect h
  | tileRdw n => exact execTileRdw_effect h
  | mapPx wt x y => exact execMapPx_effect h
  | mapQuad wt k => exact execMapQuad_effect h
  | cmpBitmap pl => exact execCmpBitmap_effect h
  | blobRd j => exact execBlobRd_effect h
  | tileLdb dst src => exact execTileLdb_effect h
  | sprLoad16 dst k => exact execSprLoad16_effect h
  | descNew => exact building_effect (.inl rfl) rfl (by simp) (fun _ => by decide) h
  | descSize shape size =>
    exact building_effect (.inr rfl) rfl (by simp) (spareZero_of_spare (withSize_spare _ _ _)) h
  | descTile tile =>
    exact building_effect (.inr rfl) rfl (by simp) (spareZero_of_spare (withTile_spare _ _)) h
  | descPal palette =>
    exact building_effect (.inr rfl) rfl (by simp) (spareZero_of_spare (withPalette_spare _ _)) h
  | descX x => exact building_effect (.inr rfl) rfl (by simp) (spareZero_of_spare (withX_spare _ _)) h
  | descY y => exact building_effect (.inr rfl) rfl (by simp) (spareZero_of_spare (withY_spare _ _)) h
  | descRd => exact answering_effect (i := .descRd) (s := s) rfl (by simp) h
  | descDec w0 w1 w2 =>
    exact answering_effect (i := .descDec w0 w1 w2) (s := s) rfl (by simp) h
  | oamAlloc => exact execOamAlloc_effect h
  | oamWr slot => exact execOamWr_effect h
  | oamRd slot => exact execOamRd_effect h
  | oamClear => exact execOamClear_effect h
  | frameBegin => exact execFrameBegin_effect h

end Sys2Proof.Machine
end

