-- ==== Sys2Proof/Laws/PerInstr.lean ====
section
/-! SUPPORT. A family of lemmas, one per instruction: the words the encoder writes are framed as
spec/30_encoding.md R71 and R76 say. -/

namespace Sys2Proof.Laws

/-- The encoded instruction carries its own opcode and, if it is well-formed, a payload of the length
R76 requires. -/
def Framing.Statement (i : Instr) : Prop :=
  (encode i).op = i.opcode.code ∧
    (i.wf = true → ∀ n, i.opcode.payloadLen = some n → (encode i).pl.length = n)

/-- Closes a member of the family: the opcode by the field lemma, the length by computation. -/
theorem Framing.of_length {i : Instr} {a : Byte} {v : Half} {pl : List Word}
    (h : encode i = mkCommand i.opcode a v pl)
    (hl : i.wf = true → ∀ n, i.opcode.payloadLen = some n → pl.length = n) : Framing.Statement i := by
  refine ⟨?_, fun hw n hn => ?_⟩
  · rw [h, mkCommand_op]
  · rw [h, mkCommand_pl]
    exact hl hw n hn

theorem Framing.nop : Framing.Statement .nop :=
  Framing.of_length rfl fun _ _ hn => Option.some.inj hn

theorem Framing.statRd : Framing.Statement .statRd :=
  Framing.of_length rfl fun _ _ hn => Option.some.inj hn

theorem Framing.vblWait : Framing.Statement .vblWait :=
  Framing.of_length rfl fun _ _ hn => Option.some.inj hn

theorem Framing.rgnAddr (r : Region) (i : Half) : Framing.Statement (.rgnAddr r i) :=
  Framing.of_length rfl fun _ _ hn => Option.some.inj hn

theorem Framing.regRd (r : Region) : Framing.Statement (.regRd r) :=
  Framing.of_length rfl fun _ _ hn => Option.some.inj hn

theorem Framing.regWr (r : Region) (val : Half) : Framing.Statement (.regWr r val) :=
  Framing.of_length rfl fun _ _ hn => Option.some.inj hn

theorem Framing.palRd (i : Byte) : Framing.Statement (.palRd i) :=
  Framing.of_length rfl fun _ _ hn => Option.some.inj hn

theorem Framing.palWr (i : Byte) (c : Half) : Framing.Statement (.palWr i c) :=
  Framing.of_length rfl fun _ _ hn => Option.some.inj hn

theorem Framing.pack8 (px : List Byte) : Framing.Statement (.pack8 px) :=
  Framing.of_length rfl fun hw n hn => by
    simp only [Instr.wf, beq_iff_eq] at hw
    simp only [Instr.opcode, Opcode.payloadLen, Option.some.injEq] at hn
    rw [wordsOfBytes_length, hw]
    exact hn

theorem Framing.unpack8 (w : Word) : Framing.Statement (.unpack8 w) :=
  Framing.of_length rfl fun _ _ hn => Option.some.inj hn

theorem Framing.tileWrpx (t : Half) (px : List Byte) : Framing.Statement (.tileWrpx t px) :=
  Framing.of_length rfl fun hw n hn => by
    simp only [Instr.wf, beq_iff_eq] at hw
    simp only [Instr.opcode, Opcode.payloadLen, Option.some.injEq] at hn
    rw [wordsOfBytes_length, hw]
    exact hn

theorem Framing.tileRdpx (t : Half) : Framing.Statement (.tileRdpx t) :=
  Framing.of_length rfl fun _ _ hn => Option.some.inj hn

theorem Framing.tileWrw (t : Half) (ws : List Word) : Framing.Statement (.tileWrw t ws) :=
  Framing.of_length rfl fun hw n hn => by
    simp only [Instr.wf, beq_iff_eq] at hw
    simp only [Instr.opcode, Opcode.payloadLen, Option.some.injEq] at hn
    rw [hw]
    exact hn

theorem Framing.tileRdw (t : Half) : Framing.Statement (.tileRdw t) :=
  Framing.of_length rfl fun _ _ hn => Option.some.inj hn

theorem Framing.mapPx (wt x y : Half) : Framing.Statement (.mapPx wt x y) :=
  Framing.of_length rfl fun _ _ hn => Option.some.inj hn

theorem Framing.mapQuad (wt k : Half) : Framing.Statement (.mapQuad wt k) :=
  Framing.of_length rfl fun _ _ hn => Option.some.inj hn

theorem Framing.cmpBitmap (pl : List Word) : Framing.Statement (.cmpBitmap pl) :=
  Framing.of_length rfl fun _ _ hn => by cases hn

theorem Framing.blobRd (j : Word) : Framing.Statement (.blobRd j) :=
  Framing.of_length rfl fun _ _ hn => Option.some.inj hn

theorem Framing.tileLdb (dst : Half) (src : Word) : Framing.Statement (.tileLdb dst src) :=
  Framing.of_length rfl fun _ _ hn => Option.some.inj hn

theorem Framing.sprLoad16 (dst k : Half) : Framing.Statement (.sprLoad16 dst k) :=
  Framing.of_length rfl fun _ _ hn => Option.some.inj hn

theorem Framing.descNew : Framing.Statement .descNew :=
  Framing.of_length rfl fun _ _ hn => Option.some.inj hn

theorem Framing.descSize (shape size : BitVec 2) : Framing.Statement (.descSize shape size) :=
  Framing.of_length rfl fun _ _ hn => Option.some.inj hn

theorem Framing.descTile (tile : BitVec 10) : Framing.Statement (.descTile tile) :=
  Framing.of_length rfl fun _ _ hn => Option.some.inj hn

theorem Framing.descPal (palette : BitVec 4) : Framing.Statement (.descPal palette) :=
  Framing.of_length rfl fun _ _ hn => Option.some.inj hn

theorem Framing.descX (x : BitVec 9) : Framing.Statement (.descX x) :=
  Framing.of_length rfl fun _ _ hn => Option.some.inj hn

theorem Framing.descY (y : BitVec 8) : Framing.Statement (.descY y) :=
  Framing.of_length rfl fun _ _ hn => Option.some.inj hn

theorem Framing.descRd : Framing.Statement .descRd :=
  Framing.of_length rfl fun _ _ hn => Option.some.inj hn

theorem Framing.descDec (w0 w1 w2 : Half) : Framing.Statement (.descDec w0 w1 w2) :=
  Framing.of_length rfl fun _ _ hn => Option.some.inj hn

theorem Framing.oamAlloc : Framing.Statement .oamAlloc :=
  Framing.of_length rfl fun _ _ hn => Option.some.inj hn

theorem Framing.oamWr (slot : Half) : Framing.Statement (.oamWr slot) :=
  Framing.of_length rfl fun _ _ hn => Option.some.inj hn

theorem Framing.oamRd (slot : Half) : Framing.Statement (.oamRd slot) :=
  Framing.of_length rfl fun _ _ hn => Option.some.inj hn

theorem Framing.oamClear : Framing.Statement .oamClear :=
  Framing.of_length rfl fun _ _ hn => Option.some.inj hn

theorem Framing.frameBegin : Framing.Statement .frameBegin :=
  Framing.of_length rfl fun _ _ hn => Option.some.inj hn

end Sys2Proof.Laws
end

