-- ==== Sys2Proof/Machine/Pseudo.lean ====
section
/-! DEFINITION. The pseudo-commands of spec/30_encoding.md R86 as the commands they stand for, and the
assembler text of R85. Neither is hardware: no step uses them. -/

namespace Sys2Proof.Machine

/-- `SPRITE shape, size, tile, pal, x, y`: seven commands, in this order. -/
def pseudoSprite (f : DescFields) : List Instr :=
  [.descNew, .descSize f.shape f.size, .descTile f.tile, .descPal f.palette, .descX f.x, .descY f.y,
   .oamAlloc]

/-- `PAL.WRB b, e, c`: palette index `16·b + e` (spec/10_state.md R15). -/
def pseudoPalWrb (b e : BitVec 4) (c : Half) : Instr := .palWr (b ++ e) c

/-- `PAL.RDB b, e`. -/
def pseudoPalRdb (b e : BitVec 4) : Instr := .palRd (b ++ e)

/-- `TILE.FILL t, p`: eight rows of `p · 0x1111_1111`. -/
def pseudoTileFill (t : Half) (p : BitVec 4) : Instr :=
  .tileWrw t (List.replicate 8 (p.setWidth 32 * 0x11111111))

/-- `RGB(r, g, b)`: red in bits 4 to 0, green in 9 to 5, blue in 14 to 10 (R15; PRESUMED, log 12). -/
def pseudoRgb (r g b : BitVec 5) : Half := (0 : BitVec 1) ++ b ++ g ++ r

/-- The assembler name of a region (R85). -/
def regionName : Region → String
  | .dispcnt => "DISPCNT" | .keyinput => "KEYINPUT" | .backdrop => "BACKDROP"
  | .objpal => "OBJPAL" | .objtile => "OBJTILE" | .oam => "OAM"

/-- A number in the assembler text: decimal. -/
def asmNum {n : Nat} (x : BitVec n) : String := toString x.toNat

/-- A payload list: its elements in braces, separated by spaces. -/
def asmList {n : Nat} (xs : List (BitVec n)) : String :=
  (String.singleton (Char.ofNat 123)) ++ " ".intercalate (xs.map asmNum) ++
    String.singleton (Char.ofNat 125)

/-- The assembler text of an instruction (R85). -/
def asmText : Instr → String
  | .nop => "NOP"
  | .statRd => "STAT.RD"
  | .vblWait => "VBL.WAIT"
  | .rgnAddr r i => "RGN.ADDR " ++ regionName r ++ ", " ++ asmNum i
  | .regRd r => "REG.RD " ++ regionName r
  | .regWr r val => "REG.WR " ++ regionName r ++ ", " ++ asmNum val
  | .palRd i => "PAL.RD " ++ asmNum i
  | .palWr i c => "PAL.WR " ++ asmNum i ++ ", " ++ asmNum c
  | .pack8 px => "PACK8 " ++ asmList px
  | .unpack8 w => "UNPACK8 " ++ asmNum w
  | .tileWrpx t px => "TILE.WRPX " ++ asmNum t ++ ", " ++ asmList px
  | .tileRdpx t => "TILE.RDPX " ++ asmNum t
  | .tileWrw t ws => "TILE.WRW " ++ asmNum t ++ ", " ++ asmList ws
  | .tileRdw t => "TILE.RDW " ++ asmNum t
  | .mapPx wt x y => "MAP.PX " ++ asmNum wt ++ ", " ++ asmNum x ++ ", " ++ asmNum y
  | .mapQuad wt k => "MAP.QUAD " ++ asmNum wt ++ ", " ++ asmNum k
  | .cmpBitmap [] => "CMP.BITMAP"
  | .cmpBitmap (d :: px) =>
    "CMP.BITMAP " ++ asmNum (lowHalf d) ++ ", " ++ asmNum (highHalf d) ++ ", " ++ asmList px
  | .blobRd j => "BLOB.RD " ++ asmNum j
  | .tileLdb dst src => "TILE.LDB " ++ asmNum dst ++ ", " ++ asmNum src
  | .sprLoad16 dst k => "SPR.LOAD16 " ++ asmNum dst ++ ", " ++ asmNum k
  | .descNew => "DESC.NEW"
  | .descSize shape size => "DESC.SIZE " ++ asmNum shape ++ ", " ++ asmNum size
  | .descTile tile => "DESC.TILE " ++ asmNum tile
  | .descPal palette => "DESC.PAL " ++ asmNum palette
  | .descX x => "DESC.X " ++ asmNum x
  | .descY y => "DESC.Y " ++ asmNum y
  | .descRd => "DESC.RD"
  | .descDec w0 w1 w2 => "DESC.DEC " ++ asmNum w0 ++ ", " ++ asmNum w1 ++ ", " ++ asmNum w2
  | .oamAlloc => "OAM.ALLOC"
  | .oamWr slot => "OAM.WR " ++ asmNum slot
  | .oamRd slot => "OAM.RD " ++ asmNum slot
  | .oamClear => "OAM.CLEAR"
  | .frameBegin => "FRAME.BEGIN"

end Sys2Proof.Machine
end

