-- ==== Sys2Proof/Tests/Slice0.lean ====
section
/-! SUPPORT. The model's own tests. Expected values are those of spec/95_test_vectors.md, by their ids, or of
the tables a comment names; none comes from the model. After them, one witness for each obligation that has
hypotheses: a concrete state and operands that meet them, clause by clause. -/

namespace Sys2Proof.Tests

open Sys2Proof Sys2Proof.Machine

/-! ### Well-formedness: an ill-formed term for each check, and a well-formed one beside it -/

theorem test_wf_regRd : (Instr.regRd .objpal).wf = false ∧ (Instr.regRd .keyinput).wf = true := by decide

theorem test_wf_regWr : (Instr.regWr .keyinput 0).wf = false ∧ (Instr.regWr .backdrop 0).wf = true := by
  decide

theorem test_wf_pack8 : (Instr.pack8 [0, 1, 2, 3, 4, 5, 6]).wf = false ∧
    (Instr.pack8 [0, 1, 2, 3, 4, 5, 6, 255]).wf = true := by decide

theorem test_wf_tileWrpx : (Instr.tileWrpx 0 (List.replicate 63 0)).wf = false ∧
    (Instr.tileWrpx 0 (List.replicate 64 0)).wf = true := by decide

theorem test_wf_tileWrw : (Instr.tileWrw 0 (List.replicate 7 0)).wf = false ∧
    (Instr.tileWrw 1024 (List.replicate 8 0)).wf = true := by decide

/-! ### Decoding: for every constructor a word written out from R75, with the payload of R76 -/

theorem test_decode_sync :
    decode { cw := 0x00000000, pl := [] } = .ok .nop ∧ decode { cw := 0x01000000, pl := [] } = .ok .statRd ∧
      decode { cw := 0x02000000, pl := [] } = .ok .vblWait := by decide

/-- A10, A16, A13, A25, A24. -/
theorem test_decode_region :
    decode { cw := 0x1005007F, pl := [] } = .ok (.rgnAddr .oam 127) ∧
      decode { cw := 0x11000000, pl := [] } = .ok (.regRd .dispcnt) ∧
      decode { cw := 0x12027FFF, pl := [] } = .ok (.regWr .backdrop 0x7FFF) ∧
      decode { cw := 0x13110000, pl := [] } = .ok (.palRd 17) ∧
      decode { cw := 0x1411001F, pl := [] } = .ok (.palWr 17 0x001F) := by decide

/-- S3, T12, T22, T21. -/
theorem test_decode_tile :
    decode { cw := 0x20000000, pl := [0x0B0A0908, 0x0F0E0D0C] } =
        .ok (.pack8 [8, 9, 10, 11, 12, 13, 14, 15]) ∧
      decode { cw := 0x21000000, pl := [0xDEADBEEF] } = .ok (.unpack8 0xDEADBEEF) ∧
      decode { cw := 0x23000002, pl := [] } = .ok (.tileRdpx 2) ∧
      decode { cw := 0x240003FF, pl := [1, 2, 3, 4, 5, 6, 7, 8] } =
        .ok (.tileWrw 1023 [1, 2, 3, 4, 5, 6, 7, 8]) ∧
      decode { cw := 0x25000002, pl := [] } = .ok (.tileRdw 2) := by decide

/-- T20: 64 pixels, row r of them r to r + 7. -/
theorem test_decode_tileWrpx :
    decode { cw := 0x22000002, pl := [0x03020100, 0x07060504, 0x04030201, 0x08070605, 0x05040302, 0x09080706,
        0x06050403, 0x0A090807, 0x07060504, 0x0B0A0908, 0x08070605, 0x0C0B0A09, 0x09080706, 0x0D0C0B0A,
        0x0A090807, 0x0E0D0C0B] } =
      .ok (.tileWrpx 2 ((List.range 64).map fun j => BitVec.ofNat 8 (j / 8 + j % 8))) := by decide

/-- M5, M10, K13's head, B1, B5, B9. -/
theorem test_decode_mapper :
    decode { cw := 0x30000008, pl := [0x000A0013] } = .ok (.mapPx 8 19 10) ∧
      decode { cw := 0x31000008, pl := [3] } = .ok (.mapQuad 8 3) ∧
      decode { cw := 0x32000000, pl := [0x00080008] } = .ok (.cmpBitmap [0x00080008]) ∧
      decode { cw := 0x33000000, pl := [8] } = .ok (.blobRd 8) ∧
      decode { cw := 0x34000005, pl := [2] } = .ok (.tileLdb 5 2) ∧
      decode { cw := 0x35000064, pl := [1] } = .ok (.sprLoad16 100 1) := by decide

/-- DS10, DS12, DS15, DS17, DS19, DS21, DS23, DS25. -/
theorem test_decode_desc :
    decode { cw := 0x40000000, pl := [] } = .ok .descNew ∧
      decode { cw := 0x4100000B, pl := [] } = .ok (.descSize 2 3) ∧
      decode { cw := 0x420003FF, pl := [] } = .ok (.descTile 1023) ∧
      decode { cw := 0x4300000F, pl := [] } = .ok (.descPal 15) ∧
      decode { cw := 0x440001FF, pl := [] } = .ok (.descX 511) ∧
      decode { cw := 0x450000FF, pl := [] } = .ok (.descY 255) ∧
      decode { cw := 0x46000000, pl := [] } = .ok .descRd ∧
      decode { cw := 0x47000000, pl := [0x40640032, 0x00002004] } =
        .ok (.descDec 0x0032 0x4064 0x2004) := by decide

theorem test_decode_table :
    decode { cw := 0x48000000, pl := [] } = .ok .oamAlloc ∧
      decode { cw := 0x4900007F, pl := [] } = .ok (.oamWr 127) ∧
      decode { cw := 0x4A00007F, pl := [] } = .ok (.oamRd 127) ∧
      decode { cw := 0x4B000000, pl := [] } = .ok .oamClear ∧
      decode { cw := 0x4C000000, pl := [] } = .ok .frameBegin := by decide

/-- Illegal encodings by the check of R84 that fails: X1, X3, X4; Y6, T28, A19, DS14, DS20; A12, A18, A17, X14;
T9, T29; M21, DS27. -/
theorem test_decode_refuses :
    decode { cw := 0x03000000, pl := [] } = .error .unknownOpcode ∧
      decode { cw := 0xFF000000, pl := [] } = .error .unknownOpcode ∧
      decode { cw := 0x15000000, pl := [1] } = .error .unknownOpcode ∧
      decode { cw := 0x00010000, pl := [] } = .error .reservedBits ∧
      decode { cw := 0x22010003, pl := [] } = .error .reservedBits ∧
      decode { cw := 0x11000001, pl := [] } = .error .reservedBits ∧
      decode { cw := 0x41000010, pl := [] } = .error .reservedBits ∧
      decode { cw := 0x44000200, pl := [] } = .error .reservedBits ∧
      decode { cw := 0x10060000, pl := [] } = .error .reservedRegion ∧
      decode { cw := 0x11030000, pl := [] } = .error .reservedRegion ∧
      decode { cw := 0x120103FF, pl := [] } = .error .reservedRegion ∧
      decode { cw := 0x100603E8, pl := [] } = .error .reservedRegion ∧
      decode { cw := 0x20000000, pl := [0x03020100] } = .error .payloadLength ∧
      decode { cw := 0x24000005, pl := List.replicate 7 0 } = .error .payloadLength ∧
      decode { cw := 0x31000008, pl := [0x00010000] } = .error .payloadBits ∧
      decode { cw := 0x47000000, pl := [0, 0x00010000] } = .error .payloadBits := by decide

/-- Operands at the top of their ranges survive encoding: every field at all ones. -/
theorem test_encode_all_ones :
    encode (.descSize 3 3) = { cw := 0x4100000F, pl := [] } ∧
      encode (.descTile 1023) = { cw := 0x420003FF, pl := [] } ∧
      encode (.mapPx 0xFFFF 0xFFFF 0xFFFF) = { cw := 0x3000FFFF, pl := [0xFFFFFFFF] } ∧
      encode (.descDec 0xFFFF 0xFFFF 0xFFFF) = { cw := 0x47000000, pl := [0xFFFFFFFF, 0x0000FFFF] } := by
  decide

/-! ### One step of each instruction -/

/-- The state a result goes on in. -/
def after : Result → State
  | .next s => s
  | .fault _ => State.reset
  | .refused _ => State.reset

/-- The response a result ends with: its status and its words. -/
def answer (r : Result) : Option (Status × List Word) :=
  (after r).rsp.head?.map fun x => (x.status, x.words)

/-- A CORE with `desc` as in DS1. -/
def withDS1 : State := { State.reset with desc := { w0 := 0x0032, w1 := 0x4064, w2 := 0x2004 } }

/-- The blob of K5: a sheet of 16 by 8 pixels with index x. -/
def withK5 : State :=
  { State.reset with
    blob := List.replicate 8 0x76543210 ++ List.replicate 8 0xFEDCBA98, sheetWt := 2, sheetHt := 1 }

/-- The blob of K6: a sheet of 4 by 2 tiles, tile n all of index n + 1. -/
def withK6 : State :=
  { State.reset with
    blob := (List.range 64).map (fun j => BitVec.ofNat 32 ((j / 8 + 1) * 0x11111111))
    sheetWt := 4, sheetHt := 2 }

/-- A CORE with these model arguments (R6), the blob memory of eight tiles. -/
def withParams (ch : BitVec 2) (policy : ClearPolicy) (s : State) : State :=
  { s with params := { indexChannel := ch, blobMaxTiles := 8, clearPolicy := policy } }

/-- A halted CORE. -/
def halted (code : BitVec 4) : State := { State.reset with faultCode := code }

/-- X7, Y4. -/
theorem test_nop : answer (exec .nop (halted 1)) = some (.ok, []) := by decide

/-- X6. -/
theorem test_statRd_halted : answer (exec .statRd (halted 1)) = some (.ok, [0x100, 0, 0]) := by decide

/-- Y3: 128 allocations and the blob of K6. -/
theorem test_statRd : answer (exec .statRd { withK6 with allocCtr := 128 }) =
    some (.ok, [0x00001080, 0x00020004, 0x00000040]) := by decide

/-- X10. -/
theorem test_vblWait_halted : answer (exec .vblWait (halted 2)) = some (.halted, []) ∧
    (after (exec .vblWait (halted 2))).waiting = false := by decide

/-- A5, A6. -/
theorem test_rgnAddr : answer (exec (.rgnAddr .objpal 255) State.reset) = some (.ok, [0x050003FE]) ∧
    answer (exec (.rgnAddr .objpal 256) State.reset) = some (.outOfRange, []) := by decide

/-- A13 and A14. -/
theorem test_regWr_then_regRd :
    answer (exec (.regRd .backdrop) (after (exec (.regWr .backdrop 0x7FFF) State.reset))) =
      some (.ok, [0x00007FFF]) := by decide

/-- A17 as an instruction. -/
theorem test_regWr_keyinput : answer (exec (.regWr .keyinput 0x03FF) State.reset) =
    some (.illegalCommand, []) := by decide

/-- A26: bytes at 0x050003FE and 0x050003FF, the low byte first (R41). -/
theorem test_palWr : (after (exec (.palWr 255 0x7C00) State.reset)).mem.cells =
    [(0x050003FE, 0x00), (0x050003FF, 0x7C)] := by decide

/-- A27. -/
theorem test_palRd : answer (exec (.palRd 0) (after (exec (.palWr 0 0xFFFF) State.reset))) =
    some (.ok, [0x0000FFFF]) := by decide

/-- S2, T8. -/
theorem test_pack8 : answer (exec (.pack8 [0, 1, 2, 3, 4, 5, 6, 7]) State.reset) = some (.ok, [0x76543210]) ∧
    answer (exec (.pack8 [0, 0, 0, 0, 0, 0, 0, 255]) State.reset) = some (.formatError, []) := by decide

/-- T12. -/
theorem test_unpack8 : answer (exec (.unpack8 0xDEADBEEF) State.reset) =
    some (.ok, [0x0B0E0E0F, 0x0D0E0A0D]) := by decide

/-- T20's row 1 at 0x0601_0044, and T26: the index is checked before the pixels. -/
theorem test_tileWrpx :
    (after (exec (.tileWrpx 2 ((List.range 64).map fun j => BitVec.ofNat 8 (j / 8 + j % 8))) State.reset)).mem.word
        0x06010044 = 0x87654321 ∧
      answer (exec (.tileWrpx 1024 (List.replicate 64 16)) State.reset) = some (.outOfRange, []) := by decide

/-- T27 with the first pixel bad: nothing is stored. -/
theorem test_tileWrpx_bad : (after (exec (.tileWrpx 3 (List.replicate 64 16)) State.reset)).mem.cells = [] ∧
    answer (exec (.tileWrpx 3 (List.replicate 64 16)) State.reset) = some (.formatError, []) := by decide

/-- T24. -/
theorem test_tileRdpx :
    answer (exec (.tileRdpx 0) (after (exec (.tileWrw 0 (List.replicate 8 0xFFFFFFFF)) State.reset))) =
      some (.ok, List.replicate 16 0x0F0F0F0F) := by decide

/-- T23's slot, V1's words: row 0 first. -/
theorem test_tileRdw :
    answer (exec (.tileRdw 1023) (after (exec (.tileWrw 1023 [1, 2, 3, 4, 5, 6, 7, 8]) State.reset))) =
      some (.ok, [1, 2, 3, 4, 5, 6, 7, 8]) := by decide

/-- V1: an event between the stores of row 3 and row 4 latches rows 0 to 3. -/
theorem test_tileWrw_event :
    (after (exec (.tileWrw 0 [1, 2, 3, 4, 5, 6, 7, 8])
      { State.reset with agenda := [.core, .core, .core, .vblank] })).vis.cells.map Prod.fst =
      (List.range 16).map (0x06010000 + ·) := by decide

/-- R30, one value an event: two events after row 0 and one after row 2 hand the display three values. -/
theorem test_tileWrw_frames :
    ((after (exec (.tileWrw 0 [1, 2, 3, 4, 5, 6, 7, 8])
      { State.reset with agenda := [.vblank, .vblank, .core, .core, .vblank] })).frames.map fun m => m.cells.length)
      = [12, 4, 4] := by decide

/-- M9, M9a. -/
theorem test_mapPx : answer (exec (.mapPx 65535 65535 65535) State.reset) = some (.ok, [536805376, 63]) ∧
    answer (exec (.mapPx 8 64 0) State.reset) = some (.outOfRange, []) := by decide

/-- M18, M19. -/
theorem test_mapQuad :
    answer (exec (.mapQuad 65534 65535) State.reset) = some (.ok, [262138, 262139, 327672, 327673]) ∧
      answer (exec (.mapQuad 7 0) State.reset) = some (.formatError, []) := by decide

/-- K4 under index channel 0. -/
theorem test_cmpBitmap :
    answer (exec (.cmpBitmap (0x00080008 :: (List.range 64).map fun j => BitVec.ofNat 32 (j % 8)))
      (withParams 0 .explicitOnly State.reset)) = some (.ok, List.replicate 8 0x76543210) := by decide

/-- K8's channel and K18's order: the blob is looked at before the dimensions. -/
theorem test_cmpBitmap_faults :
    answer (exec (.cmpBitmap (0x00080008 :: List.replicate 64 0xAABBCC00))
        (withParams 1 .explicitOnly State.reset)) = some (.formatError, []) ∧
      answer (exec (.cmpBitmap [0x0008000C]) withK5) = some (.blobLocked, []) := by decide

/-- B1, B2. -/
theorem test_blobRd : answer (exec (.blobRd 8) withK5) = some (.ok, [0xFEDCBA98]) ∧
    answer (exec (.blobRd 16) withK5) = some (.outOfRange, []) := by decide

/-- B4 at its first and last address; B5. -/
theorem test_tileLdb : (after (exec (.tileLdb 5 1) withK5)).mem.word 0x060100A0 = 0xFEDCBA98 ∧
    (after (exec (.tileLdb 5 1) withK5)).mem.word 0x060100BC = 0xFEDCBA98 ∧
    answer (exec (.tileLdb 5 2) withK5) = some (.outOfRange, []) := by decide

/-- B9: the first store of each of the four tiles, slots 100 to 103. -/
theorem test_sprLoad16 : answer (exec (.sprLoad16 100 1) withK6) = some (.ok, []) ∧
    [0, 8, 16, 24].map (fun j => (quadStores withK6 100 (quadTiles 4 1))[j]?) =
      [some (.word 0x06010C80 0x33333333), some (.word 0x06010CA0 0x44444444),
       some (.word 0x06010CC0 0x77777777), some (.word 0x06010CE0 0x88888888)] := by decide

/-- B10, B11, and B13's odd sheet: the checks of R149. -/
theorem test_sprLoad16_faults : answer (exec (.sprLoad16 0 2) withK6) = some (.outOfRange, []) ∧
    answer (exec (.sprLoad16 1021 0) withK6) = some (.outOfRange, []) ∧
    answer (exec (.sprLoad16 0 0) { withK6 with sheetWt := 1 }) = some (.formatError, []) := by decide

/-- DS10. -/
theorem test_descNew : (after (exec .descNew withDS1)).desc = { w0 := 0, w1 := 0, w2 := 0 } := by decide

/-- DS12: replaced, not or-ed. -/
theorem test_descSize :
    (after (exec (.descSize 2 3) (after (exec (.descSize 0 1) State.reset)))).desc =
      { w0 := 0x8000, w1 := 0xC000, w2 := 0 } := by decide

/-- DS15 and DS17: the tile stays under the palette bank. -/
theorem test_descTile_descPal :
    (after (exec (.descPal 15) (after (exec (.descTile 1023) State.reset)))).desc =
      { w0 := 0, w1 := 0, w2 := 0xF3FF } := by decide

/-- The palette bank stays under the tile: DS1 with tile 0. -/
theorem test_descTile : (after (exec (.descTile 0) withDS1)).desc =
    { w0 := 0x0032, w1 := 0x4064, w2 := 0x2000 } := by decide

/-- DS24. -/
theorem test_descX : (after (exec (.descX 7) withDS1)).desc = { w0 := 0x0032, w1 := 0x4007, w2 := 0x2004 } := by
  decide

/-- DS21. -/
theorem test_descY :
    (after (exec (.descY 255) { State.reset with desc := { w0 := 0xC000, w1 := 0, w2 := 0 } })).desc.w0 =
      0xC0FF := by decide

/-- DS23. -/
theorem test_descRd : answer (exec .descRd withDS1) = some (.ok, [0x40640032, 0x00002004]) := by decide

/-- DS25, DS26. -/
theorem test_descDec :
    answer (exec (.descDec 0x0032 0x4064 0x2004) State.reset) = some (.ok, [0, 1, 4, 2, 100, 50]) ∧
      answer (exec (.descDec 0xFFFF 0xFFFF 0xFFFF) State.reset) = some (.ok, [3, 3, 1023, 15, 511, 255]) := by
  decide

/-- DS36 from DS1. -/
theorem test_oamAlloc : answer (exec .oamAlloc { withDS1 with allocCtr := 127 }) = some (.ok, [127]) ∧
    (after (exec .oamAlloc { withDS1 with allocCtr := 127 })).allocCtr = 128 := by decide

/-- DS37. -/
theorem test_oamAlloc_full : answer (exec .oamAlloc { withDS1 with allocCtr := 128 }) = some (.outOfRange, []) ∧
    (after (exec .oamAlloc { withDS1 with allocCtr := 128 })).mem.cells = [] := by decide

/-- DS30: six bytes at 0x0700_03F8, bytes 6 and 7 of the entry untouched. -/
theorem test_oamWr : (after (exec (.oamWr 127) withDS1)).mem.cells =
    [(0x070003F8, 0x32), (0x070003F9, 0x00), (0x070003FA, 0x64), (0x070003FB, 0x40), (0x070003FC, 0x04),
     (0x070003FD, 0x20)] := by decide

/-- DS31. -/
theorem test_oamRd : answer (exec (.oamRd 127) (after (exec (.oamWr 127) withDS1))) =
    some (.ok, [0x40640032, 0x00002004]) := by decide

/-- DS38: the first and the last of the 128 stores, in ascending order. -/
theorem test_oamClear : clearStores.length = 128 ∧
    clearStores.head? = some (.desc 0x07000000 { w0 := 0, w1 := 0, w2 := 0 }) ∧
    clearStores.getLast? = some (.desc 0x070003F8 { w0 := 0, w1 := 0, w2 := 0 }) := by decide +kernel

/-- DS39. -/
theorem test_frameBegin :
    (after (exec .frameBegin (withParams 0 .explicitOnly { withDS1 with allocCtr := 3 }))).allocCtr = 0 ∧
      (after (exec .frameBegin (withParams 0 .explicitOnly { withDS1 with allocCtr := 3 }))).mem.cells = [] := by
  decide

/-- X8: a halted CORE answers an illegal NOP with `Halted` and keeps its fault code. -/
theorem test_illegal_halted :
    answer (runCommand { cw := 0x00000001, pl := [] } (halted 1)) = some (.halted, []) ∧
      (after (runCommand { cw := 0x00000001, pl := [] } (halted 1))).faultCode = 1 := by decide

/-- The first step after reset runs the command placed for it: A10. -/
theorem test_step_withFetchWord : answer (step (State.reset.withFetchWord 32 0x1005007F)) =
    some (.ok, [0x070003F8]) := by decide

/-! ### Witnesses: for each obligation with hypotheses, a state and operands that meet them -/

/-- A CORE in the middle of things: a sheet of two by two tiles, 127 slots allocated, spare bits zero. -/
def busy : State :=
  { State.reset with
    desc := { w0 := 0x0032, w1 := 0x4064, w2 := 0x2004 }
    allocCtr := 127
    blob := List.replicate 32 0x76543210
    sheetWt := 2
    sheetHt := 2 }

/-- A pending VBL.WAIT with keys and an instant before the event. -/
def waitingCore : State := { State.reset with waiting := true, agenda := [.keys 0x3F6, .core, .vblank] }

/-- The smallest bitmap, all of index 0. -/
def smallBitmap : List Word := pairWord 8 8 :: List.replicate 64 0

/-- A CORE without a blob whose blob memory holds eight tiles. -/
def fresh : State := withParams 2 .everyFrame State.reset

/-- R241 with R52: an event after four rows of TILE.WRW and a reset after six: no response, and the display
has been handed the four rows. -/
theorem test_step_rstDuring :
    ((after (step { State.reset with
        agenda := [.rstDuring [.core, .core, .core, .vblank, .core, .core]]
        cmds := [{ cw := 0x24000000, pl := [1, 2, 3, 4, 5, 6, 7, 8] }] })).frames.map fun m => m.cells.length) = [16] ∧
      (after (step { State.reset with
        agenda := [.rstDuring [.core, .core, .core, .vblank, .core, .core]]
        cmds := [{ cw := 0x24000000, pl := [1, 2, 3, 4, 5, 6, 7, 8] }] })).rsp = [] := by decide

theorem witness_DecodeOfEncodeIsTheInstruction :
    (Instr.regRd .keyinput).wf = true ∧ (Instr.pack8 (List.replicate 8 255)).wf = true ∧
      (Instr.tileWrpx 0xFFFF (List.replicate 64 255)).wf = true ∧
      (Instr.tileWrw 1023 (List.replicate 8 0xFFFFFFFF)).wf = true ∧ (Instr.cmpBitmap []).wf = true := by
  decide

theorem witness_AcceptedCommandEncodesBack :
    decode { cw := 0x4100000F, pl := [] } = .ok (.descSize 3 3) ∧
      (Instr.regWr .keyinput 0).wf = false ∧ (Instr.tileWrw 0 [0]).wf = false ∧ busy.faultCode = 0 := by decide

theorem witness_IllegalExactlyByTheFiveChecks :
    IllegalEncoding { cw := 0x4D000000, pl := [] } ∧ IllegalEncoding { cw := 0x42000400, pl := [] } ∧
      IllegalEncoding { cw := 0x10060000, pl := [] } ∧ IllegalEncoding { cw := 0x20000000, pl := [0] } ∧
      IllegalEncoding { cw := 0x31000008, pl := [0x00010000] } ∧ State.reset.faultCode = 0 ∧
      (halted 4).faultCode ≠ 0 := by
  refine ⟨.inl ?_, .inr (.inl ?_), .inr (.inr (.inl ?_)), .inr (.inr (.inr (.inl ⟨2, ?_⟩))),
    .inr (.inr (.inr (.inr ?_))), by decide, by decide⟩
  · unfold UnknownOp; decide
  · unfold ReservedBitSet; decide
  · unfold ReservedSelector; decide
  · decide
  · unfold ReservedPayloadBit; decide

theorem witness_StepRunsTheDecodedInstruction :
    (State.reset.offer { cw := 0x1005007F, pl := [] }).cmds = { cw := 0x1005007F, pl := [] } :: [] ∧
      (State.reset.offer { cw := 0x1005007F, pl := [] }).waiting = false ∧
      (State.reset.offer { cw := 0x1005007F, pl := [] }).agenda = .core :: [] ∧
      ({ State.reset with cmds := [{ cw := 0x1005007F, pl := [] }] } : State).agenda = [] ∧
      decode { cw := 0x1005007F, pl := [] } = .ok (.rgnAddr .oam 127) ∧
      (Instr.rgnAddr .oam 127).wf = true ∧
      decodeTableWord 32 0x1005007F = some (.rgnAddr .oam 127) := by decide

/-- Besides State.reset, of which the obligation of its own speaks: a pending wait that the step releases. -/
theorem witness_StepKeepsTheInvariant :
    ∃ s t : State, s.Inv ∧ step s = .next t ∧ s.waiting = true ∧ t.waiting = false :=
  ⟨{ State.reset with waiting := true, agenda := [.vblank] }, _,
    ⟨by decide, by decide, by decide, by decide, by decide, by decide, by decide, by decide, by decide,
      by simp [State.reset], by decide, by decide⟩, rfl, rfl, rfl⟩

theorem witness_ResetLeavesInternalRegistersZero :
    ({ busy with agenda := [.rst, .core] } : State).agenda = .rst :: [.core] ∧ Move.rst.isReset = true ∧
      ({ busy with agenda := [.rstDuring [.vblank]] } : State).agenda = .rstDuring [.vblank] :: [] ∧
      (Move.rstDuring [.vblank]).isReset = true ∧
      (∃ t, exec .oamAlloc (halted 2) = .next t) ∧ (halted 2).faultCode ≠ 0 ∧
      (∃ t, exec .oamAlloc busy = .next t) ∧ busy.blob ≠ [] :=
  ⟨rfl, rfl, rfl, rfl, ⟨_, rfl⟩, by decide, ⟨_, rfl⟩, by decide⟩

/-- The two resets without a command, one inside OAM.CLEAR, and the prefix clause at its first and last row. -/
theorem witness_ResetAbandonsTheCommand :
    ({ State.reset with agenda := [.rst] } : State).agenda = .rst :: [] ∧
      ({ waitingCore with agenda := [.rstDuring [.core]] } : State).waiting = true ∧
      ({ waitingCore with agenda := [.rstDuring [.core]] } : State).agenda = .rstDuring [.core] :: [] ∧
      ({ busy with cmds := [{ cw := 0x4B000000, pl := [] }] } : State).waiting = false ∧
      ({ busy with cmds := [{ cw := 0x4B000000, pl := [] }] } : State).cmds = { cw := 0x4B000000, pl := [] } :: [] ∧
      ({ busy with agenda := [.rstDuring [.keys 0, .vblank]] } : State).agenda =
        .rstDuring [.keys 0, .vblank] :: [] ∧
      ({ busy with agenda := [.rstDuring [.vblank]] } : State).agenda =
        .rstDuring (List.replicate 0 .core ++ [.vblank]) :: [] ∧
      ({ busy with agenda := [.rstDuring (List.replicate 7 .core ++ [.vblank])] } : State).agenda =
        .rstDuring (List.replicate 7 .core ++ [.vblank]) :: [] ∧
      decode { cw := 0x240003FF, pl := List.replicate 8 1 } = .ok (.tileWrw 1023 (List.replicate 8 1)) ∧
      busy.faultCode = 0 ∧ (1023 : Half).toNat < 1024 := by decide

theorem witness_FaultChangesOnlyTheFaultCode :
    (∃ t, exec (.rgnAddr .oam 128) State.reset = .next t ∧
      t.rsp = { status := FaultKind.outOfRange.status, words := [] } :: State.reset.rsp) ∧
      Instr.oamClear ≠ .nop ∧ Instr.oamClear ≠ .statRd ∧ (halted 15).faultCode ≠ 0 :=
  ⟨⟨_, rfl, rfl⟩, by decide, by decide, by decide⟩

theorem witness_EveryCommandPassesThePrologue :
    (halted 1).faultCode ≠ 0 ∧ decode { cw := 0x01000000, pl := [] } = .ok .statRd ∧
      decode { cw := 0x00000001, pl := [] } = .error .reservedBits ∧ State.reset.faultCode = 0 ∧
      decode { cw := 0x4B000000, pl := [] } = .ok .oamClear ∧
      (∀ m ∈ ({ halted 1 with agenda := [.vblank, .rst] } : State).agenda.head?, m.isReset = false) ∧
      (∀ m ∈ ({ halted 1 with agenda := [.keys 0] } : State).agenda.head?, m.isReset = false) ∧
      (∃ t, step { halted 1 with agenda := [.vblank, .rst] } = .next t) ∧
      ∃ t, step { halted 1 with agenda := [.keys 0] } = .next t :=
  ⟨by decide, by decide, by decide, by decide, by decide, by decide, by decide, ⟨_, rfl⟩, ⟨_, rfl⟩⟩

theorem witness_OnlyResetClearsTheFaultCode :
    (halted 4).faultCode ≠ 0 ∧ (∃ t, step (halted 4) = .next t ∧ t.faultCode = 4) ∧
      ∃ t, step { halted 4 with agenda := [.rst] } = .next t ∧ t.faultCode = 0 :=
  ⟨by decide, ⟨_, rfl, rfl⟩, ⟨_, rfl, rfl⟩⟩

/-- For OneResponseOfTheRightLength, CommandsDoNotWriteVis and CommandsDoNotReadVis: an instruction that
completes, one that faults, one that stores. -/
theorem witness_AnyInstruction :
    (∃ t, exec .descNew busy = .next t) ∧ (∃ t, exec (.oamWr 128) busy = .next t ∧ t.faultCode ≠ 0) ∧
      (∃ t, exec (.oamWr 127) busy = .next t ∧ t.mem ≠ busy.mem) ∧ Instr.oamClear ≠ .vblWait :=
  ⟨⟨_, rfl⟩, ⟨_, rfl, by decide⟩, ⟨_, rfl, by decide⟩, by decide⟩

theorem witness_EventInsideACommandSeesAPrefix :
    State.reset.faultCode = 0 ∧ (1023 : Half).toNat < 1024 ∧ (List.replicate 8 (0 : Word)).length = 8 ∧
      ({ State.reset with agenda := List.replicate 6 .core ++ [.vblank, .core] } : State).agenda =
        List.replicate 6 .core ++ .vblank :: [.core] ∧
      ({ State.reset with agenda := List.replicate 126 .core ++ [.vblank] } : State).agenda =
        List.replicate 126 .core ++ .vblank :: [] ∧ Move.vblank ∉ [Move.core] := by decide

/-- Eight stores of one command, an event after the seventh; a fault. -/
theorem witness_EventSeesAPrefixOfTheStores :
    (∃ t, exec (.tileWrw 0 (List.replicate 8 0)) State.reset = .next t ∧
      t.rsp = { status := .ok, words := [] } :: State.reset.rsp) ∧
      6 + 1 < storeCount .explicitOnly (.tileWrw 0 (List.replicate 8 0)) ∧ Move.vblank ∉ [Move.core] ∧
      [2, 0, 1, 0, 0, 0, 3].length + 1 = storeCount .explicitOnly (.tileWrw 0 (List.replicate 8 0)) ∧
      ∃ t, exec (.tileWrw 1024 (List.replicate 8 0)) State.reset = .next t ∧
        t.rsp = { status := FaultKind.outOfRange.status, words := [] } :: State.reset.rsp :=
  ⟨⟨_, rfl, rfl⟩, by decide, by decide, by decide, ⟨_, rfl, rfl⟩⟩

theorem witness_VblankEventLatchesVis :
    ({ halted 1 with agenda := [.vblank, .core] } : State).agenda = .vblank :: [.core] ∧
      ({ waitingCore with agenda := [.vblank] } : State).waiting = true ∧
      ({ busy with agenda := [.keys 0x3FE] } : State).agenda = .keys 0x3FE :: [] := by decide

theorem witness_VblWaitPendsUntilTheEvent : State.reset.faultCode = 0 ∧ (halted 3).faultCode ≠ 0 := by decide

theorem witness_PendingWaitIsReleased :
    waitingCore.waiting = true ∧ ∀ m ∈ waitingCore.agenda, m.isReset = false := by decide

theorem witness_OnlyAllocAndFrameWriteTheCounter :
    ∃ t, exec .oamAlloc busy = .next t ∧ t.allocCtr ≠ busy.allocCtr := ⟨_, rfl, by decide⟩

theorem witness_BlobIsWrittenOnlyWhileEmpty :
    ∃ t, exec (.cmpBitmap smallBitmap) fresh = .next t ∧ t.sheetWt ≠ fresh.sheetWt :=
  ⟨_, rfl, by decide⟩

theorem witness_OnlyBuildersWriteTheDescriptor :
    ∃ t, exec (.descX 511) State.reset = .next t ∧ t.desc ≠ State.reset.desc := ⟨_, rfl, by decide⟩

/-- KEYINPUT, byte 6 of the last slot; and a command that does not store. -/
theorem witness_CommandsStoreOnlyToElements :
    storageByte 0x04000130 = false ∧ storageByte 0x070003FE = false ∧ storageByte 0x06018000 = false ∧
      isStoring .descNew = false ∧ (∃ t, exec .descNew busy = .next t) ∧
      ∃ t, exec (.oamWr 127) busy = .next t :=
  ⟨by decide, by decide, by decide, by decide, ⟨_, rfl⟩, ⟨_, rfl⟩⟩

/-- An index at either side of every count. -/
theorem witness_IndexChecksTheCount : State.reset.faultCode = 0 ∧ 127 < regionCount .oam ∧
    regionCount .oam ≤ 128 ∧ 0 < regionCount .keyinput ∧ regionCount .keyinput ≤ 1 ∧
    255 < regionCount .objpal ∧ 1023 < regionCount .objtile := by decide

theorem witness_RegionElementsDoNotOverlap :
    1023 < regionCount .objtile ∧ 31 < regionElemSize .objtile ∧
      elemAddr .objtile 1023 + 31 = elemAddr .objtile 1023 + 31 := by decide

/-- An index at either side of the count, in the first and the last row of the region table. -/
theorem witness_RgnAddrAnswersTheAddress : State.reset.faultCode = 0 ∧ 6 ≤ (6 : Byte).toNat ∧
    (Region.oam, (5 : Byte), 0x07000000, 128, 8) ∈
      [(Region.dispcnt, (0 : Byte), 0x04000000, 1, 2), (Region.oam, 5, 0x07000000, 128, 8)] ∧
    (127 : Half).toNat < 128 ∧ 128 ≤ (128 : Half).toNat ∧ (0 : Half).toNat < 1 ∧ 1 ≤ (1 : Half).toNat := by
  decide

theorem witness_RegRdReadsTheRegister : busy.faultCode = 0 ∧ 3 ≤ (3 : Byte).toNat ∧ (1 : Half) ≠ 0 := by decide

theorem witness_RegWrStoresTheRegister : busy.faultCode = 0 ∧
    (Region.backdrop = .dispcnt ∨ Region.backdrop = .backdrop) ∧ (1 : Byte) ≠ 0 ∧ (1 : Byte) ≠ 2 := by decide

theorem witness_PalWrStoresTheColour : busy.faultCode = 0 ∧ 255 < 256 ∧ 255 ≠ (254 : Byte).toNat := by decide

theorem witness_PalRdReadsTheColour : busy.faultCode = 0 ∧ (0x8000 : Half) ≠ 0 := by decide

/-- Eight and sixty-four legal pixels, and one pixel just above the limit. -/
theorem witness_PackedWordHoldsPixelInLane :
    ([0, 1, 2, 3, 4, 5, 6, 15] : List Byte).length = 8 ∧
      (∀ p ∈ ([0, 1, 2, 3, 4, 5, 6, 15] : List Byte), p.toNat ≤ 15) ∧ State.reset.faultCode = 0 ∧
      (∃ p ∈ ([0, 1, 2, 3, 4, 5, 6, 16] : List Byte), 15 < p.toNat) ∧
      (∃ p ∈ List.replicate 64 (16 : Byte), 15 < p.toNat) ∧ (1023 : Half).toNat < 1024 :=
  ⟨rfl, by decide, rfl, ⟨16, by decide, by decide⟩, ⟨16, by simp, by decide⟩, by decide⟩

theorem witness_UnpackInvertsPack : (List.replicate 8 (15 : Byte)).length = 8 ∧
    ∀ p ∈ List.replicate 8 (15 : Byte), p.toNat ≤ 15 := by decide

theorem witness_PackTileRoundTrips : (List.replicate 64 (15 : Byte)).length = 64 ∧
    (∀ p ∈ List.replicate 64 (15 : Byte), p.toNat ≤ 15) ∧ (List.replicate 8 (0 : Word)).length = 8 := by decide

theorem witness_PackCommandPacksEightPixels : State.reset.faultCode = 0 ∧
    (List.replicate 8 (15 : Byte)).length = 8 ∧ (∀ p ∈ List.replicate 8 (15 : Byte), p.toNat ≤ 15) ∧
    (∃ p ∈ List.replicate 8 (16 : Byte), 15 < p.toNat) ∧ ([0x03020100] : List Word).length ≠ 2 :=
  ⟨rfl, rfl, by decide, ⟨16, by simp, by decide⟩, by decide⟩

theorem witness_UnpackCommandAnswersPixelBytes : busy.faultCode = 0 ∧ 3 < 4 := by decide

theorem witness_TileWrpxStoresThePixels : busy.faultCode = 0 ∧ (List.replicate 64 (15 : Byte)).length = 64 ∧
    (1023 : Half).toNat < 1024 ∧ (∀ p ∈ List.replicate 64 (15 : Byte), p.toNat ≤ 15) ∧
    1024 ≤ (1024 : Half).toNat ∧ (∃ p ∈ List.replicate 64 (16 : Byte), 15 < p.toNat) ∧
    (List.replicate 16 (0 : Word)).length = 16 :=
  ⟨rfl, by decide, by decide, by decide, by decide, ⟨16, by simp, by decide⟩, by decide⟩

theorem witness_TileReadsAnswerTheTile : busy.faultCode = 0 ∧ (1023 : Half).toNat < 1024 ∧
    1024 ≤ (1024 : Half).toNat := by decide

theorem witness_TileWrwStoresTheRows : busy.faultCode = 0 ∧ (List.replicate 8 (0 : Word)).length = 8 ∧
    (1023 : Half).toNat < 1024 ∧ 1024 ≤ (1024 : Half).toNat := by decide

theorem witness_PixelsWrittenAreReadBack : State.reset.faultCode = 0 ∧ (1023 : Half).toNat < 1024 ∧
    (List.replicate 64 (15 : Byte)).length = 64 ∧ (∀ p ∈ List.replicate 64 (15 : Byte), p.toNat ≤ 15) ∧
    ∃ u, exec (.tileWrpx 1023 (List.replicate 64 15)) State.reset = .next u :=
  ⟨rfl, by decide, by decide, by decide, ⟨_, rfl⟩⟩

theorem witness_MapPxAnswersTileAndOffset : busy.faultCode = 0 ∧ (8 : Half) ≠ 0 ∧
    (63 : Half).toNat < 8 * (8 : Half).toNat ∧ (0 : Half) = 0 ∧ 8 * (8 : Half).toNat ≤ (64 : Half).toNat := by
  decide

theorem witness_MapQuadAnswersTheFourTiles : busy.faultCode = 0 ∧ (2 : Half) ≠ 0 ∧
    (2 : Half).toNat % 2 = 0 ∧ ((0 : Half) = 0 ∨ (0 : Half).toNat % 2 = 1) ∧
    ((1 : Half) = 0 ∨ (1 : Half).toNat % 2 = 1) ∧ 2 ^ 16 ≤ (0x00010000 : Word).toNat := by decide

theorem witness_CompiledBlobHoldsEveryPixel : fresh.faultCode = 0 ∧ fresh.blob = [] ∧
    (8 : Half) ≠ 0 ∧ (8 : Half).toNat % 8 = 0 ∧
    (8 : Half).toNat * (8 : Half).toNat / 8 ≤ fresh.params.blobMaxWords ∧
    (List.replicate 64 (0xAA0FBBCC : Word)).length = (8 : Half).toNat * (8 : Half).toNat ∧
    ∀ w ∈ List.replicate 64 (0xAA0FBBCC : Word), (channelOf fresh.params.indexChannel w).toNat ≤ 15 :=
  ⟨rfl, rfl, by decide, by decide, by decide, by decide, fun w hw => by
    rw [List.eq_of_mem_replicate hw]; decide⟩

/-- One witness for each check of R146, in its order; the capacity is 64 words. -/
theorem witness_CompileChecksInOrder : fresh.faultCode = 0 ∧ busy.faultCode = 0 ∧ busy.blob ≠ [] ∧
    fresh.blob = [] ∧ ((12 : Half) = 0 ∨ (8 : Half) = 0 ∨ (12 : Half).toNat % 8 ≠ 0 ∨ (8 : Half).toNat % 8 ≠ 0) ∧
    (8 : Half) ≠ 0 ∧ (8 : Half).toNat % 8 = 0 ∧ (72 : Half).toNat % 8 = 0 ∧
    fresh.params.blobMaxWords < (72 : Half).toNat * (8 : Half).toNat / 8 ∧
    (64 : Half).toNat * (8 : Half).toNat / 8 ≤ fresh.params.blobMaxWords ∧
    (8 : Half).toNat * (8 : Half).toNat / 8 ≤ fresh.params.blobMaxWords ∧
    (List.replicate 63 (0 : Word)).length ≠ (8 : Half).toNat * (8 : Half).toNat ∧
    (List.replicate 64 (0x00100000 : Word)).length = (8 : Half).toNat * (8 : Half).toNat ∧
    ∃ w ∈ List.replicate 64 (0x00100000 : Word), 15 < (channelOf fresh.params.indexChannel w).toNat :=
  ⟨rfl, rfl, by decide, rfl, by decide, by decide, by decide, by decide, by decide, by decide, by decide,
    by decide, by decide, ⟨0x00100000, by simp, by decide⟩⟩

theorem witness_OtherChannelsAreDiscarded :
    ([0xAA01BBCC, 0x00000000] : List Word).map (channelOf fresh.params.indexChannel) =
      ([0x00010000, 0xAA00BBCC] : List Word).map (channelOf fresh.params.indexChannel) := by decide

theorem witness_BlobRdReadsTheBlob : busy.faultCode = 0 ∧ (31 : Word).toNat < busy.blobLen ∧
    busy.blobLen ≤ (32 : Word).toNat ∧ State.reset.blobLen ≤ (0 : Word).toNat ∧ busy.blob ≠ [] ∧
    ∃ t, exec (.oamWr 127) busy = .next t :=
  ⟨by decide, by decide, by decide, by decide, by decide, ⟨_, rfl⟩⟩

theorem witness_TileLdbCopiesTheBlobTile : busy.faultCode = 0 ∧ (3 : Word).toNat < busy.blobLen / 8 ∧
    (1023 : Half).toNat < 1024 ∧ busy.blobLen / 8 ≤ (4 : Word).toNat ∧ 1024 ≤ (1024 : Half).toNat := by decide

/-- B14, straight after reset; then the last legal slot and the other checks of R149. -/
theorem witness_SprLoadCopiesTheQuad : State.reset.faultCode = 0 ∧ State.reset.blob = [] ∧
    busy.faultCode = 0 ∧ busy.sheetWt.toNat ≠ 0 ∧ busy.blob ≠ [] ∧ busy.sheetWt.toNat % 2 = 0 ∧
    2 * ((0 : Half).toNat / (busy.sheetWt.toNat / 2) * busy.sheetWt.toNat +
      (0 : Half).toNat % (busy.sheetWt.toNat / 2)) + busy.sheetWt.toNat + 1 < busy.blobLen / 8 ∧
    (1020 : Half).toNat + 3 < 1024 ∧ 1024 ≤ (1021 : Half).toNat + 3 ∧
    busy.blobLen / 8 ≤ 2 * ((1 : Half).toNat / (busy.sheetWt.toNat / 2) * busy.sheetWt.toNat +
      (1 : Half).toNat % (busy.sheetWt.toNat / 2)) + busy.sheetWt.toNat + 1 ∧
    ({ busy with sheetWt := 1, sheetHt := 4 } : State).sheetWt.toNat % 2 = 1 := by decide

/-- The bits that hold no field, zero and not. -/
theorem witness_DescriptorDecodeInvertsEncode : busy.desc.spareZero = true ∧
    ({ w0 := 0x0100, w1 := 0, w2 := 0 } : Desc).spareZero = false := by decide

/-- Operands at and just past the top of each field. -/
theorem witness_BuilderCommandsReplaceOneField : busy.faultCode = 0 ∧ (15 : Half).toNat ≤ 15 ∧
    15 < (16 : Half).toNat ∧ (1023 : Half).toNat ≤ 1023 ∧ 1023 < (1024 : Half).toNat ∧
    (511 : Half).toNat ≤ 511 ∧ 511 < (512 : Half).toNat ∧ (255 : Half).toNat ≤ 255 ∧
    255 < (256 : Half).toNat := by decide

/-- P4: two orders of field commands, one of them with a field set twice. -/
theorem witness_BuilderOrderDoesNotMatter : State.reset.faultCode = 0 ∧ busy.faultCode = 0 ∧
    (∀ i ∈ [Instr.descY 50, .descX 511, .descX 100], isFieldCommand i = true) ∧
    (∀ i ∈ [Instr.descX 100, .descY 50], isFieldCommand i = true) ∧
    (∀ o, lastOf o [.descY 50, .descX 511, .descX 100] = lastOf o [.descX 100, .descY 50]) ∧
    lastOf .descTile [.descX 100, .descY 50] = none :=
  ⟨rfl, rfl, by decide, by decide, fun o => by cases o <;> decide, by decide⟩

theorem witness_DescReadsAnswerTheFields : busy.faultCode = 0 ∧ 2 ^ 16 ≤ (0x00010000 : Word).toNat := by decide

theorem witness_OamAllocStoresAtTheCounter : busy.faultCode = 0 ∧ busy.allocCtr.toNat < 128 ∧
    128 ≤ ({ busy with allocCtr := 128 } : State).allocCtr.toNat := by decide

theorem witness_AllocationsOccupySlotsInOrder : State.reset.faultCode = 0 ∧ State.reset.allocCtr = 0 ∧
    128 ≤ 128 := by decide

/-- For OamWrStoresInTheSlot and OamRdReadsTheSlot. -/
theorem witness_SlotOperands : busy.faultCode = 0 ∧ (127 : Half).toNat < 128 ∧ 128 ≤ (128 : Half).toNat := by
  decide

/-- For OamClearZeroesTheTable and FrameBeginFollowsThePolicy. -/
theorem witness_ClearingTheTable : busy.faultCode = 0 ∧ 127 < 128 ∧ inRegion .oam 0x070003FE = false ∧
    inRegion .oam 0x06FFFFFF = false ∧ inRegion .oam 0x07000400 = false ∧
    fresh.params.clearPolicy = .everyFrame ∧ fresh.faultCode = 0 ∧
    (withParams 0 .explicitOnly busy).params.clearPolicy = .explicitOnly ∧
    (withParams 0 .explicitOnly busy).faultCode = 0 := by decide

theorem witness_NopAndStatRdAlwaysAnswer : State.reset.faultCode = 0 ∧ (halted 1).faultCode ≠ 0 ∧
    busy.blobLen < 2 ^ 32 ∧ busy.blobLen ≠ 0 ∧ (1 : Half) ≠ 0 := by decide

end Sys2Proof.Tests
end

section
/-! The address map (spec/20_memory.md): the element address function of R47 and its bound. -/

namespace Sys2Proof.Proofs

open Sys2Proof Sys2Proof.Machine

/-- A command that ends in a fault, on a CORE that is not halted (spec/60_exceptions.md R212). -/
theorem raising_live {s : State} (hlive : s.faultCode = 0) (k : FaultKind) :
    raising k s = .next (faulted k s) :=
  congrArg Host.Outcome.next (raise_live hlive k)

/-- `OutOfRange` from the count on, and never an access to another location (R47). -/
theorem withIndex_ge_live {r : Region} {i : Nat} {s : State} (hge : regionCount r ≤ i)
    (hlive : s.faultCode = 0) (body : Nat → Result) :
    withIndex r i s body = .next (faulted .outOfRange s) := by
  rw [withIndex_ge hge, raising_live hlive]

/-- Settles O26, by the two sides of the count: below it the body gets the element's address, from it on the
command faults. -/
theorem indexChecksTheCount : Obligations.IndexChecksTheCount := by
  intro r i s body hlive
  constructor
  · intro hlt
    exact ⟨rfl, withIndex_lt hlt s body⟩
  · intro hge
    exact withIndex_ge_live hge hlive body

end Sys2Proof.Proofs
end

section
/-! The decoder's five checks (spec/30_encoding.md R84): each check of the decoder against the rule's own words,
then the decoder's answer for every command. -/

namespace Sys2Proof.Proofs

open Sys2Proof Sys2Proof.Machine

/-! ### Check (1): the opcode -/

/-- No value of R75 lies in the ranges that check (1) lists. -/
theorem not_unknownOp_of_code {c : Command} {o : Opcode} (hop : c.op = o.code) : ¬UnknownOp c := by
  unfold UnknownOp
  rw [hop]
  cases o <;> decide

/-- The ranges of check (1) leave out exactly the 33 values of R75: the first 77 values, seen one by one. -/
theorem exists_code_of_not_unknownOp {c : Command} (hknown : ¬UnknownOp c) : ∃ o : Opcode, c.op = o.code := by
  have mapped : ∀ n < 0x4D, ¬((0x03 ≤ n ∧ n ≤ 0x0F) ∨ (0x15 ≤ n ∧ n ≤ 0x1F) ∨ (0x26 ≤ n ∧ n ≤ 0x2F) ∨
      (0x36 ≤ n ∧ n ≤ 0x3F)) → (Opcode.ofCode (BitVec.ofNat 8 n)).isSome := by decide
  unfold UnknownOp at hknown
  obtain ⟨o, ho⟩ := Option.isSome_iff_exists.1 (mapped c.op.toNat (by omega) (by omega))
  rw [BitVec.ofNat_toNat, BitVec.setWidth_eq] at ho
  exact ⟨o, (code_of_ofCode ho).symm⟩

/-- Check (1) of the decoder. -/
theorem ofCode_eq_none_iff_unknownOp (c : Command) : Opcode.ofCode c.op = none ↔ UnknownOp c := by
  by_cases hU : UnknownOp c
  · refine iff_of_true (Option.eq_none_iff_forall_not_mem.2 fun o ho => ?_) hU
    exact not_unknownOp_of_code (code_of_ofCode ho).symm hU
  · obtain ⟨o, hop⟩ := exists_code_of_not_unknownOp hU
    simp [hop, hU]

/-! ### Checks (2) to (5), for a command whose opcode is known -/

/-- The formats that use `a` are the five values `0x10` to `0x14` (R72). -/
theorem format_av_iff (o : Opcode) : o.format = .av ↔ 0x10 ≤ o.code.toNat ∧ o.code.toNat ≤ 0x14 := by
  cases o <;> decide

/-- Check (2) of the decoder. -/
theorem reservedBitsZero_eq_false_iff {o : Opcode} {c : Command} (hop : c.op = o.code) :
    reservedBitsZero o c = false ↔ ReservedBitSet c := by
  have aUnused : (o.format == .av || c.a == 0) = false ↔
      ¬(0x10 ≤ o.code.toNat ∧ o.code.toNat ≤ 0x14) ∧ c.a ≠ 0 := by
    simp [← format_av_iff]
  have vUnused : c.v ≠ 0 ↔ 0 < c.v.toNat := by simp [BitVec.toNat_eq, Nat.pos_iff_ne_zero]
  have hv : c.v.toNat < 2 ^ 16 := c.v.isLt
  unfold ReservedBitSet reservedBitsZero
  rw [Bool.and_eq_false_iff, decide_eq_false_iff_not, aUnused, hop, vUnused]
  refine or_congr_right ?_
  cases o <;> simp [Opcode.code, Opcode.operandBits] <;> omega

/-- Check (3) of the decoder. -/
theorem selectorLegal_eq_false_iff {o : Opcode} {c : Command} (hop : c.op = o.code) :
    selectorLegal o c = false ↔ ReservedSelector c := by
  unfold ReservedSelector
  rw [hop]
  cases o <;> simp [selectorLegal, Opcode.code]

/-- The lengths of R76, by opcode and by the value of `op`. -/
theorem requiredLength_code (o : Opcode) : requiredLength o.code.toNat = o.payloadLen := by
  cases o <;> rfl

/-- Check (4) of the decoder. -/
theorem payloadLengthLegal_eq_false_iff {o : Opcode} {c : Command} (hop : c.op = o.code) :
    payloadLengthLegal o c = false ↔ WrongLength c := by
  unfold WrongLength payloadLengthLegal
  rw [hop, requiredLength_code]
  cases o.payloadLen <;> simp

/-- A payload word has a bit set in `[31:16]` exactly when its number is `2 ^ 16` or more. -/
theorem highHalf_ne_zero_iff (w : Word) : highHalf w ≠ 0 ↔ 2 ^ 16 ≤ w.toNat := by
  have hw : w.toNat < 2 ^ 32 := w.isLt
  rw [ne_eq, BitVec.toNat_eq, highHalf, BitVec.extractLsb'_toNat, Nat.shiftRight_eq_div_pow]
  simp
  omega

/-- Check (5) of the decoder. -/
theorem payloadBitsZero_eq_false_iff {o : Opcode} {c : Command} (hop : c.op = o.code) :
    payloadBitsZero o c = false ↔ ReservedPayloadBit c := by
  unfold ReservedPayloadBit
  rw [hop, ← highHalf_ne_zero_iff, ← highHalf_ne_zero_iff]
  cases o <;> simp [payloadBitsZero, Opcode.code, Command.word]

/-! ### The decoder's answer -/

/-- Ids 0 to 5 each name a region (spec/10_state.md R11). -/
theorem isSome_ofId_of_lt {a : Byte} (ha : a.toNat < 6) : (Region.ofId a).isSome := by
  have named : ∀ n < 6, (Region.ofId (BitVec.ofNat 8 n)).isSome := by decide
  simpa using named a.toNat ha

/-- A command that has passed check (3) stands for an instruction: its selector names a region. -/
theorem isSome_buildInstr {o : Opcode} {c : Command} (hsel : selectorLegal o c = true) :
    (buildInstr o c).isSome := by
  cases o with
  | rgnAddr =>
    have ha : c.a.toNat < 6 := by simpa [selectorLegal] using hsel
    simpa [buildInstr] using isSome_ofId_of_lt ha
  | regRd =>
    have ha : c.a.toNat < 3 := by simpa [selectorLegal] using hsel
    simpa [buildInstr] using isSome_ofId_of_lt (by omega : c.a.toNat < 6)
  | regWr =>
    have ha : c.a = 0 ∨ c.a = 2 := by simpa [selectorLegal] using hsel
    have hlt : c.a.toNat < 6 := by rcases ha with h | h <;> rw [h] <;> decide
    simpa [buildInstr] using isSome_ofId_of_lt hlt
  | _ => rfl

/-- What R84 makes of a command: the first check that fails, or an instruction. -/
inductive Verdict (c : Command) : Except DecodeError Instr → Prop where
  | unknownOpcode (h1 : UnknownOp c) : Verdict c (.error .unknownOpcode)
  | reservedBits (h1 : ¬UnknownOp c) (h2 : ReservedBitSet c) : Verdict c (.error .reservedBits)
  | reservedRegion (h1 : ¬UnknownOp c) (h2 : ¬ReservedBitSet c) (h3 : ReservedSelector c) :
      Verdict c (.error .reservedRegion)
  | payloadLength (h1 : ¬UnknownOp c) (h2 : ¬ReservedBitSet c) (h3 : ¬ReservedSelector c) (h4 : WrongLength c) :
      Verdict c (.error .payloadLength)
  | payloadBits (h1 : ¬UnknownOp c) (h2 : ¬ReservedBitSet c) (h3 : ¬ReservedSelector c) (h4 : ¬WrongLength c)
      (h5 : ReservedPayloadBit c) : Verdict c (.error .payloadBits)
  | legal (h : ¬IllegalEncoding c) (i : Instr) : Verdict c (.ok i)

/-- The decoder answers as R84 says, along its own branches. -/
theorem decode_verdict (c : Command) : Verdict c (decode c) := by
  unfold decode
  split
  next hnone => exact .unknownOpcode ((ofCode_eq_none_iff_unknownOp c).1 hnone)
  next o hsome =>
    have hop : c.op = o.code := (code_of_ofCode hsome).symm
    have h1 : ¬UnknownOp c := not_unknownOp_of_code hop
    classical
    simp only [reservedBitsZero_eq_false_iff hop, selectorLegal_eq_false_iff hop,
      payloadLengthLegal_eq_false_iff hop, payloadBitsZero_eq_false_iff hop]
    split_ifs with h2 h3 h4 h5
    · exact .reservedBits h1 h2
    · exact .reservedRegion h1 h2 h3
    · exact .payloadLength h1 h2 h3 h4
    · exact .payloadBits h1 h2 h3 h4 h5
    · have hsel : selectorLegal o c = true :=
        Bool.of_not_eq_false (mt (selectorLegal_eq_false_iff hop).1 h3)
      obtain ⟨i, hi⟩ := Option.isSome_iff_exists.1 (isSome_buildInstr hsel)
      rw [hi]
      exact .legal (by simp [IllegalEncoding, h1, h2, h3, h4, h5]) i

/-- A command the decoder turns away raises `IllegalCommand`, or is answered `Halted` (R84, R213). -/
theorem runCommand_of_decode_error {c : Command} {e : DecodeError} (herr : decode c = .error e) (s : State) :
    runCommand c s = .next (if s.faultCode = 0 then faulted .illegalCommand s else turnedAway s) := by
  unfold runCommand
  rw [herr]
  change unlessHalted s (raising .illegalCommand s) = _
  split
  next hlive => rw [unlessHalted_live hlive, raising_live hlive]
  next hhalted => exact unlessHalted_halted hhalted _

/-- Some check refuses every illegal encoding. -/
theorem exists_decode_error {c : Command} (hill : IllegalEncoding c) : ∃ e, decode c = .error e := by
  have verdict := decode_verdict c
  generalize decode c = r at verdict ⊢
  cases verdict with
  | legal hlegal => exact absurd hill hlegal
  | _ => exact ⟨_, rfl⟩

/-- Settles O3, by `decode_verdict`: the decoder's answer is R84's verdict, and the verdicts exclude each other. -/
theorem illegalExactlyByTheFiveChecks : Obligations.IllegalExactlyByTheFiveChecks := by
  refine ⟨fun c => ?_, fun c s hill => ?_⟩
  · have verdict := decode_verdict c
    generalize decode c = r at verdict ⊢
    cases verdict <;> simp_all [IllegalEncoding]
  · obtain ⟨e, herr⟩ := exists_decode_error hill
    exact runCommand_of_decode_error herr s

end Sys2Proof.Proofs
end

section
/-! A command from its fields: when the decoder accepts it, and what a live CORE does with one that fails a check
(spec/30_encoding.md R71, R84). -/

namespace Sys2Proof.Proofs

open Sys2Proof Sys2Proof.Machine

/-- A command that passes checks (2) to (5) of R84 decodes to what its fields build; check (1) is passed by the
opcode table's own code. -/
theorem encodes_of_checks {o : Opcode} {a : Byte} {v : Half} {pl : List Word} {i : Instr}
    (hbits : reservedBitsZero o (mkCommand o a v pl) = true) (hsel : selectorLegal o (mkCommand o a v pl) = true)
    (hlen : payloadLengthLegal o (mkCommand o a v pl) = true)
    (hpay : payloadBitsZero o (mkCommand o a v pl) = true)
    (hbuild : buildInstr o (mkCommand o a v pl) = some i) : Encodes o.code a v pl i := by
  change decode (mkCommand o a v pl) = .ok i
  simp [decode, hbits, hsel, hlen, hpay, hbuild]

/-- Check (2) in a format that uses `a`: only the bits of `v` above the operand are reserved (R72, R75). -/
theorem reservedBitsZero_of_av {o : Opcode} {a : Byte} {v : Half} {pl : List Word} (hav : o.format = .av)
    (hv : v.toNat < 2 ^ o.operandBits) : reservedBitsZero o (mkCommand o a v pl) = true := by
  simp [reservedBitsZero, hav, hv]

/-- On a CORE that is not halted a failed check raises `IllegalCommand` (R84, spec/60_exceptions.md R213). -/
theorem raisesIllegal_of_illegalEncoding {o : Opcode} {a : Byte} {v : Half} {pl : List Word} {s : State}
    (hlive : s.faultCode = 0) (hill : IllegalEncoding (mkCommand o a v pl)) : RaisesIllegal o.code a v pl s := by
  have answer := illegalExactlyByTheFiveChecks.2 (mkCommand o a v pl) s hill
  rwa [if_pos hlive] at answer

/-- Check (2) turns the command away. -/
theorem raisesIllegal_of_reservedBit {o : Opcode} {a : Byte} {v : Half} {pl : List Word} {s : State}
    (hlive : s.faultCode = 0) (hbit : ReservedBitSet (mkCommand o a v pl)) : RaisesIllegal o.code a v pl s :=
  raisesIllegal_of_illegalEncoding hlive (.inr (.inl hbit))

/-- Check (3) turns the command away. -/
theorem raisesIllegal_of_reservedSelector {o : Opcode} {a : Byte} {v : Half} {pl : List Word} {s : State}
    (hlive : s.faultCode = 0) (hsel : ReservedSelector (mkCommand o a v pl)) : RaisesIllegal o.code a v pl s :=
  raisesIllegal_of_illegalEncoding hlive (.inr (.inr (.inl hsel)))

end Sys2Proof.Proofs
end

section
/-! What a command's element stores leave unchanged, and what its response is (spec/20_memory.md R45, R52). -/

namespace Sys2Proof.Proofs

open Sys2Proof Sys2Proof.Machine

/-- Element stores and the response leave every register as it was. -/
theorem sameRegisters_stores (es : List ElemStore) (ws : List Word) (s : State) :
    SameRegisters s ((runStores es s).respond .ok ws) := by
  simp [SameRegisters, SameRest]

/-- The one response follows the stores. -/
theorem answeredOk_stores (es : List ElemStore) (ws : List Word) (s : State) :
    AnsweredOk ws s ((runStores es s).respond .ok ws) := by
  simp [AnsweredOk]

/-- Stores that lie within `n` bytes from `lo` on leave every other byte as it was. -/
theorem sameMemoryOutside_stores {lo n : Nat} {es : List ElemStore}
    (hin : ∀ e ∈ es, lo ≤ e.addr ∧ e.addr + e.size ≤ lo + n) (ws : List Word) (s : State) :
    SameMemoryOutside lo n s ((runStores es s).respond .ok ws) := by
  intro a ha
  rw [State.respond_mem, runStores_mem]
  refine Memory.byte_storeAll_other s.mem es a fun e he => ?_
  have := hin e he
  omega

/-- A single store has no gap in which another agent could move. -/
theorem noOtherMoved_oneStore (e : ElemStore) (ws : List Word) (s : State) :
    NoOtherMoved s ((runStores [e] s).respond .ok ws) := by
  simp [NoOtherMoved]

/-- Two elements of a region lie a stride apart, in the one order or the other. -/
theorem elemAddr_apart (r : Region) {i j : Nat} (hne : j ≠ i) :
    elemAddr r j + regionStride r ≤ elemAddr r i ∨ elemAddr r i + regionStride r ≤ elemAddr r j := by
  have later {m n : Nat} (hlt : m < n) : elemAddr r m + regionStride r ≤ elemAddr r n := by
    have := Nat.mul_le_mul_right (regionStride r) hlt
    rw [Nat.succ_mul] at this
    unfold elemAddr
    omega
  exact (Nat.lt_or_gt_of_ne hne).imp later later

end Sys2Proof.Proofs
end

section
/-! Region access (spec/40_region_access.md): the operands of the five commands, the 16-bit read and store they
share, and each command's answer on a CORE that is not halted. -/

namespace Sys2Proof.Proofs

open Sys2Proof Sys2Proof.Machine

/-! ### Operands -/

theorem encodes_rgnAddr (r : Region) (i : Half) : Encodes 0x10 r.id i [] (.rgnAddr r i) :=
  encodes_of_checks (o := .rgnAddr) (reservedBitsZero_of_av rfl i.isLt)
    (by cases r <;> simp [selectorLegal, Region.id]) rfl rfl (by simp [buildInstr])

theorem encodes_regRd {r : Region} (hr : r.readable = true) : Encodes 0x11 r.id 0 [] (.regRd r) :=
  encodes_of_checks (o := .regRd) (reservedBitsZero_of_av rfl (by decide))
    (by cases r <;> simp_all [selectorLegal, Region.id, Region.readable]) rfl rfl (by simp [buildInstr])

theorem encodes_regWr {r : Region} (hr : r.writable = true) (val : Half) :
    Encodes 0x12 r.id val [] (.regWr r val) :=
  encodes_of_checks (o := .regWr) (reservedBitsZero_of_av rfl val.isLt)
    (by cases r <;> simp_all [selectorLegal, Region.id, Region.writable]) rfl rfl (by simp [buildInstr])

theorem encodes_palRd (i : Byte) : Encodes 0x13 i 0 [] (.palRd i) :=
  encodes_of_checks (o := .palRd) (reservedBitsZero_of_av rfl (by decide)) rfl rfl rfl (by simp [buildInstr])

theorem encodes_palWr (i : Byte) (c : Half) : Encodes 0x14 i c [] (.palWr i c) :=
  encodes_of_checks (o := .palWr) (reservedBitsZero_of_av rfl c.isLt) rfl rfl rfl (by simp [buildInstr])

/-! ### The 16-bit elements -/

theorem regionCount_pos (r : Region) : 0 < regionCount r := by
  cases r <;> decide

/-- The two registers that can be written are 16-bit storage (spec/20_memory.md R42). -/
theorem halfMapped_register {r : Region} (hr : r = .dispcnt ∨ r = .backdrop) :
    halfMapped (elemAddr r 0) = true := by
  rcases hr with rfl | rfl <;> decide

/-- The read of a 16-bit element with storage behind it succeeds and changes nothing (R45). -/
theorem withRead_half {a : Nat} (ha : halfMapped a = true) (s : State) (body : Half × State → Result) :
    withRead a (memRead2 s a) body = body (s.mem.half a, s) := by
  rw [memRead2_half ha, withRead]

/-- The read of KEYINPUT succeeds and moves the counter of draws only (spec/10_state.md R13, log 3). -/
theorem withRead_keyinput (s : State) (body : Half × State → Result) :
    withRead (elemAddr .keyinput 0) (memRead2 s (elemAddr .keyinput 0)) body =
      body (keyinputValue s, { s with draws := s.draws + 1 }) := by
  have base : elemAddr .keyinput 0 = regionBase .keyinput := rfl
  rw [base, memRead2_keyinput, withRead]

/-- One mapped 16-bit store and the response after it. -/
theorem commit_half {a : Nat} (ha : halfMapped a = true) (v : Half) (s : State) :
    commit [.half a v] [] s = .next ((runStores [.half a v] s).respond .ok []) :=
  commit_mapped (by simpa [ElemStore.mapped] using ha) [] s

/-- The element reads as the value stored, all 16 bits of it. -/
theorem half_stored (a : Nat) (v : Half) (s : State) :
    ((runStores [.half a v] s).respond .ok []).mem.half a = v :=
  Memory.half_setHalf s.mem a v

/-- A 16-bit store touches its two bytes only. -/
theorem sameMemoryOutside_half (a : Nat) (v : Half) (s : State) :
    SameMemoryOutside a 2 s ((runStores [.half a v] s).respond .ok []) :=
  sameMemoryOutside_stores (by simp [ElemStore.addr, ElemStore.size]) [] s

/-- A colour other than the one stored reads as before. -/
theorem pal_stored_other {i j : Nat} (hne : j ≠ i) (v : Half) (s : State) :
    ((runStores [.half (elemAddr .objpal i) v] s).respond .ok []).pal j = s.pal j :=
  Memory.half_store_other s.mem (.half (elemAddr .objpal i) v) (elemAddr .objpal j) (elemAddr_apart .objpal hne)

/-! ### The value of KEYINPUT -/

/-- The keys stand in bits 9 to 0 (spec/10_state.md R13). -/
theorem keyinputValue_keys (s : State) : ((keyinputValue s).setWidth 32).extractLsb' 0 10 = s.keyIn := by
  rw [BitVec.extractLsb'_setWidth_of_le (by decide)]
  exact extract_append_low _ _

/-- A 16-bit value answered in a word leaves the upper half zero. -/
theorem extract_high_setWidth (v : Half) : (v.setWidth 32).extractLsb' 16 16 = 0 := by
  refine BitVec.eq_of_getLsbD_eq fun i _ => ?_
  simp

/-! ### The region table -/

/-- The rows of the region table (spec/10_state.md R11): id, base, count and stride of every region. -/
def regionTable : List (Region × Byte × Nat × Nat × Nat) :=
  [(.dispcnt, 0, 0x04000000, 1, 2), (.keyinput, 1, 0x04000130, 1, 2), (.backdrop, 2, 0x05000000, 1, 2),
   (.objpal, 3, 0x05000200, 256, 2), (.objtile, 4, 0x06010000, 1024, 32), (.oam, 5, 0x07000000, 128, 8)]

/-- The model's columns are those of the table. -/
theorem eq_of_mem_regionTable : ∀ row ∈ regionTable,
    row = (row.1, row.1.id, regionBase row.1, regionCount row.1, regionStride row.1) := by
  decide

/-- The address of every element fits a response word. -/
theorem elemAddr_lt {r : Region} {i : Nat} (hi : i < regionCount r) : elemAddr r i < 2 ^ 32 := by
  cases r <;> simp only [elemAddr, regionBase, regionStride, regionCount] at * <;> omega

/-! ### The commands -/

theorem exec_rgnAddr_lt {r : Region} {i : Half} {s : State} (hlive : s.faultCode = 0)
    (hi : i.toNat < regionCount r) :
    exec (.rgnAddr r i) s = .next (s.respond .ok [BitVec.ofNat 32 (elemAddr r i.toNat)]) := by
  change execRgnAddr r i s = _
  rw [execRgnAddr, unlessHalted_live hlive, withIndex_lt hi, answering]

theorem exec_rgnAddr_ge {r : Region} {i : Half} {s : State} (hlive : s.faultCode = 0)
    (hi : regionCount r ≤ i.toNat) : exec (.rgnAddr r i) s = .next (faulted .outOfRange s) := by
  change execRgnAddr r i s = _
  rw [execRgnAddr, unlessHalted_live hlive, withIndex_ge_live hi hlive]

theorem exec_regRd_stored {r : Region} {s : State} (hlive : s.faultCode = 0) (hr : r = .dispcnt ∨ r = .backdrop) :
    exec (.regRd r) s = .next (s.respond .ok [(s.mem.half (elemAddr r 0)).setWidth 32]) := by
  have readable : r.readable = true := by rcases hr with rfl | rfl <;> rfl
  change execRegRd r s = _
  rw [execRegRd, unlessHalted_live hlive, if_pos readable, withIndex_lt (regionCount_pos r),
    withRead_half (halfMapped_register hr)]
  rfl

/-- KEYINPUT has no storage: its read draws the bits the spec leaves free (R13, log 3). -/
theorem exec_regRd_keyinput {s : State} (hlive : s.faultCode = 0) :
    exec (.regRd .keyinput) s =
      .next ({ s with draws := s.draws + 1 }.respond .ok [(keyinputValue s).setWidth 32]) := by
  change execRegRd .keyinput s = _
  have readable : Region.keyinput.readable = true := rfl
  rw [execRegRd, unlessHalted_live hlive, if_pos readable, withIndex_lt (regionCount_pos _), withRead_keyinput]
  rfl

theorem exec_regWr {r : Region} {s : State} (hlive : s.faultCode = 0) (hr : r = .dispcnt ∨ r = .backdrop)
    (val : Half) :
    exec (.regWr r val) s = .next ((runStores [.half (elemAddr r 0) val] s).respond .ok []) := by
  have writable : r.writable = true := by rcases hr with rfl | rfl <;> rfl
  change execRegWr r val s = _
  rw [execRegWr, unlessHalted_live hlive, if_pos writable, withIndex_lt (regionCount_pos r),
    commit_half (halfMapped_register hr)]

theorem exec_palRd {s : State} (hlive : s.faultCode = 0) (i : Byte) :
    exec (.palRd i) s = .next (s.respond .ok [(s.pal i.toNat).setWidth 32]) := by
  have hi : i.toNat < regionCount .objpal := i.isLt
  change execPalRd i s = _
  rw [execPalRd, unlessHalted_live hlive, withIndex_lt hi, withRead_half (halfMapped_palette hi)]
  rfl

theorem exec_palWr {s : State} (hlive : s.faultCode = 0) (i : Byte) (c : Half) :
    exec (.palWr i c) s = .next ((runStores [.half (elemAddr .objpal i.toNat) c] s).respond .ok []) := by
  have hi : i.toNat < regionCount .objpal := i.isLt
  change execPalWr i c s = _
  rw [execPalWr, unlessHalted_live hlive, withIndex_lt hi, commit_half (halfMapped_palette hi)]

/-! ### The obligations -/

/-- Settles O29: the two stored registers by `exec_regRd_stored`, KEYINPUT by the value its read draws, and every
other selector by check (3), a non-zero `v` by check (2). -/
theorem regRdReadsTheRegister : Obligations.RegRdReadsTheRegister := by
  intro s hlive
  refine ⟨⟨encodes_regRd (r := .dispcnt) rfl, encodes_regRd (r := .keyinput) rfl,
      encodes_regRd (r := .backdrop) rfl⟩,
    exec_regRd_stored (r := .dispcnt) hlive (.inl rfl), exec_regRd_stored (r := .backdrop) hlive (.inr rfl),
    ?_, fun a v hill => ?_⟩
  · exact ⟨_, _, keyinputValue_keys s, extract_high_setWidth _, exec_regRd_keyinput hlive⟩
  · rcases hill with ha | hv
    · exact raisesIllegal_of_reservedSelector (o := .regRd) hlive
        (by simp [ReservedSelector, Opcode.code, ha])
    · exact raisesIllegal_of_reservedBit (o := .regRd) hlive (by simpa [ReservedBitSet, Opcode.code] using hv)

/-- Settles O30: the one store's frame, and check (3) for every selector but 0 and 2. -/
theorem regWrStoresTheRegister : Obligations.RegWrStoresTheRegister := by
  intro s r val hlive
  refine ⟨⟨encodes_regWr (r := .dispcnt) rfl val, encodes_regWr (r := .backdrop) rfl val⟩,
    fun hr => ?_, fun a h0 h2 => ?_⟩
  · have stored := half_stored (elemAddr r 0) val s
    refine ⟨_, exec_regWr hlive hr val, stored, sameMemoryOutside_half _ _ _, sameRegisters_stores _ _ _,
      answeredOk_stores _ _ _, noOtherMoved_oneStore _ _ _, ?_⟩
    rw [State.vblankEvent_vis, stored]
  · exact raisesIllegal_of_reservedSelector (o := .regWr) hlive
      (by simpa [ReservedSelector, Opcode.code] using ⟨h0, h2⟩)

/-- Settles O31: the one store's frame, the other colours by the distance of two elements. -/
theorem palWrStoresTheColour : Obligations.PalWrStoresTheColour := by
  intro s i c hlive
  exact ⟨encodes_palWr i c, _, exec_palWr hlive i c, half_stored _ c s, fun j _ hne => pal_stored_other hne c s,
    sameMemoryOutside_half _ _ _, sameRegisters_stores _ _ _, answeredOk_stores _ _ _,
    noOtherMoved_oneStore _ _ _⟩

/-- Settles O28, by the rows of the table: the address below the count, the fault from the count on, and check (3)
for the ids that name no region. -/
theorem rgnAddrAnswersTheAddress : Obligations.RgnAddrAnswersTheAddress := by
  intro s i hlive
  refine ⟨fun a ha => ?_, fun r id base count stride hrow => ?_⟩
  · exact raisesIllegal_of_reservedSelector (o := .rgnAddr) hlive
      (by simp [ReservedSelector, Opcode.code, ha])
  · have hcols := eq_of_mem_regionTable _ hrow
    simp only [Prod.mk.injEq, true_and] at hcols
    obtain ⟨rfl, rfl, rfl, rfl⟩ := hcols
    refine ⟨encodes_rgnAddr r i, fun hlt => ?_, exec_rgnAddr_ge hlive⟩
    have fits : (BitVec.ofNat 32 (elemAddr r i.toNat)).toNat = elemAddr r i.toNat :=
      Nat.mod_eq_of_lt (elemAddr_lt hlt)
    exact ⟨_, fits, exec_rgnAddr_lt hlive hlt⟩

/-- Settles O32: an 8-bit index is always below the count, so the read answers, and check (2) turns away a
non-zero `v`. -/
theorem palRdReadsTheColour : Obligations.PalRdReadsTheColour := by
  intro s i hlive
  refine ⟨encodes_palRd i, fun v hv => ?_, ?_, exec_palRd hlive i⟩
  · exact raisesIllegal_of_reservedBit (o := .palRd) hlive (by simpa [ReservedBitSet, Opcode.code] using hv)
  · rw [State.pal, elemAddr, Nat.mul_comm]
    rfl

end Sys2Proof.Proofs
end

section
/-! The packed word (spec/41_tile_engine.md R120, R121): `pack8` and `unpack8` lane by lane, the two round trips, and
the word of eight legal pixels as a number. -/

namespace Sys2Proof.Proofs

open Sys2Proof Sys2Proof.Machine

/-! ### Lists and words by their entries -/

/-- Two lists of one length agree when every entry does; `d` stands past the end. -/
theorem eq_of_getD_eq {α : Type} {l l' : List α} (d : α) (hlen : l.length = l'.length)
    (hget : ∀ j, j < l.length → l.getD j d = l'.getD j d) : l = l' := by
  refine List.ext_getElem hlen fun j hj hj' => ?_
  simpa [hj, hj'] using hget j hj

theorem getD_map_range {α : Type} {f : Nat → α} {n k : Nat} (hk : k < n) (d : α) :
    ((List.range n).map f).getD k d = f k := by
  simp [hk]

/-- A word is its eight lanes. -/
theorem word_eq_of_lanes {v w : Word}
    (hlane : ∀ k, k < 8 → v.extractLsb' (4 * k) 4 = w.extractLsb' (4 * k) 4) : v = w := by
  refine BitVec.eq_of_getLsbD_eq fun i hi => ?_
  have lane := congrArg (fun x : BitVec 4 => x.getLsbD (i % 4)) (hlane (i / 4) (by omega))
  have hmod : i % 4 < 4 := Nat.mod_lt i (by decide)
  simpa [hmod, Nat.div_add_mod] using lane

/-! ### Legal pixels -/

/-- The low four bits of a legal pixel are the pixel. -/
theorem toNat_nibble {p : Byte} (hp : p.toNat ≤ 15) : (p.extractLsb' 0 4).toNat = p.toNat := by
  rw [BitVec.extractLsb'_toNat, Nat.shiftRight_zero]
  omega

theorem setWidth_nibble {p : Byte} (hp : p.toNat ≤ 15) : (p.extractLsb' 0 4).setWidth 8 = p := by
  refine BitVec.eq_of_toNat_eq ?_
  rw [BitVec.toNat_setWidth, toNat_nibble hp]
  omega

/-- An entry of a list of legal pixels is legal, the 0 past its end too. -/
theorem getD_legal {px : List Byte} (hpx : ∀ p ∈ px, p.toNat ≤ 15) (k : Nat) : (px.getD k 0).toNat ≤ 15 := by
  rcases Nat.lt_or_ge k px.length with hk | hk
  · rw [List.getD_eq_getElem px 0 hk]
    exact hpx _ (List.getElem_mem hk)
  · rw [List.getD_eq_default px 0 hk]
    decide

/-! ### The lanes -/

/-- Bit `i` of the packed word is bit `i mod 4` of pixel `i / 4`: no lane touches another. -/
theorem getLsbD_packNibbles (px : List Byte) {i : Nat} (hi : i < 32) :
    (packNibbles px).getLsbD i = (px.getD (i / 4) 0).getLsbD (i % 4) := by
  induction px generalizing i with
  | nil => simp [packNibbles]
  | cons p ps ih =>
    rcases Nat.lt_or_ge i 4 with hlow | hhigh
    · have hdiv : i / 4 = 0 := by omega
      have hmod : i % 4 = i := by omega
      simp [packNibbles, hi, hlow, hdiv, hmod]
    · have hdiv : i / 4 = (i - 4) / 4 + 1 := by omega
      have hmod : i % 4 = (i - 4) % 4 := by omega
      have rest := ih (i := i - 4) (by omega)
      simpa [packNibbles, hi, Nat.not_lt.2 hhigh, hdiv, hmod, (by omega : i - 4 < 32)] using rest

/-- Lane `k` of `pack8` is the low nibble of pixel `k` (R120). -/
theorem lane_packNibbles (px : List Byte) {k : Nat} (hk : k < 8) :
    (packNibbles px).extractLsb' (4 * k) 4 = (px.getD k 0).extractLsb' 0 4 := by
  refine BitVec.eq_of_getLsbD_eq fun i hi => ?_
  have hdiv : (4 * k + i) / 4 = k := by omega
  have hmod : (4 * k + i) % 4 = i := by omega
  simp only [BitVec.getLsbD_extractLsb', getLsbD_packNibbles px (by omega : 4 * k + i < 32), hdiv, hmod,
    Nat.zero_add]

/-- Lane `k` of `pack8` holds pixel `k`, where the pixels are legal (R120). -/
theorem toNat_lane_packNibbles {px : List Byte} (hpx : ∀ p ∈ px, p.toNat ≤ 15) {k : Nat} (hk : k < 8) :
    ((packNibbles px).extractLsb' (4 * k) 4).toNat = (px.getD k 0).toNat := by
  rw [lane_packNibbles px hk, toNat_nibble (getD_legal hpx k)]

@[simp] theorem unpackNibbles_length (w : Word) : (unpackNibbles w).length = 8 := by
  simp [unpackNibbles]

/-- Pixel `k` of `unpack8` is lane `k` (R121). -/
theorem getD_unpackNibbles (w : Word) {k : Nat} (hk : k < 8) :
    (unpackNibbles w).getD k 0 = (w.extractLsb' (4 * k) 4).setWidth 8 :=
  getD_map_range hk 0

theorem toNat_getD_unpackNibbles (w : Word) {k : Nat} (hk : k < 8) :
    ((unpackNibbles w).getD k 0).toNat = (w.extractLsb' (4 * k) 4).toNat := by
  have hlane := (w.extractLsb' (4 * k) 4).isLt
  rw [getD_unpackNibbles w hk, BitVec.toNat_setWidth]
  omega

/-- Every unpacked pixel is legal (R121). -/
theorem unpackNibbles_legal (w : Word) : ∀ p ∈ unpackNibbles w, p.toNat ≤ 15 := by
  intro p hp
  obtain ⟨k, hk, rfl⟩ := List.getElem_of_mem hp
  have hk8 : k < 8 := by simpa using hk
  have hlane := (w.extractLsb' (4 * k) 4).isLt
  rw [← List.getD_eq_getElem _ 0 hk, toNat_getD_unpackNibbles w hk8]
  omega

/-! ### The round trips -/

/-- `pack8` undoes `unpack8` for every word, lane by lane (R121). -/
theorem packNibbles_unpackNibbles (w : Word) : packNibbles (unpackNibbles w) = w := by
  refine word_eq_of_lanes fun k hk => BitVec.eq_of_toNat_eq ?_
  rw [toNat_lane_packNibbles (unpackNibbles_legal w) hk, toNat_getD_unpackNibbles w hk]

/-- `unpack8` undoes `pack8` on eight legal pixels, pixel by pixel (R121). -/
theorem unpackNibbles_packNibbles {px : List Byte} (hlen : px.length = 8) (hpx : ∀ p ∈ px, p.toNat ≤ 15) :
    unpackNibbles (packNibbles px) = px := by
  refine eq_of_getD_eq 0 (by simp [hlen]) fun k hk => ?_
  have hk8 : k < 8 := by simpa using hk
  rw [getD_unpackNibbles _ hk8, lane_packNibbles px hk8, setWidth_nibble (getD_legal hpx k)]

/-! ### The word as a number -/

/-- One more pixel below a word that leaves lane 7 free: the other pixels move up a lane, and nothing carries. -/
theorem toNat_packNibbles_cons {p : Byte} {ps : List Byte} (hp : p.toNat ≤ 15)
    (hps : (packNibbles ps).toNat < 16 ^ 7) :
    (packNibbles (p :: ps)).toNat = p.toNat + 16 * (packNibbles ps).toNat := by
  have hlow : (p.extractLsb' 0 4).toNat < 2 ^ 4 := (p.extractLsb' 0 4).isLt
  have hshift : (packNibbles ps).toNat <<< 4 < 2 ^ 32 := by
    rw [Nat.shiftLeft_eq]
    omega
  rw [packNibbles, BitVec.toNat_or, BitVec.toNat_shiftLeft, Nat.mod_eq_of_lt hshift, BitVec.toNat_setWidth,
    Nat.mod_eq_of_lt (by omega), Nat.or_comm, ← Nat.shiftLeft_add_eq_or_of_lt hlow, toNat_nibble hp,
    Nat.shiftLeft_eq]
  omega

/-- Up to eight legal pixels are the digits of the packed word in base 16, the lowest first. -/
theorem toNat_packNibbles {px : List Byte} (hlen : px.length ≤ 8) (hpx : ∀ p ∈ px, p.toNat ≤ 15) :
    (packNibbles px).toNat = Nat.ofDigits 16 (px.map BitVec.toNat) := by
  induction px with
  | nil => rfl
  | cons p ps ih =>
    have hlen' : ps.length ≤ 7 := Nat.le_of_succ_le_succ hlen
    obtain ⟨hp, hps⟩ := List.forall_mem_cons.1 hpx
    have rest := ih (by omega) hps
    have digits : ∀ d ∈ ps.map BitVec.toNat, d < 16 := by
      intro d hd
      obtain ⟨q, hq, rfl⟩ := List.mem_map.1 hd
      exact Nat.lt_succ_of_le (hps q hq)
    have bound : (packNibbles ps).toNat < 16 ^ 7 := by
      calc (packNibbles ps).toNat = Nat.ofDigits 16 (ps.map BitVec.toNat) := rest
        _ < 16 ^ (ps.map BitVec.toNat).length := Nat.ofDigits_lt_base_pow_length (by decide) digits
        _ ≤ 16 ^ 7 := Nat.pow_le_pow_right (by decide) (by simpa using hlen')
    rw [toNat_packNibbles_cons hp bound, rest, List.map_cons, Nat.ofDigits_cons]

/-- The digits' number as the sum that R120 writes. -/
theorem ofDigits_eq_sum_range (px : List Byte) :
    Nat.ofDigits 16 (px.map BitVec.toNat) =
      ((List.range px.length).map fun k => 16 ^ k * (px.getD k 0).toNat).sum := by
  induction px with
  | nil => rfl
  | cons p ps ih =>
    have shifted : ((List.range ps.length).map fun k => 16 ^ (k + 1) * (ps.getD k 0).toNat).sum =
        16 * ((List.range ps.length).map fun k => 16 ^ k * (ps.getD k 0).toNat).sum := by
      rw [← List.sum_map_mul_left]
      simp only [pow_succ, Nat.mul_left_comm, Nat.mul_assoc]
    rw [List.map_cons, Nat.ofDigits_cons, ih, ← shifted, List.length_cons, List.range_succ_eq_map]
    simp [Function.comp_def]

end Sys2Proof.Proofs
end

section
/-! The packed tile (spec/41_tile_engine.md R122, R123): eight rows, each packed and unpacked by itself. -/

namespace Sys2Proof.Proofs

open Sys2Proof Sys2Proof.Machine

/-- Row `i` of the pixels, entry by entry. -/
theorem pixelRow_eq {px : List Byte} {i : Nat} (hi : 8 * i + 8 ≤ px.length) :
    pixelRow px i = (List.range 8).map fun k => px.getD (8 * i + k) 0 := by
  have hlen : (pixelRow px i).length = 8 := by
    rw [pixelRow, List.length_take, List.length_drop]
    omega
  refine eq_of_getD_eq 0 (by simp [hlen]) fun k hk => ?_
  have hk8 : k < 8 := hlen ▸ hk
  rw [getD_map_range hk8]
  simp [pixelRow, hk8]

@[simp] theorem packTile_length (px : List Byte) : (packTile px).length = 8 := by
  simp [packTile]

theorem getD_packTile (px : List Byte) {i : Nat} (hi : i < 8) :
    (packTile px).getD i 0 = packNibbles (pixelRow px i) :=
  getD_map_range hi 0

/-- Pixel `8 i + k` of `unpack_tile` is pixel `k` of word `i` (R122). -/
theorem getD_unpackTile {ws : List Word} {i k : Nat} (hi : i < ws.length) (hk : k < 8) :
    (unpackTile ws).getD (8 * i + k) 0 = (unpackNibbles (ws.getD i 0)).getD k 0 := by
  induction ws generalizing i with
  | nil => exact absurd hi (Nat.not_lt_zero i)
  | cons w ws ih =>
    rw [unpackTile, List.flatMap_cons, ← unpackTile]
    cases i with
    | zero => rw [List.getD_append _ _ _ _ (by simpa using hk), Nat.mul_zero, Nat.zero_add, List.getD_cons_zero]
    | succ i =>
      rw [List.getD_append_right _ _ _ _ (by rw [unpackNibbles_length]; omega), unpackNibbles_length,
        show 8 * (i + 1) + k - 8 = 8 * i + k by omega, ih (by simpa using hi), List.getD_cons_succ]

/-- Row `i` of the unpacked tile is word `i` unpacked. -/
theorem pixelRow_unpackTile {ws : List Word} {i : Nat} (hi : i < ws.length) :
    pixelRow (unpackTile ws) i = unpackNibbles (ws.getD i 0) := by
  rw [pixelRow_eq (by rw [unpackTile_length]; omega)]
  refine eq_of_getD_eq 0 (by simp) fun k hk => ?_
  have hk8 : k < 8 := by simpa using hk
  rw [getD_map_range hk8, getD_unpackTile hi hk8]

/-- The pixels of a row are among the pixels. -/
theorem mem_of_mem_pixelRow {px : List Byte} {i : Nat} {p : Byte} (hp : p ∈ pixelRow px i) : p ∈ px :=
  List.mem_of_mem_drop (List.mem_of_mem_take hp)

/-- `pack_tile` undoes `unpack_tile`, row by row (R123). -/
theorem packTile_unpackTile {ws : List Word} (hlen : ws.length = 8) : packTile (unpackTile ws) = ws := by
  refine eq_of_getD_eq 0 (by simp [hlen]) fun i hi => ?_
  have hi8 : i < 8 := by simpa using hi
  rw [getD_packTile _ hi8, pixelRow_unpackTile (hlen ▸ hi8), packNibbles_unpackNibbles]

/-- `unpack_tile` undoes `pack_tile` on 64 legal pixels: pixel `j` stands in row `j / 8` (R123). -/
theorem unpackTile_packTile {px : List Byte} (hlen : px.length = 64) (hpx : ∀ p ∈ px, p.toNat ≤ 15) :
    unpackTile (packTile px) = px := by
  have htile : (unpackTile (packTile px)).length = 64 := by rw [unpackTile_length, packTile_length]
  refine eq_of_getD_eq 0 (htile.trans hlen.symm) fun j hj => ?_
  have hrow : j / 8 < 8 := by omega
  have hcol : j % 8 < 8 := Nat.mod_lt j (by decide)
  have row := pixelRow_eq (px := px) (i := j / 8) (by omega)
  have unpacked : unpackNibbles (packNibbles (pixelRow px (j / 8))) = pixelRow px (j / 8) :=
    unpackNibbles_packNibbles (by simp [row]) fun p hp => hpx p (mem_of_mem_pixelRow hp)
  rw [← Nat.div_add_mod j 8, getD_unpackTile (by simpa using hrow) hcol, getD_packTile px hrow, unpacked, row,
    getD_map_range hcol]

end Sys2Proof.Proofs
end

section
/-! Pixel bytes in payload and response words (spec/30_encoding.md R73): byte `j` is byte `j mod 4` of word `j / 4`. -/

namespace Sys2Proof.Proofs

open Sys2Proof Sys2Proof.Machine

theorem getD_bytesOfWord (w : Word) {k : Nat} (hk : k < 4) :
    (bytesOfWord w).getD k 0 = w.extractLsb' (8 * k) 8 := by
  interval_cases k <;> rfl

/-- Payload words to bytes (R73). -/
theorem getD_bytesOfWords (ws : List Word) (j : Nat) :
    (bytesOfWords ws).getD j 0 = (ws.getD (j / 4) 0).extractLsb' (8 * (j % 4)) 8 := by
  induction ws generalizing j with
  | nil => simp [bytesOfWords]
  | cons w ws ih =>
    have four : (bytesOfWord w).length = 4 := rfl
    rw [bytesOfWords]
    rcases Nat.lt_or_ge j 4 with hlow | hhigh
    · rw [List.getD_append _ _ _ _ hlow, getD_bytesOfWord w hlow, Nat.div_eq_of_lt hlow, Nat.mod_eq_of_lt hlow,
        List.getD_cons_zero]
    · have hdiv : j / 4 = (j - 4) / 4 + 1 := by omega
      have hmod : j % 4 = (j - 4) % 4 := by omega
      rw [List.getD_append_right _ _ _ _ hhigh, four, ih, hdiv, hmod, List.getD_cons_succ]

/-- Bytes to response words, in whole groups of four (R73). -/
theorem byte_wordsOfBytes {bs : List Byte} (hlen : bs.length % 4 = 0) (j : Nat) :
    ((wordsOfBytes bs).getD (j / 4) 0).extractLsb' (8 * (j % 4)) 8 = bs.getD j 0 := by
  rw [← getD_bytesOfWords, bytesOfWords_wordsOfBytes bs hlen]

end Sys2Proof.Proofs
end

section
/-! The tile engine's commands (spec/41_tile_engine.md R124 to R129): their operands, the pixel check, the read of a
tile, and each command's answer on a CORE that is not halted. -/

namespace Sys2Proof.Proofs

open Sys2Proof Sys2Proof.Machine

/-! ### Operands -/

/-- Check (2) when the unused field `a` is zero: only the bits of `v` above the operand are reserved (R72, R75). -/
theorem reservedBitsZero_of_zero {o : Opcode} {v : Half} {pl : List Word} (hv : v.toNat < 2 ^ o.operandBits) :
    reservedBitsZero o (mkCommand o 0 v pl) = true := by
  simp [reservedBitsZero, hv]

/-- Check (4) turns the command away. -/
theorem raisesIllegal_of_wrongLength {o : Opcode} {a : Byte} {v : Half} {pl : List Word} {s : State}
    (hlive : s.faultCode = 0) (hlen : WrongLength (mkCommand o a v pl)) : RaisesIllegal o.code a v pl s :=
  raisesIllegal_of_illegalEncoding hlive (.inr (.inr (.inr (.inl hlen))))

theorem encodes_pack8 (p q : Word) : Encodes 0x20 0 0 [p, q] (.pack8 (bytesOfWords [p, q])) :=
  encodes_of_checks (o := .pack8) (reservedBitsZero_of_zero (by decide)) rfl rfl rfl (by simp [buildInstr])

theorem encodes_unpack8 (w : Word) : Encodes 0x21 0 0 [w] (.unpack8 w) :=
  encodes_of_checks (o := .unpack8) (reservedBitsZero_of_zero (by decide)) rfl rfl rfl
    (by simp [buildInstr, Command.word])

theorem encodes_tileRdpx (t : Half) : Encodes 0x23 0 t [] (.tileRdpx t) :=
  encodes_of_checks (o := .tileRdpx) (reservedBitsZero_of_zero t.isLt) rfl rfl rfl (by simp [buildInstr])

theorem encodes_tileRdw (t : Half) : Encodes 0x25 0 t [] (.tileRdw t) :=
  encodes_of_checks (o := .tileRdw) (reservedBitsZero_of_zero t.isLt) rfl rfl rfl (by simp [buildInstr])

/-! ### The pixel check -/

theorem withPixels_legal {px : List Byte} (hpx : ∀ p ∈ px, p.toNat ≤ 15) (s : State) (body : Result) :
    withPixels px s body = body := by
  have none_bad : ¬px.any badPixel = true := by simpa [badPixel] using hpx
  rw [withPixels, if_neg none_bad]

/-- One pixel above 15 is a `FormatError`, whatever the command does after the check (R124, R126). -/
theorem withPixels_bad {px : List Byte} {s : State} (hlive : s.faultCode = 0) (hbad : ∃ p ∈ px, 15 < p.toNat)
    (body : Result) : withPixels px s body = .next (faulted .formatError s) := by
  have some_bad : px.any badPixel = true := by simpa [badPixel] using hbad
  rw [withPixels, if_pos some_bad, raising_live hlive]

/-! ### The read of a tile -/

/-- The eight row words of tile `t`, row 0 first (spec/10_state.md R16). -/
def tileRows (s : State) (t : Nat) : List Word := (List.range 8).map fun r => s.tilew (8 * t + r)

@[simp] theorem tileRows_length (s : State) (t : Nat) : (tileRows s t).length = 8 := by
  simp [tileRows]

theorem getD_tileRows (s : State) (t : Nat) {r : Nat} (hr : r < 8) : (tileRows s t).getD r 0 = s.tilew (8 * t + r) :=
  getD_map_range hr 0

/-- Row `r` of tile slot `t` is tile word `8 t + r`. -/
theorem elemAddr_row (t r : Nat) : elemAddr .objtile t + 4 * r = tileWordAddr (8 * t + r) := by
  simp only [elemAddr, tileWordAddr, regionStride]
  omega

/-- The eight reads of a tile slot succeed and answer its rows (R127, R129). -/
theorem withRead_tile (s : State) {t : Nat} (ht : t < 1024) (body : List Word → Result) :
    withRead (elemAddr .objtile t) (memReadWords s (elemAddr .objtile t) 8) body = body (tileRows s t) := by
  have read : memReadWords s (elemAddr .objtile t) 8 = some (tileRows s t) := by
    simpa [elemAddr_row, tileRows, State.tilew] using memReadWords_tile s ht 0 8 (by decide)
  rw [read, withRead]

/-! ### The commands -/

theorem exec_pack8_legal {px : List Byte} {s : State} (hlive : s.faultCode = 0) (hlen : px.length = 8)
    (hpx : ∀ p ∈ px, p.toNat ≤ 15) : exec (.pack8 px) s = .next (s.respond .ok [packNibbles px]) := by
  change execPack8 px s = _
  rw [execPack8, unlessHalted_live hlive, if_pos hlen, withPixels_legal hpx, answering]

theorem exec_pack8_bad {px : List Byte} {s : State} (hlive : s.faultCode = 0) (hlen : px.length = 8)
    (hbad : ∃ p ∈ px, 15 < p.toNat) : exec (.pack8 px) s = .next (faulted .formatError s) := by
  change execPack8 px s = _
  rw [execPack8, unlessHalted_live hlive, if_pos hlen, withPixels_bad hlive hbad]

theorem exec_unpack8 {s : State} (hlive : s.faultCode = 0) (w : Word) :
    exec (.unpack8 w) s = .next (s.respond .ok (wordsOfBytes (unpackNibbles w))) := by
  change execUnpack8 w s = _
  rw [execUnpack8, unlessHalted_live hlive, answering]

/-- The index is checked first; where it is below the count, the pixels decide (R126). -/
theorem exec_tileWrpx_bad {t : Half} {px : List Byte} {s : State} (hlive : s.faultCode = 0) (hlen : px.length = 64)
    (ht : t.toNat < 1024) (hbad : ∃ p ∈ px, 15 < p.toNat) :
    exec (.tileWrpx t px) s = .next (faulted .formatError s) := by
  change execTileWrpx t px s = _
  rw [execTileWrpx, unlessHalted_live hlive, if_pos hlen, withIndex_lt ht, withPixels_bad hlive hbad]

theorem exec_tileRdpx_lt {t : Half} {s : State} (hlive : s.faultCode = 0) (ht : t.toNat < 1024) :
    exec (.tileRdpx t) s = .next (s.respond .ok (wordsOfBytes (unpackTile (tileRows s t.toNat)))) := by
  change execTileRdpx t s = _
  rw [execTileRdpx, unlessHalted_live hlive, withIndex_lt ht, withRead_tile s ht, answering]

theorem exec_tileRdpx_ge {t : Half} {s : State} (hlive : s.faultCode = 0) (ht : 1024 ≤ t.toNat) :
    exec (.tileRdpx t) s = .next (faulted .outOfRange s) := by
  change execTileRdpx t s = _
  rw [execTileRdpx, unlessHalted_live hlive, withIndex_ge_live ht hlive]

theorem exec_tileRdw_lt {t : Half} {s : State} (hlive : s.faultCode = 0) (ht : t.toNat < 1024) :
    exec (.tileRdw t) s = .next (s.respond .ok (tileRows s t.toNat)) := by
  change execTileRdw t s = _
  rw [execTileRdw, unlessHalted_live hlive, withIndex_lt ht, withRead_tile s ht, answering]

theorem exec_tileRdw_ge {t : Half} {s : State} (hlive : s.faultCode = 0) (ht : 1024 ≤ t.toNat) :
    exec (.tileRdw t) s = .next (faulted .outOfRange s) := by
  change execTileRdw t s = _
  rw [execTileRdw, unlessHalted_live hlive, withIndex_ge_live ht hlive]

/-- The response of TILE.RDPX: pixel `8 row + col` is byte `col mod 4` of word `2 row + col / 4`, and it is lane
`col` of the row's word (R127). -/
theorem byte_of_unpackTile {ws : List Word} {row col : Nat} (hrow : row < ws.length) (hcol : col < 8) :
    (((wordsOfBytes (unpackTile ws)).getD (2 * row + col / 4) 0).extractLsb' (8 * (col % 4)) 8).toNat =
      ((ws.getD row 0).extractLsb' (4 * col) 4).toNat := by
  have hword : 2 * row + col / 4 = (8 * row + col) / 4 := by omega
  have hbyte : col % 4 = (8 * row + col) % 4 := by omega
  have hlen : (unpackTile ws).length % 4 = 0 := by rw [unpackTile_length]; omega
  rw [hword, hbyte, byte_wordsOfBytes hlen, getD_unpackTile hrow hcol, toNat_getD_unpackNibbles _ hcol]

/-! ### The obligations -/

/-- Settles O33: the word's number by its digits, its lanes one by one, and the pixel check of the two commands that
are handed pixels. -/
theorem packedWordHoldsPixelInLane : Obligations.PackedWordHoldsPixelInLane := by
  refine ⟨fun px hlen hpx => ⟨?_, fun k => toNat_lane_packNibbles hpx⟩, fun s t px hlive hbad => ⟨?_, ?_⟩⟩
  · rw [toNat_packNibbles (Nat.le_of_eq hlen) hpx, ofDigits_eq_sum_range, hlen]
  · exact fun hlen => exec_pack8_bad hlive hlen hbad
  · exact fun hlen ht => exec_tileWrpx_bad hlive hlen ht hbad

/-- Settles O34, by the lanes: both round trips compare lane with lane. -/
theorem unpackInvertsPack : Obligations.UnpackInvertsPack :=
  ⟨fun w => ⟨unpackNibbles_length w, unpackNibbles_legal w, fun _ => toNat_getD_unpackNibbles w,
    packNibbles_unpackNibbles w⟩, fun _ => unpackNibbles_packNibbles⟩

/-- Settles O35, by the rows: row `i` of the pixels and word `i` of the tile determine each other. -/
theorem packTileRoundTrips : Obligations.PackTileRoundTrips := by
  refine ⟨fun px hlen => ⟨packTile_length px, fun i hi => ?_⟩, fun ws hlen => ⟨?_, fun i k hi hk => ?_⟩,
    fun px => unpackTile_packTile, fun ws => packTile_unpackTile⟩
  · rw [getD_packTile px hi, pixelRow_eq (by omega)]
  · rw [unpackTile_length, hlen]
  · rw [getD_unpackTile (hlen ▸ hi) hk, toNat_getD_unpackNibbles _ hk]

/-- Settles O36: the payload's bytes, the packed word's lanes, the pixel check, and check (4) for every other payload
length. -/
theorem packCommandPacksEightPixels : Obligations.PackCommandPacksEightPixels := by
  intro s px hlive
  refine ⟨fun p q => ⟨_, encodes_pack8 p q, bytesOfWords_length [p, q], fun j _ => getD_bytesOfWords [p, q] j⟩,
    fun hlen hpx => ⟨_, exec_pack8_legal hlive hlen hpx, fun k => toNat_lane_packNibbles hpx⟩,
    exec_pack8_bad hlive, fun pl hlen => ?_⟩
  have wrong : WrongLength (mkCommand .pack8 0 0 pl) := ⟨2, by rw [mkCommand_op]; rfl, hlen⟩
  exact raisesIllegal_of_wrongLength (o := .pack8) hlive wrong

/-- Settles O37: pixel `j` of the low word is lane `j`, pixel `j` of the high word lane `4 + j`. -/
theorem unpackCommandAnswersPixelBytes : Obligations.UnpackCommandAnswersPixelBytes := by
  intro s w hlive
  have answer := exec_unpack8 hlive w
  have two : (wordsOfBytes (unpackNibbles w)).length = 2 := by rw [wordsOfBytes_length, unpackNibbles_length]
  obtain ⟨lo, hi, words⟩ := List.length_eq_two.1 two
  have byte (j : Nat) (hj : j < 8) :
      (([lo, hi].getD (j / 4) 0).extractLsb' (8 * (j % 4)) 8).toNat = (w.extractLsb' (4 * j) 4).toNat := by
    rw [← words, byte_wordsOfBytes (by simp), toNat_getD_unpackNibbles w hj]
  rw [words] at answer
  refine ⟨encodes_unpack8 w, lo, hi, answer, fun j hj => ⟨?_, ?_⟩⟩
  · simpa [Nat.div_eq_of_lt hj, Nat.mod_eq_of_lt hj] using byte j (by omega)
  · have hdiv : (4 + j) / 4 = 1 := by omega
    have hmod : (4 + j) % 4 = j := by omega
    simpa [hdiv, hmod, Nat.mul_add] using byte (4 + j) (by omega)

/-- Settles O39, by the read of the tile's rows; TILE.RDPX's bytes are the rows' lanes. -/
theorem tileReadsAnswerTheTile : Obligations.TileReadsAnswerTheTile := by
  intro s t hlive
  refine ⟨encodes_tileRdw t, encodes_tileRdpx t, fun ht => ⟨exec_tileRdw_lt hlive ht, _, exec_tileRdpx_lt hlive ht,
    ?_, fun row col hrow hcol => ?_⟩, fun ht => ⟨exec_tileRdw_ge hlive ht, exec_tileRdpx_ge hlive ht⟩⟩
  · rw [wordsOfBytes_length, unpackTile_length, tileRows_length]
  · rw [byte_of_unpackTile (by simpa using hrow) hcol, getD_tileRows s _ hrow]

end Sys2Proof.Proofs
end

section
/-! The tile mapper's reading commands (spec/42_tile_mapper.md R140, R141, R143, R144, R147): MAP.PX, MAP.QUAD and
BLOB.RD; no instruction changes a blob that exists. -/

namespace Sys2Proof.Proofs

open Sys2Proof Sys2Proof.Machine

/-! ### Operands -/

/-- Check (5) turns the command away. -/
theorem raisesIllegal_of_reservedPayloadBit {o : Opcode} {a : Byte} {v : Half} {pl : List Word} {s : State}
    (hlive : s.faultCode = 0) (hbit : ReservedPayloadBit (mkCommand o a v pl)) : RaisesIllegal o.code a v pl s :=
  raisesIllegal_of_illegalEncoding hlive (.inr (.inr (.inr (.inr hbit))))

theorem encodes_mapPx (wt x y : Half) : Encodes 0x30 0 wt [pairWord y x] (.mapPx wt x y) :=
  encodes_of_checks (o := .mapPx) (reservedBitsZero_of_zero wt.isLt) rfl rfl rfl
    (by simp [buildInstr, Command.word])

theorem encodes_mapQuad (wt k : Half) : Encodes 0x31 0 wt [pairWord 0 k] (.mapQuad wt k) :=
  encodes_of_checks (o := .mapQuad) (reservedBitsZero_of_zero wt.isLt) rfl rfl
    (by simp [payloadBitsZero, Command.word]) (by simp [buildInstr, Command.word])

theorem encodes_blobRd (j : Word) : Encodes 0x33 0 0 [j] (.blobRd j) :=
  encodes_of_checks (o := .blobRd) (reservedBitsZero_of_zero (by decide)) rfl rfl rfl
    (by simp [buildInstr, Command.word])

/-! ### The formulas fit a response word -/

/-- 16-bit coordinates and a 16-bit width give a tile index of at most 29 bits (R140). -/
theorem tileIndex_lt (wt x y : Half) : tileIndex wt.toNat x.toNat y.toNat < 2 ^ 32 := by
  have hx : x.toNat / 8 < 2 ^ 13 := by omega
  have hy : y.toNat / 8 ≤ 2 ^ 13 := by omega
  have rows : y.toNat / 8 * wt.toNat ≤ 2 ^ 13 * 2 ^ 16 := Nat.mul_le_mul hy wt.isLt.le
  unfold tileIndex
  omega

/-- The offset in a tile is one of its 64 pixels (R140). -/
theorem intraTile_lt (x y : Nat) : intraTile x y < 64 := by
  unfold intraTile
  omega

/-- The model's `tl` is R141's `2·(k / h)·W_t + 2·(k mod h)`. -/
theorem quadTopLeft_eq (wt k : Nat) : quadTopLeft wt k = 2 * (k / (wt / 2)) * wt + 2 * (k % (wt / 2)) := by
  rw [quadTopLeft, Nat.mul_add, Nat.mul_assoc]

/-- On a sheet of even width a row of cells takes four tiles a cell, so the top left tile is at most `4 k` (R141). -/
theorem quadTopLeft_le {wt : Nat} (heven : wt % 2 = 0) (k : Nat) : quadTopLeft wt k ≤ 4 * k := by
  have twice : wt = 2 * (wt / 2) := by omega
  have cells := Nat.div_add_mod' k (wt / 2)
  calc quadTopLeft wt k = 2 * (k / (wt / 2) * (2 * (wt / 2)) + k % (wt / 2)) := by rw [quadTopLeft, ← twice]
    _ = 4 * (k / (wt / 2) * (wt / 2)) + 2 * (k % (wt / 2)) := by ring
    _ ≤ 4 * k := by omega

/-! ### The commands -/

theorem exec_mapPx_inside {wt x y : Half} {s : State} (hlive : s.faultCode = 0) (hwt : wt ≠ 0)
    (hx : x.toNat < 8 * wt.toNat) :
    exec (.mapPx wt x y) s = .next (s.respond .ok [BitVec.ofNat 32 (tileIndex wt.toNat x.toNat y.toNat),
      BitVec.ofNat 32 (intraTile x.toNat y.toNat)]) := by
  change execMapPx wt x y s = _
  rw [execMapPx, unlessHalted_live hlive, if_neg hwt, if_neg (Nat.not_le.2 hx), answering]

theorem exec_mapPx_noWidth {wt x y : Half} {s : State} (hlive : s.faultCode = 0) (hwt : wt = 0) :
    exec (.mapPx wt x y) s = .next (faulted .formatError s) := by
  change execMapPx wt x y s = _
  rw [execMapPx, unlessHalted_live hlive, if_pos hwt, raising_live hlive]

theorem exec_mapPx_outside {wt x y : Half} {s : State} (hlive : s.faultCode = 0) (hwt : wt ≠ 0)
    (hx : 8 * wt.toNat ≤ x.toNat) : exec (.mapPx wt x y) s = .next (faulted .outOfRange s) := by
  change execMapPx wt x y s = _
  rw [execMapPx, unlessHalted_live hlive, if_neg hwt, if_pos hx, raising_live hlive]

theorem exec_mapQuad_even {wt k : Half} {s : State} (hlive : s.faultCode = 0) (hwt : wt ≠ 0)
    (heven : wt.toNat % 2 = 0) :
    exec (.mapQuad wt k) s = .next (s.respond .ok ((quadTiles wt.toNat k.toNat).map (BitVec.ofNat 32))) := by
  have defined : ¬(wt = 0 ∨ wt.toNat % 2 = 1) := not_or.2 ⟨hwt, by omega⟩
  change execMapQuad wt k s = _
  rw [execMapQuad, unlessHalted_live hlive, if_neg defined, answering]

theorem exec_mapQuad_undefined {wt k : Half} {s : State} (hlive : s.faultCode = 0)
    (hwt : wt = 0 ∨ wt.toNat % 2 = 1) : exec (.mapQuad wt k) s = .next (faulted .formatError s) := by
  change execMapQuad wt k s = _
  rw [execMapQuad, unlessHalted_live hlive, if_pos hwt, raising_live hlive]

theorem exec_blobRd_lt {j : Word} {s : State} (hlive : s.faultCode = 0) (hj : j.toNat < s.blobLen) :
    exec (.blobRd j) s = .next (s.respond .ok [s.blob.getD j.toNat 0]) := by
  have word : s.blob[j.toNat]? = some (s.blob.getD j.toNat 0) := by
    rw [List.getD_eq_getElem _ _ hj, List.getElem?_eq_getElem hj]
  change execBlobRd j s = _
  rw [execBlobRd, unlessHalted_live hlive, word]
  rfl

theorem exec_blobRd_ge {j : Word} {s : State} (hlive : s.faultCode = 0) (hj : s.blobLen ≤ j.toNat) :
    exec (.blobRd j) s = .next (faulted .outOfRange s) := by
  have word : s.blob[j.toNat]? = none := List.getElem?_eq_none hj
  change execBlobRd j s = _
  rw [execBlobRd, unlessHalted_live hlive, word]
  exact raising_live hlive _

/-- CMP.BITMAP alone writes the blob, and only while there is none (R146): an existing blob stays word for word. -/
theorem blob_eq_of_exec {i : Instr} {s t : State} (hblob : s.blob ≠ []) (hexec : exec i s = .next t) :
    t.blob = s.blob := by
  cases exec_effect hexec with
  | compile _ _ hempty => exact absurd hempty hblob
  | store => rw [State.respond_blob, runStores_blob]
  | _ => rfl

/-! ### The obligations -/

/-- Settles O43: the four tiles of an even width stay below `4 k + W_t + 2`, so no response word overflows; check (5)
turns away a high bit in the index word. -/
theorem mapQuadAnswersTheFourTiles : Obligations.MapQuadAnswersTheFourTiles := by
  intro s wt k hlive
  refine ⟨encodes_mapQuad wt k, fun p hp => ?_, fun hwt heven => ?_, exec_mapQuad_undefined hlive⟩
  · exact raisesIllegal_of_reservedPayloadBit (o := .mapQuad) hlive (.inl ⟨by simp [Opcode.code], by simpa using hp⟩)
  · have bound := quadTopLeft_le heven k.toNat
    have hk := k.isLt
    have hw := wt.isLt
    have fits {n : Nat} (hn : n ≤ quadTopLeft wt.toNat k.toNat + wt.toNat + 1) : (BitVec.ofNat 32 n).toNat = n :=
      Nat.mod_eq_of_lt (by omega)
    refine ⟨_, _, _, _, ?_, ?_, ?_, ?_, exec_mapQuad_even hlive hwt heven⟩
    · rw [fits (by omega), quadTopLeft_eq]
    · rw [fits (by omega), fits (by omega)]
    · rw [fits (by omega), fits (by omega)]
    · rw [fits (by omega), fits (by omega)]

/-- Settles O47: the read by the two sides of the blob's length, the blob's constancy by `exec_effect`. -/
theorem blobRdReadsTheBlob : Obligations.BlobRdReadsTheBlob := by
  intro s j hlive
  exact ⟨encodes_blobRd j, exec_blobRd_lt hlive, exec_blobRd_ge hlive, fun _ _ => blob_eq_of_exec⟩

/-- Settles O42, by the branches of MAP.PX; neither number of the answer overflows its word. -/
theorem mapPxAnswersTileAndOffset : Obligations.MapPxAnswersTileAndOffset := by
  intro s wt x y hlive
  refine ⟨encodes_mapPx wt x y, fun hwt hx => ?_, exec_mapPx_noWidth hlive, exec_mapPx_outside hlive⟩
  have tileFits : (BitVec.ofNat 32 (tileIndex wt.toNat x.toNat y.toNat)).toNat =
      tileIndex wt.toNat x.toNat y.toNat :=
    Nat.mod_eq_of_lt (tileIndex_lt wt x y)
  have offsetFits : (BitVec.ofNat 32 (intraTile x.toNat y.toNat)).toNat = intraTile x.toNat y.toNat :=
    Nat.mod_eq_of_lt ((intraTile_lt _ _).trans (by decide))
  exact ⟨_, _, tileFits, offsetFits, exec_mapPx_inside hlive hwt hx⟩

end Sys2Proof.Proofs
end

section
/-! The sprite descriptor as numbers (spec/43_sprite_descriptor.md R171, R172): what `encode` and `decode` make of each
word, and the two round trips. -/

namespace Sys2Proof.Proofs

open Sys2Proof Sys2Proof.Machine

/-- A high field shifted past a low field: the two do not overlap, so the word is their sum (R171). -/
theorem toNat_fieldWord {m n k : Nat} (hi : BitVec m) (lo : BitVec n) (hlo : n ≤ k) (hhi : k + m ≤ 16) :
    (hi.setWidth 16 <<< k ||| lo.setWidth 16 : Half).toNat = 2 ^ k * hi.toNat + lo.toNat := by
  have low : lo.toNat < 2 ^ k := lo.isLt.trans_le (Nat.pow_le_pow_right (by decide) hlo)
  have lowFits : lo.toNat < 2 ^ 16 := lo.isLt.trans_le (Nat.pow_le_pow_right (by decide) (by omega))
  have highFits : hi.toNat < 2 ^ 16 := hi.isLt.trans_le (Nat.pow_le_pow_right (by decide) (by omega))
  have shiftFits : hi.toNat <<< k < 2 ^ 16 := by
    calc hi.toNat <<< k = 2 ^ k * hi.toNat := by rw [Nat.shiftLeft_eq, Nat.mul_comm]
      _ < 2 ^ k * 2 ^ m := Nat.mul_lt_mul_of_pos_left hi.isLt (Nat.two_pow_pos k)
      _ = 2 ^ (k + m) := (Nat.pow_add 2 k m).symm
      _ ≤ 2 ^ 16 := Nat.pow_le_pow_right (by decide) hhi
  rw [BitVec.toNat_or, BitVec.toNat_shiftLeft, BitVec.toNat_setWidth, BitVec.toNat_setWidth,
    Nat.mod_eq_of_lt highFits, Nat.mod_eq_of_lt shiftFits, Nat.mod_eq_of_lt lowFits,
    ← Nat.shiftLeft_add_eq_or_of_lt low, Nat.shiftLeft_eq, Nat.mul_comm]

/-- A bit range of a word as a number. -/
theorem toNat_bitRange (w : Half) (k len : Nat) : (w.extractLsb' k len).toNat = w.toNat / 2 ^ k % 2 ^ len := by
  rw [BitVec.extractLsb'_toNat, Nat.shiftRight_eq_div_pow]

/-! ### `encode` and `decode` -/

theorem toNat_encodeDesc_w0 (f : DescFields) : (encodeDesc f).w0.toNat = 2 ^ 14 * f.shape.toNat + f.y.toNat :=
  toNat_fieldWord f.shape f.y (by decide) (by decide)

theorem toNat_encodeDesc_w1 (f : DescFields) : (encodeDesc f).w1.toNat = 2 ^ 14 * f.size.toNat + f.x.toNat :=
  toNat_fieldWord f.size f.x (by decide) (by decide)

theorem toNat_encodeDesc_w2 (f : DescFields) : (encodeDesc f).w2.toNat = 2 ^ 12 * f.palette.toNat + f.tile.toNat :=
  toNat_fieldWord f.palette f.tile (by decide) (by decide)

/-- A field at the top of its word is what is left above it. -/
theorem toNat_topField (w : Half) {k len : Nat} (htop : k + len = 16) :
    (w.extractLsb' k len).toNat = w.toNat / 2 ^ k := by
  have hlt : w.toNat / 2 ^ k < 2 ^ len := Nat.div_lt_of_lt_mul (by rw [← Nat.pow_add, htop]; exact w.isLt)
  rw [toNat_bitRange, Nat.mod_eq_of_lt hlt]

/-- A field at the bottom of its word is what is left below its width. -/
theorem toNat_bottomField (w : Half) (len : Nat) : (w.extractLsb' 0 len).toNat = w.toNat % 2 ^ len := by
  rw [toNat_bitRange, Nat.pow_zero, Nat.div_one]

theorem toNat_decodeDesc_shape (d : Desc) : (decodeDesc d).shape.toNat = d.w0.toNat / 2 ^ 14 :=
  toNat_topField d.w0 rfl

theorem toNat_decodeDesc_size (d : Desc) : (decodeDesc d).size.toNat = d.w1.toNat / 2 ^ 14 :=
  toNat_topField d.w1 rfl

theorem toNat_decodeDesc_tile (d : Desc) : (decodeDesc d).tile.toNat = d.w2.toNat % 2 ^ 10 :=
  toNat_bottomField d.w2 10

theorem toNat_decodeDesc_palette (d : Desc) : (decodeDesc d).palette.toNat = d.w2.toNat / 2 ^ 12 :=
  toNat_topField d.w2 rfl

theorem toNat_decodeDesc_x (d : Desc) : (decodeDesc d).x.toNat = d.w1.toNat % 2 ^ 9 :=
  toNat_bottomField d.w1 9

theorem toNat_decodeDesc_y (d : Desc) : (decodeDesc d).y.toNat = d.w0.toNat % 2 ^ 8 :=
  toNat_bottomField d.w0 8

/-- The bits without a field as numbers (R171). -/
theorem spareZero_iff_toNat (d : Desc) :
    d.spareZero = true ↔
      d.w0.toNat / 2 ^ 8 % 2 ^ 6 = 0 ∧ d.w1.toNat / 2 ^ 9 % 2 ^ 5 = 0 ∧ d.w2.toNat / 2 ^ 10 % 2 ^ 2 = 0 := by
  simp only [spareZero_iff, Desc.spare, Prod.mk.injEq, BitVec.toNat_eq, toNat_bitRange, BitVec.ofNat_eq_ofNat,
    BitVec.toNat_ofNat, Nat.zero_mod]

/-- Two descriptors with the same three numbers are the same. -/
theorem desc_eq_iff_toNat (d e : Desc) :
    d = e ↔ d.w0.toNat = e.w0.toNat ∧ d.w1.toNat = e.w1.toNat ∧ d.w2.toNat = e.w2.toNat := by
  cases d; cases e
  simp only [Desc.mk.injEq, BitVec.toNat_eq]

/-- Six fields with the same numbers are the same fields. -/
theorem descFields_eq_of_toNat {f g : DescFields} (hshape : f.shape.toNat = g.shape.toNat)
    (hsize : f.size.toNat = g.size.toNat) (htile : f.tile.toNat = g.tile.toNat)
    (hpalette : f.palette.toNat = g.palette.toNat) (hx : f.x.toNat = g.x.toNat) (hy : f.y.toNat = g.y.toNat) :
    f = g := by
  cases f; cases g
  simp only [DescFields.mk.injEq, BitVec.toNat_eq]
  exact ⟨hshape, hsize, htile, hpalette, hx, hy⟩

/-! ### The round trips -/

/-- Each field is the quotient or the remainder of the word `encode` sums it into (R172). -/
theorem decodeDesc_encodeDesc (f : DescFields) : decodeDesc (encodeDesc f) = f := by
  have hx := f.x.isLt
  have hy := f.y.isLt
  have htile := f.tile.isLt
  refine descFields_eq_of_toNat ?_ ?_ ?_ ?_ ?_ ?_
  · rw [toNat_decodeDesc_shape, toNat_encodeDesc_w0]; omega
  · rw [toNat_decodeDesc_size, toNat_encodeDesc_w1]; omega
  · rw [toNat_decodeDesc_tile, toNat_encodeDesc_w2]; omega
  · rw [toNat_decodeDesc_palette, toNat_encodeDesc_w2]; omega
  · rw [toNat_decodeDesc_x, toNat_encodeDesc_w1]; omega
  · rw [toNat_decodeDesc_y, toNat_encodeDesc_w0]; omega

/-- `encode` puts zeros into the bits without a field and the fields back into theirs, so it undoes `decode` word by
word exactly where those bits were zero (R172). -/
theorem encodeDesc_decodeDesc_iff (d : Desc) : encodeDesc (decodeDesc d) = d ↔ d.spareZero = true := by
  have word0 : 2 ^ 14 * (d.w0.toNat / 2 ^ 14) + d.w0.toNat % 2 ^ 8 = d.w0.toNat ↔ d.w0.toNat / 2 ^ 8 % 2 ^ 6 = 0 := by
    omega
  have word1 : 2 ^ 14 * (d.w1.toNat / 2 ^ 14) + d.w1.toNat % 2 ^ 9 = d.w1.toNat ↔ d.w1.toNat / 2 ^ 9 % 2 ^ 5 = 0 := by
    omega
  have word2 : 2 ^ 12 * (d.w2.toNat / 2 ^ 12) + d.w2.toNat % 2 ^ 10 = d.w2.toNat ↔
      d.w2.toNat / 2 ^ 10 % 2 ^ 2 = 0 := by
    omega
  rw [desc_eq_iff_toNat, spareZero_iff_toNat, toNat_encodeDesc_w0, toNat_encodeDesc_w1, toNat_encodeDesc_w2,
    toNat_decodeDesc_shape, toNat_decodeDesc_size, toNat_decodeDesc_tile, toNat_decodeDesc_palette,
    toNat_decodeDesc_x, toNat_decodeDesc_y, word0, word1, word2]

/-- Every field zero: what DESC.NEW starts from (R173). -/
def zeroFields : DescFields := { shape := 0, size := 0, tile := 0, palette := 0, x := 0, y := 0 }

theorem decodeDesc_zeroDesc : decodeDesc zeroDesc = zeroFields := by decide

theorem encodeDesc_zeroFields : encodeDesc zeroFields = zeroDesc := by decide

/-- Settles O50: the words and the fields as numbers, then the two round trips by arithmetic on them. -/
theorem descriptorDecodeInvertsEncode : Obligations.DescriptorDecodeInvertsEncode :=
  ⟨fun f => ⟨toNat_encodeDesc_w0 f, toNat_encodeDesc_w1 f, toNat_encodeDesc_w2 f⟩,
    fun d => ⟨toNat_decodeDesc_shape d, toNat_decodeDesc_size d, toNat_decodeDesc_tile d, toNat_decodeDesc_palette d,
      toNat_decodeDesc_x d, toNat_decodeDesc_y d⟩,
    decodeDesc_encodeDesc, encodeDesc_decodeDesc_iff, decodeDesc_zeroDesc, encodeDesc_zeroFields⟩

end Sys2Proof.Proofs
end

section
/-! The builder commands (spec/43_sprite_descriptor.md R173 to R178): the field each of them writes, the fields it
keeps, and its answer on a CORE that is not halted. -/

namespace Sys2Proof.Proofs

open Sys2Proof Sys2Proof.Machine

/-! ### A masked update, by its bit ranges -/

/-- Bits that a masked update clears are the bits it puts in. -/
theorem extract_masked_or_cleared (w mask v : Half) (k len : Nat)
    (hm : ∀ i, i < len → mask.getLsbD (k + i) = false) :
    (w &&& mask ||| v).extractLsb' k len = v.extractLsb' k len := by
  refine BitVec.eq_of_getLsbD_eq fun i hi => ?_
  simp [hi, hm i hi]

/-- A field widened to its word is read at the bottom of it. -/
theorem extract_field_low {n : Nat} (v : BitVec n) (hn : n ≤ 16) : (v.setWidth 16).extractLsb' 0 n = v := by
  rw [BitVec.extractLsb'_setWidth_of_le (by omega), extract_full]

/-- A field shifted into its word is read where it was shifted to. -/
theorem extract_field_high {n k : Nat} (v : BitVec n) (hk : k + n ≤ 16) :
    (v.setWidth 16 <<< k : Half).extractLsb' k n = v := by
  refine BitVec.eq_of_getLsbD_eq fun i hi => ?_
  simp [hi, (by omega : k + i < 16)]

theorem decodeDesc_withSize (d : Desc) (shape size : BitVec 2) :
    decodeDesc (d.withSize shape size) = { decodeDesc d with shape := shape, size := size } := by
  simp only [decodeDesc, Desc.withSize]
  rw [extract_masked_or_cleared _ _ _ 14 2 (by decide), extract_field_high shape (by decide),
    extract_masked_or_cleared _ _ _ 14 2 (by decide), extract_field_high size (by decide),
    extract_masked_or _ _ _ 0 9 (by decide) fun i hi => getLsbD_field_high _ _ _ (by omega),
    extract_masked_or _ _ _ 0 8 (by decide) fun i hi => getLsbD_field_high _ _ _ (by omega)]

theorem decodeDesc_withTile (d : Desc) (tile : BitVec 10) :
    decodeDesc (d.withTile tile) = { decodeDesc d with tile := tile } := by
  simp only [decodeDesc, Desc.withTile]
  rw [extract_masked_or_cleared _ _ _ 0 10 (by decide), extract_field_low tile (by decide),
    extract_masked_or _ _ _ 12 4 (by decide) fun i hi => getLsbD_field_low _ _ (by omega)]

theorem decodeDesc_withPalette (d : Desc) (palette : BitVec 4) :
    decodeDesc (d.withPalette palette) = { decodeDesc d with palette := palette } := by
  simp only [decodeDesc, Desc.withPalette]
  rw [extract_masked_or_cleared _ _ _ 12 4 (by decide), extract_field_high palette (by decide),
    extract_masked_or _ _ _ 0 10 (by decide) fun i hi => getLsbD_field_high _ _ _ (by omega)]

theorem decodeDesc_withX (d : Desc) (x : BitVec 9) : decodeDesc (d.withX x) = { decodeDesc d with x := x } := by
  simp only [decodeDesc, Desc.withX]
  rw [extract_masked_or_cleared _ _ _ 0 9 (by decide), extract_field_low x (by decide),
    extract_masked_or _ _ _ 14 2 (by decide) fun i hi => getLsbD_field_low _ _ (by omega)]

theorem decodeDesc_withY (d : Desc) (y : BitVec 8) : decodeDesc (d.withY y) = { decodeDesc d with y := y } := by
  simp only [decodeDesc, Desc.withY]
  rw [extract_masked_or_cleared _ _ _ 0 8 (by decide), extract_field_low y (by decide),
    extract_masked_or _ _ _ 14 2 (by decide) fun i hi => getLsbD_field_low _ _ (by omega)]

/-! ### The field commands -/

/-- The fields after a command: a field command replaces its own, any other keeps all six (R174 to R178). -/
def replaceFields (f : DescFields) : Instr → DescFields
  | .descSize shape size => { f with shape := shape, size := size }
  | .descTile tile => { f with tile := tile }
  | .descPal palette => { f with palette := palette }
  | .descX x => { f with x := x }
  | .descY y => { f with y := y }
  | _ => f

/-- A builder command on a CORE that is not halted (R170). -/
theorem building_live {s : State} (hlive : s.faultCode = 0) (d : Desc) :
    building s d = .next ({ s with desc := d }.respond .ok []) := by
  rw [building, unlessHalted_live hlive, answering]

theorem exec_descNew {s : State} (hlive : s.faultCode = 0) :
    exec .descNew s = .next ({ s with desc := zeroDesc }.respond .ok []) :=
  building_live hlive zeroDesc

/-- What every field command does: `desc` takes the replaced field and keeps the rest, its bits without a field among
them; `OK` is answered without words, and nothing else changes. -/
theorem exec_fieldCommand {i : Instr} {s : State} (hlive : s.faultCode = 0) (hi : isFieldCommand i = true) :
    ∃ d : Desc, exec i s = .next ({ s with desc := d }.respond .ok []) ∧
      decodeDesc d = replaceFields (decodeDesc s.desc) i ∧ d.spare = s.desc.spare := by
  cases i with
  | descSize shape size =>
    exact ⟨_, building_live hlive _, decodeDesc_withSize s.desc shape size, withSize_spare s.desc shape size⟩
  | descTile tile => exact ⟨_, building_live hlive _, decodeDesc_withTile s.desc tile, withTile_spare s.desc tile⟩
  | descPal palette =>
    exact ⟨_, building_live hlive _, decodeDesc_withPalette s.desc palette, withPalette_spare s.desc palette⟩
  | descX x => exact ⟨_, building_live hlive _, decodeDesc_withX s.desc x, withX_spare s.desc x⟩
  | descY y => exact ⟨_, building_live hlive _, decodeDesc_withY s.desc y, withY_spare s.desc y⟩
  | _ => cases hi

/-! ### Operands -/

theorem encodes_descNew : Encodes 0x40 0 0 [] .descNew :=
  encodes_of_checks (o := .descNew) (reservedBitsZero_of_zero (by decide)) rfl rfl rfl rfl

theorem encodes_descSize {v : Half} (hv : v.toNat ≤ 15) :
    Encodes 0x41 0 v [] (.descSize (v.extractLsb' 2 2) (v.extractLsb' 0 2)) :=
  encodes_of_checks (o := .descSize) (reservedBitsZero_of_zero (Nat.lt_succ_of_le hv)) rfl rfl rfl
    (by simp [buildInstr])

theorem encodes_descTile {v : Half} (hv : v.toNat ≤ 1023) : Encodes 0x42 0 v [] (.descTile (v.setWidth 10)) :=
  encodes_of_checks (o := .descTile) (reservedBitsZero_of_zero (Nat.lt_succ_of_le hv)) rfl rfl rfl
    (by simp [buildInstr, BitVec.setWidth_eq_extractLsb'])

theorem encodes_descPal {v : Half} (hv : v.toNat ≤ 15) : Encodes 0x43 0 v [] (.descPal (v.setWidth 4)) :=
  encodes_of_checks (o := .descPal) (reservedBitsZero_of_zero (Nat.lt_succ_of_le hv)) rfl rfl rfl
    (by simp [buildInstr, BitVec.setWidth_eq_extractLsb'])

theorem encodes_descX {v : Half} (hv : v.toNat ≤ 511) : Encodes 0x44 0 v [] (.descX (v.setWidth 9)) :=
  encodes_of_checks (o := .descX) (reservedBitsZero_of_zero (Nat.lt_succ_of_le hv)) rfl rfl rfl
    (by simp [buildInstr, BitVec.setWidth_eq_extractLsb'])

theorem encodes_descY {v : Half} (hv : v.toNat ≤ 255) : Encodes 0x45 0 v [] (.descY (v.setWidth 8)) :=
  encodes_of_checks (o := .descY) (reservedBitsZero_of_zero (Nat.lt_succ_of_le hv)) rfl rfl rfl
    (by simp [buildInstr, BitVec.setWidth_eq_extractLsb'])

/-- Check (2) turns away an operand past the width of its field (R84). -/
theorem raisesIllegal_of_wideOperand {o : Opcode} {v : Half} {s : State} (hlive : s.faultCode = 0)
    (hv : 2 ^ o.operandBits ≤ v.toNat) : RaisesIllegal o.code 0 v [] s := by
  have wide : reservedBitsZero o (mkCommand o 0 v []) = false := by
    simp [reservedBitsZero, Nat.not_lt.2 hv]
  exact raisesIllegal_of_reservedBit hlive ((reservedBitsZero_eq_false_iff (mkCommand_op ..)).1 wide)

/-! ### The obligation -/

/-- Settles O51: every field command by `exec_fieldCommand`, the operands by check (2) on the two sides of each
width. -/
theorem builderCommandsReplaceOneField : Obligations.BuilderCommandsReplaceOneField := by
  intro s hlive
  refine ⟨encodes_descNew, exec_descNew hlive, fun shape size tile palette x y => ?_, fun v => ?_⟩
  · have replaces {i : Instr} (hi : isFieldCommand i = true) := exec_fieldCommand hlive hi
    simp only [List.forall_mem_cons]
    exact ⟨replaces rfl, replaces rfl, replaces rfl, replaces rfl, replaces rfl, by simp⟩
  · have illegal {o : Opcode} (hv : 2 ^ o.operandBits ≤ v.toNat) : RaisesIllegal o.code 0 v [] s :=
      raisesIllegal_of_wideOperand hlive hv
    exact ⟨fun hv => ⟨encodes_descSize hv, encodes_descPal hv⟩,
      fun hv => ⟨illegal (o := .descSize) hv, illegal (o := .descPal) hv⟩,
      encodes_descTile, illegal (o := .descTile), encodes_descX, illegal (o := .descX),
      encodes_descY, illegal (o := .descY)⟩

end Sys2Proof.Proofs
end

section
/-! Order independence of the builder (spec/43_sprite_descriptor.md R187): the fields after a sequence of field commands
depend on the last command of each kind only. -/

namespace Sys2Proof.Proofs

open Sys2Proof Sys2Proof.Machine

/-! ### The last command of a kind -/

@[simp] theorem lastOf_nil (o : Opcode) : lastOf o [] = none := rfl

/-- One more command at the end is the last of its own kind, and no other kind notices it. -/
theorem lastOf_append_singleton (o : Opcode) (is : List Instr) (i : Instr) :
    lastOf o (is ++ [i]) = if i.opcode = o then some i else lastOf o is := by
  rw [lastOf, List.reverse_append, List.reverse_singleton, List.singleton_append]
  split
  next hkind => exact List.find?_cons_of_pos (by simpa using hkind)
  next hkind => exact List.find?_cons_of_neg (by simpa using hkind)

/-! ### The fields of one kind of command -/

/-- The fields a kind of command sets, the others zero: DESC.SIZE sets two, every other builder command one (R174 to
R178). -/
def fieldsOf (o : Opcode) (f : DescFields) : DescFields :=
  match o with
  | .descSize => { zeroFields with shape := f.shape, size := f.size }
  | .descTile => { zeroFields with tile := f.tile }
  | .descPal => { zeroFields with palette := f.palette }
  | .descX => { zeroFields with x := f.x }
  | .descY => { zeroFields with y := f.y }
  | _ => zeroFields

/-- The five kinds between them set all six fields. -/
theorem descFields_eq_of_fieldsOf {f g : DescFields} (h : ∀ o, fieldsOf o f = fieldsOf o g) : f = g := by
  have hsize := h .descSize
  have htile := h .descTile
  have hpal := h .descPal
  have hx := h .descX
  have hy := h .descY
  cases f; cases g
  simp_all [fieldsOf]

/-- A command replaces the fields of its own kind, whatever they were. -/
theorem fieldsOf_replaceFields_same (f g : DescFields) (i : Instr) :
    fieldsOf i.opcode (replaceFields f i) = fieldsOf i.opcode (replaceFields g i) := by
  cases i <;> rfl

/-- A command keeps the fields of every other kind. -/
theorem fieldsOf_replaceFields_other {o : Opcode} {i : Instr} (f : DescFields) (hkind : i.opcode ≠ o) :
    fieldsOf o (replaceFields f i) = fieldsOf o f := by
  cases i with
  | descSize _ _ | descTile _ | descPal _ | descX _ | descY _ =>
    unfold fieldsOf
    split <;> simp_all [replaceFields, Instr.opcode]
  | _ => rfl

/-- Of the fields of one kind, a sequence leaves what the last command of that kind set, and where there is none what
was there before. -/
theorem fieldsOf_foldl_replaceFields (o : Opcode) (ops : List Instr) (f : DescFields) :
    fieldsOf o (ops.foldl replaceFields f) = fieldsOf o ((lastOf o ops).elim f (replaceFields f)) := by
  induction ops using List.reverseRecOn with
  | nil => rfl
  | append_singleton ops i ih =>
    rw [List.foldl_append, List.foldl_cons, List.foldl_nil, lastOf_append_singleton]
    split
    next hkind =>
      subst hkind
      exact fieldsOf_replaceFields_same _ f i
    next hkind => rw [fieldsOf_replaceFields_other _ hkind, ih]

/-! ### The sequences -/

theorem runInstrs_cons_next {i : Instr} {s t : State} (hexec : exec i s = .next t) (is : List Instr) :
    runInstrs (i :: is) s = runInstrs is t := by
  rw [runInstrs, hexec]

/-- A sequence of field commands runs to its end: its replacements one after another, the bits without a field kept. -/
theorem runInstrs_fieldCommands {ops : List Instr} {s : State} (hlive : s.faultCode = 0)
    (hops : ∀ i ∈ ops, isFieldCommand i = true) :
    ∃ t, runInstrs ops s = .next t ∧ decodeDesc t.desc = ops.foldl replaceFields (decodeDesc s.desc) ∧
      t.desc.spare = s.desc.spare := by
  induction ops generalizing s with
  | nil => exact ⟨s, rfl, rfl, rfl⟩
  | cons i ops ih =>
    obtain ⟨hi, hrest⟩ := List.forall_mem_cons.1 hops
    obtain ⟨d, hexec, hfields, hspare⟩ := exec_fieldCommand hlive hi
    obtain ⟨t, hrun, tfields, tspare⟩ := ih (s := { s with desc := d }.respond .ok []) hlive hrest
    refine ⟨t, (runInstrs_cons_next hexec ops).trans hrun, ?_, tspare.trans hspare⟩
    rw [tfields, State.respond_desc, hfields, List.foldl_cons]

/-- From DESC.NEW on the bits without a field are zero, so the descriptor is the encoding of its fields (R172). -/
theorem runInstrs_descNew_fieldCommands {ops : List Instr} {s : State} (hlive : s.faultCode = 0)
    (hops : ∀ i ∈ ops, isFieldCommand i = true) :
    ∃ t, runInstrs (.descNew :: ops) s = .next t ∧ t.desc = encodeDesc (ops.foldl replaceFields zeroFields) := by
  obtain ⟨t, hrun, hfields, hspare⟩ :=
    runInstrs_fieldCommands (s := { s with desc := zeroDesc }.respond .ok []) hlive hops
  rw [State.respond_desc, decodeDesc_zeroDesc] at hfields
  have spareZero : t.desc.spareZero = true := spareZero_of_spare (d := zeroDesc) hspare (by decide)
  exact ⟨t, (runInstrs_cons_next (exec_descNew hlive) ops).trans hrun,
    by rw [← hfields, (encodeDesc_decodeDesc_iff t.desc).2 spareZero]⟩

/-! ### The obligation -/

/-- Settles O52: both sequences leave the encoding of their fields, and these agree kind by kind. -/
theorem builderOrderDoesNotMatter : Obligations.BuilderOrderDoesNotMatter := by
  intro ops ops' s s' hlive hlive' hops hops' hlast
  obtain ⟨t, hrun, hdesc⟩ := runInstrs_descNew_fieldCommands hlive hops
  obtain ⟨t', hrun', hdesc'⟩ := runInstrs_descNew_fieldCommands hlive' hops'
  have agree : ops.foldl replaceFields zeroFields = ops'.foldl replaceFields zeroFields :=
    descFields_eq_of_fieldsOf fun o => by
      rw [fieldsOf_foldl_replaceFields, fieldsOf_foldl_replaceFields, hlast]
  have unset {o : Opcode} (hnone : lastOf o ops = none) : fieldsOf o (decodeDesc t.desc) = fieldsOf o zeroFields := by
    rw [hdesc, decodeDesc_encodeDesc, fieldsOf_foldl_replaceFields, hnone, Option.elim_none]
  exact ⟨t, t', hrun, hrun', by rw [hdesc, hdesc', agree],
    fun h => ⟨congrArg DescFields.shape (unset h), congrArg DescFields.size (unset h)⟩,
    fun h => congrArg DescFields.tile (unset h), fun h => congrArg DescFields.palette (unset h),
    fun h => congrArg DescFields.x (unset h), fun h => congrArg DescFields.y (unset h)⟩

end Sys2Proof.Proofs
end

section
/-! The descriptor reads and the named slots of the sprite table (spec/43_sprite_descriptor.md R179, R180, R182,
R183). -/

namespace Sys2Proof.Proofs

open Sys2Proof Sys2Proof.Machine

/-! ### Operands -/

theorem encodes_descRd : Encodes 0x46 0 0 [] .descRd :=
  encodes_of_checks (o := .descRd) (reservedBitsZero_of_zero (by decide)) rfl rfl rfl rfl

theorem encodes_descDec (w0 w1 w2 : Half) :
    Encodes 0x47 0 0 [pairWord w1 w0, pairWord 0 w2] (.descDec w0 w1 w2) :=
  encodes_of_checks (o := .descDec) (reservedBitsZero_of_zero (by decide)) rfl rfl
    (by simp [payloadBitsZero, Command.word]) (by simp [buildInstr, Command.word])

theorem encodes_oamWr (slot : Half) : Encodes 0x49 0 slot [] (.oamWr slot) :=
  encodes_of_checks (o := .oamWr) (reservedBitsZero_of_zero slot.isLt) rfl rfl rfl (by simp [buildInstr])

theorem encodes_oamRd (slot : Half) : Encodes 0x4A 0 slot [] (.oamRd slot) :=
  encodes_of_checks (o := .oamRd) (reservedBitsZero_of_zero slot.isLt) rfl rfl rfl (by simp [buildInstr])

/-! ### The table entries -/

/-- The read of a slot succeeds and answers its entry (R183). -/
theorem withRead_slot (s : State) {i : Nat} (hi : i < 128) (body : Desc → Result) :
    withRead (elemAddr .oam i) (memReadDesc s (elemAddr .oam i)) body = body (s.oam i) := by
  rw [memReadDesc_slot s hi, withRead]

/-- One mapped store of a table entry and the response after it. -/
theorem commit_slot {i : Nat} (hi : i < 128) (d : Desc) (ws : List Word) (s : State) :
    commit [.desc (elemAddr .oam i) d] ws s = .next ((runStores [.desc (elemAddr .oam i) d] s).respond .ok ws) :=
  commit_mapped (by simpa [ElemStore.mapped] using descMapped_slot hi) ws s

/-- The entry reads as the descriptor stored. -/
theorem oam_stored (i : Nat) (d : Desc) (ws : List Word) (s : State) :
    ((runStores [.desc (elemAddr .oam i) d] s).respond .ok ws).oam i = d :=
  Memory.descAt_setDesc s.mem (elemAddr .oam i) d

/-- The store of an entry touches its six bytes only (spec/10_state.md R17, R18). -/
theorem sameMemoryOutside_desc (a : Nat) (d : Desc) (ws : List Word) (s : State) :
    SameMemoryOutside a 6 s ((runStores [.desc a d] s).respond .ok ws) :=
  sameMemoryOutside_stores (by simp [ElemStore.addr, ElemStore.size]) ws s

/-! ### The commands -/

theorem exec_descRd {s : State} (hlive : s.faultCode = 0) :
    exec .descRd s = .next (s.respond .ok (descPair s.desc)) := by
  change execDescRd s = _
  rw [execDescRd, unlessHalted_live hlive, answering]

theorem exec_descDec {s : State} (hlive : s.faultCode = 0) (w0 w1 w2 : Half) :
    exec (.descDec w0 w1 w2) s =
      .next (s.respond .ok (fieldWords (decodeDesc { w0 := w0, w1 := w1, w2 := w2 }))) := by
  change execDescDec w0 w1 w2 s = _
  rw [execDescDec, unlessHalted_live hlive, answering]

theorem exec_oamWr_lt {slot : Half} {s : State} (hlive : s.faultCode = 0) (hslot : slot.toNat < 128) :
    exec (.oamWr slot) s = .next ((runStores [.desc (elemAddr .oam slot.toNat) s.desc] s).respond .ok []) := by
  change execOamWr slot s = _
  rw [execOamWr, unlessHalted_live hlive, withIndex_lt hslot, commit_slot hslot]

theorem exec_oamWr_ge {slot : Half} {s : State} (hlive : s.faultCode = 0) (hslot : 128 ≤ slot.toNat) :
    exec (.oamWr slot) s = .next (faulted .outOfRange s) := by
  change execOamWr slot s = _
  rw [execOamWr, unlessHalted_live hlive, withIndex_ge_live hslot hlive]

theorem exec_oamRd_lt {slot : Half} {s : State} (hlive : s.faultCode = 0) (hslot : slot.toNat < 128) :
    exec (.oamRd slot) s = .next (s.respond .ok (descPair (s.oam slot.toNat))) := by
  change execOamRd slot s = _
  rw [execOamRd, unlessHalted_live hlive, withIndex_lt hslot, withRead_slot s hslot, answering]

theorem exec_oamRd_ge {slot : Half} {s : State} (hlive : s.faultCode = 0) (hslot : 128 ≤ slot.toNat) :
    exec (.oamRd slot) s = .next (faulted .outOfRange s) := by
  change execOamRd slot s = _
  rw [execOamRd, unlessHalted_live hlive, withIndex_ge_live hslot hlive]

/-! ### The obligations -/

/-- Settles O53: the pair by its halves, the six words by the fields as numbers, and check (5) for a high bit in the
second word. -/
theorem descReadsAnswerTheFields : Obligations.DescReadsAnswerTheFields := by
  intro s w0 w1 w2 hlive
  refine ⟨encodes_descRd, encodes_descDec w0 w1 w2, fun p q hq => ?_, ⟨_, _, exec_descRd hlive, lowHalf_pairWord _ _,
    highHalf_pairWord _ _, lowHalf_pairWord _ _, highHalf_pairWord _ _⟩, _, _, _, _, _, _,
    exec_descDec hlive w0 w1 w2, ?_, ?_, ?_, ?_, ?_, ?_⟩
  · exact raisesIllegal_of_reservedPayloadBit (o := .descDec) hlive (.inr ⟨mkCommand_op .., hq⟩)
  · rw [BitVec.toNat_setWidth_of_le (by decide), toNat_decodeDesc_shape]
  · rw [BitVec.toNat_setWidth_of_le (by decide), toNat_decodeDesc_size]
  · rw [BitVec.toNat_setWidth_of_le (by decide), toNat_decodeDesc_tile]
  · rw [BitVec.toNat_setWidth_of_le (by decide), toNat_decodeDesc_palette]
  · rw [BitVec.toNat_setWidth_of_le (by decide), toNat_decodeDesc_x]
  · rw [BitVec.toNat_setWidth_of_le (by decide), toNat_decodeDesc_y]

/-- Settles O56, by the one store's frame and the two sides of the table's count. -/
theorem oamWrStoresInTheSlot : Obligations.OamWrStoresInTheSlot := by
  intro s slot hlive
  refine ⟨encodes_oamWr slot, fun hslot => ?_, exec_oamWr_ge hlive⟩
  exact ⟨_, exec_oamWr_lt hlive hslot, oam_stored _ s.desc _ s, sameMemoryOutside_desc _ _ _ _,
    sameRegisters_stores _ _ _, answeredOk_stores _ _ _, noOtherMoved_oneStore _ _ _⟩

/-- Settles O57, by the read of the entry and the two sides of the table's count. -/
theorem oamRdReadsTheSlot : Obligations.OamRdReadsTheSlot := by
  intro s slot hlive
  exact ⟨encodes_oamRd slot, exec_oamRd_lt hlive, exec_oamRd_ge hlive⟩

end Sys2Proof.Proofs
end

section
/-! The status commands (spec/44_sync_status.md R200, R201): a non-zero field or a payload, which check (2) or (4) turns
away, and the fields of STAT.RD's words. -/

namespace Sys2Proof.Proofs

open Sys2Proof Sys2Proof.Machine

/-! ### Commands without operands -/

/-- Where R75 and R76 give a command no operand, check (2) or (4) refuses every non-zero field and every payload. -/
theorem illegalEncoding_of_operand {o : Opcode} (hformat : o.format ≠ .av) (hbits : o.operandBits = 0)
    (hpayload : o.payloadLen = some 0) {a : Byte} {v : Half} {pl : List Word} (hop : a ≠ 0 ∨ v ≠ 0 ∨ pl ≠ []) :
    IllegalEncoding (mkCommand o a v pl) := by
  obtain ha | hv | hpl := hop
  · refine .inr (.inl (.inl ⟨?_, by rwa [mkCommand_a]⟩))
    rwa [mkCommand_op, ← format_av_iff]
  · have wide : ¬v.toNat < 2 ^ o.operandBits := by simpa [hbits, BitVec.toNat_eq] using hv
    have reservedBit : reservedBitsZero o (mkCommand o a v pl) = false := by simp [reservedBitsZero, wide]
    exact .inr (.inl ((reservedBitsZero_eq_false_iff (mkCommand_op ..)).1 reservedBit))
  · have wrongLength : payloadLengthLegal o (mkCommand o a v pl) = false := by
      simp [payloadLengthLegal, hpayload, hpl]
    exact .inr (.inr (.inr (.inl ((payloadLengthLegal_eq_false_iff (mkCommand_op ..)).1 wrongLength))))

/-- On a halted CORE a failed check is answered `Halted` (spec/60_exceptions.md R213). -/
theorem turnedAway_of_illegalEncoding {o : Opcode} {a : Byte} {v : Half} {pl : List Word} {s : State}
    (hhalted : s.faultCode ≠ 0) (hill : IllegalEncoding (mkCommand o a v pl)) :
    runCommand { cw := wordOf o.code a v, pl := pl } s = .next (turnedAway s) := by
  have answer := illegalExactlyByTheFiveChecks.2 (mkCommand o a v pl) s hill
  rwa [if_neg hhalted] at answer

/-- NOP and STAT.RD have no operand (R75, R76). -/
theorem illegalEncoding_of_statusOperand {op a : Byte} {v : Half} {pl : List Word} (hstatus : op = 0x00 ∨ op = 0x01)
    (hop : a ≠ 0 ∨ v ≠ 0 ∨ pl ≠ []) : ∃ o : Opcode, op = o.code ∧ IllegalEncoding (mkCommand o a v pl) := by
  obtain rfl | rfl := hstatus
  · exact ⟨.nop, rfl, illegalEncoding_of_operand (by decide) rfl rfl hop⟩
  · exact ⟨.statRd, rfl, illegalEncoding_of_operand (by decide) rfl rfl hop⟩

theorem encodes_nop : Encodes 0x00 0 0 [] .nop :=
  encodes_of_checks (o := .nop) (reservedBitsZero_of_zero (by decide)) rfl rfl rfl rfl

theorem encodes_statRd : Encodes 0x01 0 0 [] .statRd :=
  encodes_of_checks (o := .statRd) (reservedBitsZero_of_zero (by decide)) rfl rfl rfl rfl

/-! ### The status word -/

theorem blobValid_iff (s : State) : s.blobValid = true ↔ s.blobLen ≠ 0 := by
  simp [State.blobValid]

/-- R201's word `s0` as its fields, high to low; bit by bit, in the range of each field. -/
theorem statusWord_eq_append (s : State) :
    statusWord s = (0 : BitVec 19) ++ BitVec.ofBool s.blobValid ++ s.faultCode ++ s.allocCtr := by
  apply BitVec.eq_of_getLsbD_eq
  intro i hi
  have flag : (if s.blobValid then (1 : Word) else 0) = (BitVec.ofBool s.blobValid).setWidth 32 := by
    cases s.blobValid <;> rfl
  simp only [statusWord, flag, BitVec.getLsbD_or, BitVec.getLsbD_append, BitVec.getLsbD_shiftLeft,
    BitVec.getLsbD_setWidth]
  obtain halloc | ⟨hge, hfault⟩ | hvalid : i < 8 ∨ (8 ≤ i ∧ i < 12) ∨ 12 ≤ i := by omega
  · simp (disch := omega) [if_pos, decide_eq_true]
  · simp (disch := omega) [if_pos, if_neg, decide_eq_true, decide_eq_false, BitVec.getLsbD_of_ge]
  · simp (disch := omega) [if_neg, decide_eq_true, decide_eq_false, BitVec.getLsbD_of_ge, Nat.sub_sub]

/-! ### The commands, halted or not -/

theorem exec_nop (s : State) : exec .nop s = .next (s.respond .ok []) := rfl

theorem exec_statRd (s : State) : exec .statRd s =
    .next (s.respond .ok [statusWord s, pairWord s.sheetHt s.sheetWt, BitVec.ofNat 32 s.blobLen]) := rfl

/-! ### The obligation -/

/-- Settles O60: the operands by the failed check, the words by the fields of `statusWord_eq_append`. -/
theorem nopAndStatRdAlwaysAnswer : Obligations.NopAndStatRdAlwaysAnswer := by
  intro s
  refine ⟨encodes_nop, encodes_statRd, fun op a v pl hstatus hop => ?_, exec_nop s, _, _, _, exec_statRd s,
    ?_, ?_, ?_, ?_, lowHalf_pairWord _ _, highHalf_pairWord _ _, Nat.mod_eq_of_lt⟩
  · obtain ⟨o, rfl, hill⟩ := illegalEncoding_of_statusOperand hstatus hop
    exact ⟨fun hlive => raisesIllegal_of_illegalEncoding hlive hill,
      fun hhalted => turnedAway_of_illegalEncoding hhalted hill⟩
  · rw [statusWord_eq_append, extract_append_low]
  · rw [statusWord_eq_append, extract_append_high _ _ 8 4 (by decide), extract_append_low]
  · rw [statusWord_eq_append, ← blobValid_iff]
    simp only [BitVec.getLsbD_append]
    simp
  · rw [statusWord_eq_append, extract_append_high _ _ 13 19 (by decide), extract_append_high _ _ _ _ (by decide),
      extract_append_high _ _ _ _ (by decide), extract_full]

end Sys2Proof.Proofs
end

section
/-! Taking a fault (spec/60_exceptions.md R211, R212): the status of a response tells a fault from every other outcome of
a command, and a halted CORE turns the next command away (R213). -/

namespace Sys2Proof.Proofs

open Sys2Proof Sys2Proof.Machine

/-! ### The statuses of the faults -/

theorem status_injective : Function.Injective FaultKind.status := by
  intro k l h
  cases k <;> cases l <;> simp [FaultKind.status] at h ⊢

theorem status_ne_ok (k : FaultKind) : k.status ≠ .ok := by cases k <;> decide

theorem status_ne_halted (k : FaultKind) : k.status ≠ .halted := by cases k <;> decide

theorem code_status (k : FaultKind) : k.status.code = k.code := by cases k <;> rfl

/-! ### The halted CORE -/

/-- Every command but NOP and STAT.RD has the halted check before its own rule (R213). -/
theorem exec_eq_unlessHalted {i : Instr} (hnop : i ≠ .nop) (hstat : i ≠ .statRd) (s : State) :
    ∃ body, exec i s = unlessHalted s body := by
  cases i with
  | nop => exact absurd rfl hnop
  | statRd => exact absurd rfl hstat
  | _ => exact ⟨_, rfl⟩

theorem exec_halted {i : Instr} {s : State} (hhalted : s.faultCode ≠ 0) (hnop : i ≠ .nop) (hstat : i ≠ .statRd) :
    exec i s = .next (turnedAway s) := by
  obtain ⟨body, hbody⟩ := exec_eq_unlessHalted hnop hstat s
  exact hbody.trans (unlessHalted_halted hhalted body)

/-! ### The faulting command -/

/-- `respond` adds one response, so the newest response tells its status and its words. -/
theorem response_of_respond {u : State} {rs : List Response} {st : Status} {ws : List Word} {r : Response}
    (hrsp : (u.respond st ws).rsp = r :: rs) : st = r.status ∧ ws = r.words := by
  have hr : { status := st, words := ws } = r := (List.cons.inj hrsp).1
  subst hr
  exact ⟨rfl, rfl⟩

/-- A command that answers the status of a fault took that fault, on a CORE that was not halted: every other outcome of
`Effect` answers `OK` or `Halted`, or gives no response. -/
theorem eq_faulted_of_response {i : Instr} {s t : State} {k : FaultKind} {ws : List Word} (hexec : exec i s = .next t)
    (hrsp : t.rsp = { status := k.status, words := ws } :: s.rsp) : s.faultCode = 0 ∧ ws = [] ∧ t = faulted k s := by
  cases exec_effect hexec with
  | fault hlive l =>
    obtain ⟨hstatus, hwords⟩ := response_of_respond hrsp
    obtain rfl := status_injective hstatus
    exact ⟨hlive, hwords.symm, raise_live hlive l⟩
  | turned => exact absurd (response_of_respond hrsp).1.symm (status_ne_halted k)
  | pend => exact absurd hrsp.symm (List.cons_ne_self _ _)
  | _ => exact absurd (response_of_respond hrsp).1.symm (status_ne_ok k)

theorem faultOut_faulted (k : FaultKind) (s : State) : (faulted k s).faultOut = true :=
  (halted_iff _).2 (code_ne_zero k)

/-! ### The obligation -/

/-- Settles O11: the faulting command by its response (`eq_faulted_of_response`), what follows it by the halted check, a
code already there by `stickyCode_of_ne`. -/
theorem faultChangesOnlyTheFaultCode : Obligations.FaultChangesOnlyTheFaultCode := by
  refine ⟨fun i s t k ws hexec hrsp => ?_, fun s k hhalted => stickyCode_of_ne hhalted, code_status⟩
  obtain ⟨hlive, hwords, rfl⟩ := eq_faulted_of_response hexec hrsp
  exact ⟨hlive, hwords, rfl, faultOut_faulted k s, fun j => exec_halted (code_ne_zero k)⟩

end Sys2Proof.Proofs
end

section
/-! The encoder and the decoder as inverses (spec/30_encoding.md R71 to R76, R84): every well-formed instruction's words
pass the five checks and build it again, and a command that passes them has no bit that its instruction does not give. -/

namespace Sys2Proof.Proofs

open Sys2Proof Sys2Proof.Machine

/-! ### Operands -/

theorem encodes_vblWait : Encodes 0x02 0 0 [] .vblWait :=
  encodes_of_checks (o := .vblWait) (reservedBitsZero_of_zero (by decide)) rfl rfl rfl rfl

/-- Eight pixel bytes fill two payload words (R73). -/
theorem encodes_pack8_pixels {px : List Byte} (hlen : px.length = 8) :
    Encodes 0x20 0 0 (wordsOfBytes px) (.pack8 px) := by
  obtain ⟨p, q, hpl⟩ := List.length_eq_two.1 ((wordsOfBytes_length px).trans (by rw [hlen]))
  have framed := encodes_pack8 p q
  rwa [← hpl, bytesOfWords_wordsOfBytes px (by rw [hlen])] at framed

theorem encodes_tileWrpx (t : Half) {pl : List Word} (hlen : pl.length = 16) :
    Encodes 0x22 0 t pl (.tileWrpx t (bytesOfWords pl)) :=
  encodes_of_checks (o := .tileWrpx) (reservedBitsZero_of_zero t.isLt) rfl
    (by simp [payloadLengthLegal, Opcode.payloadLen, hlen]) rfl (by simp [buildInstr])

/-- 64 pixel bytes fill 16 payload words (R73). -/
theorem encodes_tileWrpx_pixels (t : Half) {px : List Byte} (hlen : px.length = 64) :
    Encodes 0x22 0 t (wordsOfBytes px) (.tileWrpx t px) := by
  have framed := encodes_tileWrpx t ((wordsOfBytes_length px).trans (by rw [hlen]))
  rwa [bytesOfWords_wordsOfBytes px (by rw [hlen])] at framed

theorem encodes_tileWrw (t : Half) {ws : List Word} (hlen : ws.length = 8) : Encodes 0x24 0 t ws (.tileWrw t ws) :=
  encodes_of_checks (o := .tileWrw) (reservedBitsZero_of_zero t.isLt) rfl
    (by simp [payloadLengthLegal, Opcode.payloadLen, hlen]) rfl (by simp [buildInstr])

theorem encodes_cmpBitmap (pl : List Word) : Encodes 0x32 0 0 pl (.cmpBitmap pl) :=
  encodes_of_checks (o := .cmpBitmap) (reservedBitsZero_of_zero (by decide)) rfl rfl rfl (by simp [buildInstr])

theorem encodes_tileLdb (dst : Half) (src : Word) : Encodes 0x34 0 dst [src] (.tileLdb dst src) :=
  encodes_of_checks (o := .tileLdb) (reservedBitsZero_of_zero dst.isLt) rfl rfl rfl
    (by simp [buildInstr, Command.word])

theorem encodes_sprLoad16 (dst k : Half) : Encodes 0x35 0 dst [pairWord 0 k] (.sprLoad16 dst k) :=
  encodes_of_checks (o := .sprLoad16) (reservedBitsZero_of_zero dst.isLt) rfl rfl
    (by simp [payloadBitsZero, Command.word]) (by simp [buildInstr, Command.word])

theorem encodes_oamAlloc : Encodes 0x48 0 0 [] .oamAlloc :=
  encodes_of_checks (o := .oamAlloc) (reservedBitsZero_of_zero (by decide)) rfl rfl rfl rfl

theorem encodes_oamClear : Encodes 0x4B 0 0 [] .oamClear :=
  encodes_of_checks (o := .oamClear) (reservedBitsZero_of_zero (by decide)) rfl rfl rfl rfl

theorem encodes_frameBegin : Encodes 0x4C 0 0 [] .frameBegin :=
  encodes_of_checks (o := .frameBegin) (reservedBitsZero_of_zero (by decide)) rfl rfl rfl rfl

/-! ### An operand zero-extended to the field `v` -/

theorem toNat_zero_append (m : Nat) {n : Nat} (x : BitVec n) : ((0 : BitVec m) ++ x).toNat = x.toNat := by
  simp [BitVec.toNat_append]

theorem setWidth_zero_append (m : Nat) {n : Nat} (x : BitVec n) : ((0 : BitVec m) ++ x).setWidth n = x := by
  rw [BitVec.setWidth_eq_extractLsb' (by omega), extract_append_low]

/-- DESC.SIZE holds the shape above the size (R75). -/
theorem decode_encode_descSize (shape size : BitVec 2) :
    decode (encode (.descSize shape size)) = .ok (.descSize shape size) := by
  have hv : ((0 : BitVec 12) ++ shape ++ size).toNat ≤ 15 := by
    rw [BitVec.toNat_append, toNat_zero_append, ← Nat.shiftLeft_add_eq_or_of_lt size.isLt, Nat.shiftLeft_eq]
    omega
  have framed := encodes_descSize hv
  rwa [extract_append_high _ size 2 2 (by decide), extract_append_low _ shape, extract_append_low _ size] at framed

/-! ### Decoding an encoded instruction -/

/-- Settles O1, instruction by instruction: the encoded fields pass the checks and build the instruction. -/
theorem decodeOfEncodeIsTheInstruction : Obligations.DecodeOfEncodeIsTheInstruction := by
  intro i hwf
  cases i with
  | nop => exact encodes_nop
  | statRd => exact encodes_statRd
  | vblWait => exact encodes_vblWait
  | rgnAddr r i => exact encodes_rgnAddr r i
  | regRd r => exact encodes_regRd hwf
  | regWr r val => exact encodes_regWr hwf val
  | palRd i => exact encodes_palRd i
  | palWr i c => exact encodes_palWr i c
  | pack8 px => exact encodes_pack8_pixels (beq_iff_eq.1 hwf)
  | unpack8 w => exact encodes_unpack8 w
  | tileWrpx t px => exact encodes_tileWrpx_pixels t (beq_iff_eq.1 hwf)
  | tileRdpx t => exact encodes_tileRdpx t
  | tileWrw t ws => exact encodes_tileWrw t (beq_iff_eq.1 hwf)
  | tileRdw t => exact encodes_tileRdw t
  | mapPx wt x y => exact encodes_mapPx wt x y
  | mapQuad wt k => exact encodes_mapQuad wt k
  | cmpBitmap pl => exact encodes_cmpBitmap pl
  | blobRd j => exact encodes_blobRd j
  | tileLdb dst src => exact encodes_tileLdb dst src
  | sprLoad16 dst k => exact encodes_sprLoad16 dst k
  | descNew => exact encodes_descNew
  | descSize shape size => exact decode_encode_descSize shape size
  | descTile tile =>
    have framed := encodes_descTile (v := (0 : BitVec 6) ++ tile) (by rw [toNat_zero_append]; omega)
    rwa [setWidth_zero_append] at framed
  | descPal palette =>
    have framed := encodes_descPal (v := (0 : BitVec 12) ++ palette) (by rw [toNat_zero_append]; omega)
    rwa [setWidth_zero_append] at framed
  | descX x =>
    have framed := encodes_descX (v := (0 : BitVec 7) ++ x) (by rw [toNat_zero_append]; omega)
    rwa [setWidth_zero_append] at framed
  | descY y =>
    have framed := encodes_descY (v := (0 : BitVec 8) ++ y) (by rw [toNat_zero_append]; omega)
    rwa [setWidth_zero_append] at framed
  | descRd => exact encodes_descRd
  | descDec w0 w1 w2 => exact encodes_descDec w0 w1 w2
  | oamAlloc => exact encodes_oamAlloc
  | oamWr slot => exact encodes_oamWr slot
  | oamRd slot => exact encodes_oamRd slot
  | oamClear => exact encodes_oamClear
  | frameBegin => exact encodes_frameBegin

/-! ### What an accepted command looks like -/

/-- The decoder accepted `c` by the row of opcode `o`: the five checks passed, and the fields built `i`. -/
structure Accepted (o : Opcode) (c : Command) (i : Instr) : Prop where
  opcode : o.code = c.op
  bits : reservedBitsZero o c = true
  selector : selectorLegal o c = true
  length : payloadLengthLegal o c = true
  payload : payloadBitsZero o c = true
  build : buildInstr o c = some i

theorem accepted_of_decode {c : Command} {i : Instr} (hdec : decode c = .ok i) : ∃ o, Accepted o c i := by
  unfold decode at hdec
  split at hdec
  next => cases hdec
  next o ho =>
    split_ifs at hdec with hbits hsel hlen hpay
    split at hdec
    next j hbuild =>
      obtain rfl : j = i := by simpa using hdec
      exact ⟨o, code_of_ofCode ho, Bool.of_not_eq_false hbits, Bool.of_not_eq_false hsel,
        Bool.of_not_eq_false hlen, Bool.of_not_eq_false hpay, hbuild⟩
    next => cases hdec

section
variable {o : Opcode} {c : Command} {i : Instr}

/-- A command is the one its fields make. -/
theorem Accepted.encode_eq (h : Accepted o c i) {a : Byte} {v : Half} {pl : List Word}
    (hencode : encode i = mkCommand o a v pl) (ha : c.a = a) (hv : c.v = v) (hpl : c.pl = pl) : encode i = c := by
  rw [hencode, ← ha, ← hv, ← hpl, mkCommand, h.opcode]
  exact (command_fields c).symm

/-- Check (2) on `a`: it is zero outside format AV (R72). -/
theorem Accepted.a_zero (h : Accepted o c i) (hformat : o.format ≠ .av) : c.a = 0 := by
  have hbits := h.bits
  simp only [reservedBitsZero, Bool.and_eq_true, Bool.or_eq_true, beq_iff_eq] at hbits
  exact hbits.1.resolve_left hformat

/-- Check (2) on `v`: the operand fits its bits (R75). -/
theorem Accepted.v_lt (h : Accepted o c i) : c.v.toNat < 2 ^ o.operandBits := by
  have hbits := h.bits
  simp only [reservedBitsZero, Bool.and_eq_true, decide_eq_true_eq] at hbits
  exact hbits.2

theorem Accepted.v_zero (h : Accepted o c i) (hbits : o.operandBits = 0) : c.v = 0 := by
  have hv := h.v_lt
  rw [hbits] at hv
  exact BitVec.eq_of_toNat_eq (Nat.lt_one_iff.1 hv)

/-- Check (4): the payload has the row's length (R76). -/
theorem Accepted.pl_length (h : Accepted o c i) {n : Nat} (hn : o.payloadLen = some n) : c.pl.length = n := by
  have hlen := h.length
  simp only [payloadLengthLegal, hn] at hlen
  exact beq_iff_eq.1 hlen

theorem Accepted.pl_nil (h : Accepted o c i) (hn : o.payloadLen = some 0) : c.pl = [] :=
  List.length_eq_zero_iff.1 (h.pl_length hn)

theorem Accepted.pl_one (h : Accepted o c i) (hn : o.payloadLen = some 1) : c.pl = [c.word 0] := by
  obtain ⟨p, hp⟩ := List.length_eq_one_iff.1 (h.pl_length hn)
  simp [Command.word, hp]

theorem Accepted.pl_two (h : Accepted o c i) (hn : o.payloadLen = some 2) : c.pl = [c.word 0, c.word 1] := by
  obtain ⟨p, q, hp⟩ := List.length_eq_two.1 (h.pl_length hn)
  simp [Command.word, hp]

/-- A row without operands stands for one command. -/
theorem Accepted.encode_eq_bare (h : Accepted o c i) (hencode : encode i = mkCommand o 0 0 [])
    (hformat : o.format ≠ .av) (hbits : o.operandBits = 0) (hn : o.payloadLen = some 0) : encode i = c :=
  h.encode_eq hencode (h.a_zero hformat) (h.v_zero hbits) (h.pl_nil hn)

end

/-- The operand in the low bits of `v`, where the higher ones are zero, zero-extended is `v`. -/
theorem zero_append_extract {m n : Nat} {v : BitVec (m + n)} (hv : v.toNat < 2 ^ n) :
    (0 : BitVec m) ++ v.extractLsb' 0 n = v := by
  refine BitVec.eq_of_toNat_eq ?_
  rw [toNat_zero_append, BitVec.extractLsb'_toNat, Nat.shiftRight_zero, Nat.mod_eq_of_lt hv]

/-- A word whose upper half is zero is its lower half, widened. -/
theorem pairWord_zero_lowHalf {w : Word} (hhigh : highHalf w = 0) : pairWord 0 (lowHalf w) = w := by
  rw [← hhigh, pairWord_halves]

/-- The four bits of DESC.SIZE are its shape above its size. -/
theorem shape_append_size {v : Half} (hv : v.toNat < 2 ^ 4) :
    (0 : BitVec 12) ++ v.extractLsb' 2 2 ++ v.extractLsb' 0 2 = v := by
  have four : v.extractLsb' 2 2 ++ v.extractLsb' 0 2 = v.extractLsb' 0 4 :=
    BitVec.extractLsb'_append_extractLsb'_eq_extractLsb' (by omega)
  have assoc : (0 : BitVec 12) ++ v.extractLsb' 2 2 ++ v.extractLsb' 0 2 =
      (0 : BitVec 12) ++ (v.extractLsb' 2 2 ++ v.extractLsb' 0 2) := by
    simpa using BitVec.append_assoc (x₁ := (0 : BitVec 12)) (x₂ := v.extractLsb' 2 2) (x₃ := v.extractLsb' 0 2)
  rw [assoc, four]
  exact zero_append_extract (m := 12) hv

/-- The rows with a selector: the region that `a` names encodes to `a`. -/
theorem Accepted.region {o : Opcode} {c : Command} {i : Instr} {f : Region → Instr} (h : Accepted o c i)
    (hbuild : buildInstr o c = (Region.ofId c.a).map f) : ∃ r : Region, c.a = r.id ∧ i = f r := by
  obtain ⟨r, hr, hi⟩ := Option.map_eq_some_iff.1 (hbuild.symm.trans h.build)
  exact ⟨r, (id_of_ofId hr).symm, hi.symm⟩


/-- An accepted command's instruction is well-formed and encodes to the command, by the rows of R75 and R76. -/
theorem wf_and_encode_of_decode {c : Command} {i : Instr} (hdec : decode c = .ok i) : i.wf = true ∧ encode i = c := by
  obtain ⟨o, h⟩ := accepted_of_decode hdec
  have built {j : Instr} (hj : buildInstr o c = some j) : j = i := Option.some.inj (hj.symm.trans h.build)
  cases o with
  | rgnAddr =>
    obtain ⟨r, ha, rfl⟩ := h.region (f := fun r => .rgnAddr r c.v) rfl
    exact ⟨rfl, h.encode_eq rfl ha rfl (h.pl_nil rfl)⟩
  | regRd =>
    obtain ⟨r, ha, rfl⟩ := h.region (f := .regRd) rfl
    refine ⟨?_, h.encode_eq rfl ha (h.v_zero rfl) (h.pl_nil rfl)⟩
    have hsel := h.selector
    rw [selectorLegal, ha] at hsel
    cases r with
    | dispcnt | keyinput | backdrop => rfl
    | objpal | objtile | oam => exact absurd hsel (by decide)
  | regWr =>
    obtain ⟨r, ha, rfl⟩ := h.region (f := fun r => .regWr r c.v) rfl
    refine ⟨?_, h.encode_eq rfl ha rfl (h.pl_nil rfl)⟩
    have hsel := h.selector
    rw [selectorLegal, ha] at hsel
    cases r with
    | dispcnt | backdrop => rfl
    | keyinput | objpal | objtile | oam => exact absurd hsel (by decide)
  | palRd =>
    obtain rfl := built rfl
    exact ⟨rfl, h.encode_eq rfl rfl (h.v_zero rfl) (h.pl_nil rfl)⟩
  | palWr =>
    obtain rfl := built rfl
    exact ⟨rfl, h.encode_eq rfl rfl rfl (h.pl_nil rfl)⟩
  | pack8 =>
    obtain rfl := built rfl
    have hlen := h.pl_length rfl
    refine ⟨beq_iff_eq.2 (by rw [bytesOfWords_length, hlen]), ?_⟩
    exact h.encode_eq rfl (h.a_zero (by decide)) (h.v_zero rfl) (wordsOfBytes_bytesOfWords c.pl).symm
  | tileWrpx =>
    obtain rfl := built rfl
    have hlen := h.pl_length rfl
    refine ⟨beq_iff_eq.2 (by rw [bytesOfWords_length, hlen]), ?_⟩
    exact h.encode_eq rfl (h.a_zero (by decide)) rfl (wordsOfBytes_bytesOfWords c.pl).symm
  | tileWrw =>
    obtain rfl := built rfl
    exact ⟨beq_iff_eq.2 (h.pl_length rfl), h.encode_eq rfl (h.a_zero (by decide)) rfl rfl⟩
  | cmpBitmap =>
    obtain rfl := built rfl
    exact ⟨rfl, h.encode_eq rfl (h.a_zero (by decide)) (h.v_zero rfl) rfl⟩
  | nop | statRd | vblWait | descNew | descRd | oamAlloc | oamClear | frameBegin =>
    obtain rfl := built rfl
    exact ⟨rfl, h.encode_eq_bare rfl (by decide) rfl rfl⟩
  | tileRdpx | tileRdw | oamWr | oamRd =>
    obtain rfl := built rfl
    exact ⟨rfl, h.encode_eq rfl (h.a_zero (by decide)) rfl (h.pl_nil rfl)⟩
  | unpack8 | blobRd =>
    obtain rfl := built rfl
    exact ⟨rfl, h.encode_eq rfl (h.a_zero (by decide)) (h.v_zero rfl) (h.pl_one rfl)⟩
  | tileLdb =>
    obtain rfl := built rfl
    exact ⟨rfl, h.encode_eq rfl (h.a_zero (by decide)) rfl (h.pl_one rfl)⟩
  | mapPx =>
    obtain rfl := built rfl
    refine ⟨rfl, h.encode_eq rfl (h.a_zero (by decide)) rfl ?_⟩
    rw [pairWord_halves, h.pl_one rfl]
  | mapQuad | sprLoad16 =>
    obtain rfl := built rfl
    refine ⟨rfl, h.encode_eq rfl (h.a_zero (by decide)) rfl ?_⟩
    rw [pairWord_zero_lowHalf (beq_iff_eq.1 h.payload), h.pl_one rfl]
  | descDec =>
    obtain rfl := built rfl
    refine ⟨rfl, h.encode_eq rfl (h.a_zero (by decide)) (h.v_zero rfl) ?_⟩
    rw [pairWord_halves, pairWord_zero_lowHalf (beq_iff_eq.1 h.payload), h.pl_two rfl]
  | descSize =>
    obtain rfl := built rfl
    exact ⟨rfl, h.encode_eq rfl (h.a_zero (by decide)) (shape_append_size h.v_lt).symm (h.pl_nil rfl)⟩
  | descTile =>
    obtain rfl := built rfl
    exact ⟨rfl, h.encode_eq rfl (h.a_zero (by decide)) (zero_append_extract (m := 6) h.v_lt).symm (h.pl_nil rfl)⟩
  | descPal =>
    obtain rfl := built rfl
    exact ⟨rfl, h.encode_eq rfl (h.a_zero (by decide)) (zero_append_extract (m := 12) h.v_lt).symm (h.pl_nil rfl)⟩
  | descX =>
    obtain rfl := built rfl
    exact ⟨rfl, h.encode_eq rfl (h.a_zero (by decide)) (zero_append_extract (m := 7) h.v_lt).symm (h.pl_nil rfl)⟩
  | descY =>
    obtain rfl := built rfl
    exact ⟨rfl, h.encode_eq rfl (h.a_zero (by decide)) (zero_append_extract (m := 8) h.v_lt).symm (h.pl_nil rfl)⟩

/-! ### Terms no command stands for -/

/-- The five instructions a term can be ill-formed at raise `IllegalCommand` before their own rule (log 15). -/
theorem exec_illFormed {i : Instr} {s : State} (hwf : i.wf = false) (hlive : s.faultCode = 0) :
    exec i s = .next (faulted .illegalCommand s) := by
  have illegal {body : Result} (hbody : body = raising .illegalCommand s) :
      unlessHalted s body = .next (faulted .illegalCommand s) := by
    rw [unlessHalted_live hlive, hbody, raising_live hlive]
  cases i with
  | regRd r => exact illegal (if_neg (ne_true_of_eq_false hwf))
  | regWr r val => exact illegal (if_neg (ne_true_of_eq_false hwf))
  | pack8 px => exact illegal (if_neg (beq_eq_false_iff_ne.1 hwf))
  | tileWrpx t px => exact illegal (if_neg (beq_eq_false_iff_ne.1 hwf))
  | tileWrw t ws => exact illegal (if_neg (beq_eq_false_iff_ne.1 hwf))
  | _ => cases hwf

/-- Settles O2: the accepted commands row by row, the other terms by their own first check. -/
theorem acceptedCommandEncodesBack : Obligations.AcceptedCommandEncodesBack :=
  ⟨fun _ _ => wf_and_encode_of_decode, fun _ _ => exec_illFormed⟩

/-- Settles O4: six literal words, decoded by evaluation. -/
theorem writtenOutWordsDecode : Obligations.WrittenOutWordsDecode := by
  unfold Obligations.WrittenOutWordsDecode
  decide

end Sys2Proof.Proofs
end

section
/-! Lists of element stores (spec/20_memory.md R44, R51, R52): what an element apart from all of them reads as, and what
the rows of a tile and the slots of the table read as after theirs. -/

namespace Sys2Proof.Proofs

open Sys2Proof Sys2Proof.Machine

/-! ### Elements apart from the stores -/

/-- A tile word apart from every store of a list reads as before. -/
theorem word_storeAll_other {m : Memory} {es : List ElemStore} {a : Nat}
    (hapart : ∀ e ∈ es, a + 4 ≤ e.addr ∨ e.addr + e.size ≤ a) : (m.storeAll es).word a = m.word a := by
  induction es generalizing m with
  | nil => rfl
  | cons e es ih =>
    obtain ⟨he, hes⟩ := List.forall_mem_cons.1 hapart
    rw [Memory.storeAll, ih hes, Memory.word_store_other m e a he]

/-! ### The rows of a tile -/

/-- Words stored at ascending addresses fill four bytes each. -/
theorem wordStores_within (a : Nat) (ws : List Word) :
    ∀ e ∈ wordStores a ws, a ≤ e.addr ∧ e.addr + e.size ≤ a + 4 * ws.length := by
  intro e he
  obtain ⟨k, hk, haddr, hsize, -⟩ := wordStores_addr he
  omega

/-- Each word is stored past the one before it. -/
theorem wordStores_ascending (a : Nat) (ws : List Word) :
    (wordStores a ws).Pairwise fun e f => e.addr + e.size ≤ f.addr := by
  induction ws generalizing a with
  | nil => exact .nil
  | cons w ws ih =>
    refine .cons (fun f hf => ?_) (ih (a + 4))
    exact (wordStores_within (a + 4) ws f hf).1

theorem take_wordStores (a n : Nat) (ws : List Word) : (wordStores a ws).take n = wordStores a (ws.take n) := by
  induction ws generalizing a n with
  | nil => simp [wordStores]
  | cons w ws ih =>
    cases n with
    | zero => rfl
    | succ n => simp [wordStores, ih]

/-- Row `r` of tile `t` after words were stored from row 0 up: its own word, or as before past the last of them. -/
theorem word_storeAll_rows (m : Memory) (t r : Nat) (ws : List Word) :
    (m.storeAll (wordStores (elemAddr .objtile t) ws)).word (tileWordAddr (8 * t + r)) =
      if r < ws.length then ws.getD r 0 else m.word (tileWordAddr (8 * t + r)) := by
  rw [← elemAddr_row]
  split
  next hr => rw [Memory.word_storeAll_wordStores m _ ws r hr, List.getD_eq_getElem ws 0 hr]
  next hr =>
    refine word_storeAll_other fun e he => ?_
    have := wordStores_within _ _ e he
    omega

/-- After the first `k + 1` rows of a tile: those rows are new, each whole, and the others are as before. -/
theorem word_storeAll_firstRows (m : Memory) (t : Nat) {ws : List Word} {k r : Nat} (hr : r < ws.length) :
    (m.storeAll ((wordStores (elemAddr .objtile t) ws).take (k + 1))).word (tileWordAddr (8 * t + r)) =
      if r ≤ k then ws.getD r 0 else m.word (tileWordAddr (8 * t + r)) := by
  have stored : r < (ws.take (k + 1)).length ↔ r ≤ k := by rw [List.length_take]; omega
  rw [take_wordStores, word_storeAll_rows]
  simp only [stored]
  split
  next hrk => simp [Nat.lt_succ_of_le hrk]
  next => rfl

/-! ### The slots of the table -/

/-- Slot `i` lies eight bytes below slot `i + 1`. -/
theorem elemAddr_oam (i : Nat) : elemAddr .oam i = 0x07000000 + 8 * i := by
  simp only [elemAddr, regionBase, regionStride]
  omega

theorem zeroSlots_within (i n : Nat) :
    ∀ e ∈ zeroSlots i n, elemAddr .oam i ≤ e.addr ∧ e.addr + e.size ≤ elemAddr .oam (i + n) := by
  intro e he
  obtain ⟨k, hik, hkn, rfl⟩ := zeroSlots_mem he
  simp only [ElemStore.addr, ElemStore.size, elemAddr_oam]
  omega

theorem zeroSlots_ascending (i n : Nat) : (zeroSlots i n).Pairwise fun e f => e.addr + e.size ≤ f.addr := by
  induction n generalizing i with
  | zero => exact .nil
  | succ n ih =>
    refine .cons (fun f hf => ?_) (ih (i + 1))
    have := (zeroSlots_within (i + 1) n f hf).1
    simp only [ElemStore.addr, ElemStore.size, elemAddr_oam] at *
    omega

theorem take_zeroSlots (i : Nat) {j n : Nat} (hj : j ≤ n) : (zeroSlots i n).take j = zeroSlots i j := by
  induction n generalizing i j with
  | zero => rw [Nat.le_zero.1 hj]; rfl
  | succ n ih =>
    cases j with
    | zero => rfl
    | succ j => rw [zeroSlots, List.take_succ_cons, ih (i + 1) (Nat.le_of_succ_le_succ hj), zeroSlots]

/-- Slot `k` after the slots from `i` on were cleared: zero, or as before where it is none of them. -/
theorem descAt_storeAll_zeroSlots (m : Memory) (i n k : Nat) :
    (m.storeAll (zeroSlots i n)).descAt (elemAddr .oam k) =
      if i ≤ k ∧ k < i + n then zeroDesc else m.descAt (elemAddr .oam k) := by
  induction n generalizing m i with
  | zero =>
    rw [if_neg (by omega)]
    rfl
  | succ n ih =>
    rw [zeroSlots, Memory.storeAll, ih]
    by_cases hk : k = i
    · subst hk
      rw [if_neg (by omega), if_pos (by omega)]
      exact Memory.descAt_setDesc m _ zeroDesc
    · have later : (i + 1 ≤ k ∧ k < i + 1 + n) ↔ (i ≤ k ∧ k < i + (n + 1)) := by omega
      simp only [later]
      split
      next => rfl
      next =>
        refine Memory.descAt_store_other m _ _ ?_
        simp only [ElemStore.addr, ElemStore.size, elemAddr_oam]
        omega

/-- A byte of a slot is a byte of the table: the clear leaves every other byte as it was (spec/10_state.md R18). -/
theorem byte_storeAll_clear (m : Memory) {a : Nat} (ha : inRegion .oam a = false) :
    (m.storeAll clearStores).byte a = m.byte a := by
  refine Memory.byte_storeAll_other m _ a fun e he => ?_
  obtain ⟨k, -, hk, rfl⟩ := zeroSlots_mem he
  by_contra hin
  simp only [ElemStore.addr, ElemStore.size] at hin
  have inside : inRegion .oam (elemAddr .oam k + (a - elemAddr .oam k)) = true :=
    inRegion_elem (by omega) (by simp only [regionElemSize]; omega)
  rw [show elemAddr .oam k + (a - elemAddr .oam k) = a by omega, ha] at inside
  cases inside

/-! ### A storing command's next state -/

/-- The other agents moved in the gaps of the stores (R52). -/
theorem othersMoved_stores (es : List ElemStore) (ws : List Word) (s : State) :
    OthersMoved es.length s ((runStores es s).respond .ok ws) :=
  runStores_othersMoved es s

/-- A byte of memory after a storing command. -/
theorem stores_mem (es : List ElemStore) (ws : List Word) (s : State) :
    ((runStores es s).respond .ok ws).mem = s.mem.storeAll es := by
  rw [State.respond_mem, runStores_mem]

/-- The rows of a tile after a command that stored them all. -/
theorem tilew_stored {ws rs : List Word} {s : State} {t r : Nat} (hr : r < ws.length) :
    ((runStores (wordStores (elemAddr .objtile t) ws) s).respond .ok rs).tilew (8 * t + r) = ws.getD r 0 := by
  rw [State.tilew, stores_mem, word_storeAll_rows, if_pos hr]

/-- A tile's eight rows are its 32 bytes. -/
theorem sameMemoryOutside_tile {ws : List Word} (hlen : ws.length = 8) (rs : List Word) (s : State) (t : Nat) :
    SameMemoryOutside (elemAddr .objtile t) 32 s
      ((runStores (wordStores (elemAddr .objtile t) ws) s).respond .ok rs) := by
  refine sameMemoryOutside_stores (fun e he => ?_) rs s
  have := wordStores_within _ _ e he
  omega

theorem othersMoved_tile {ws : List Word} (hlen : ws.length = 8) (rs : List Word) (s : State) (a : Nat) :
    OthersMoved 8 s ((runStores (wordStores a ws) s).respond .ok rs) := by
  have moved := othersMoved_stores (wordStores a ws) rs s
  rwa [wordStores_length, hlen] at moved

/-- The eight stores of a tile slot are mapped, so the command makes them and answers. -/
theorem commit_tile {ws : List Word} (hlen : ws.length = 8) {t : Nat} (ht : t < 1024) (rs : List Word) (s : State) :
    commit (wordStores (elemAddr .objtile t) ws) rs s =
      .next ((runStores (wordStores (elemAddr .objtile t) ws) s).respond .ok rs) :=
  commit_mapped (wordStores_mapped ht hlen.le) rs s

end Sys2Proof.Proofs
end

section
/-! The tile stores (spec/41_tile_engine.md R126, R128): TILE.WRPX and TILE.WRW, and the pixels read back. -/

namespace Sys2Proof.Proofs

open Sys2Proof Sys2Proof.Machine

/-! ### The commands -/

theorem exec_tileWrpx_lt {t : Half} {px : List Byte} {s : State} (hlive : s.faultCode = 0) (hlen : px.length = 64)
    (ht : t.toNat < 1024) (hpx : ∀ p ∈ px, p.toNat ≤ 15) :
    exec (.tileWrpx t px) s =
      .next ((runStores (wordStores (elemAddr .objtile t.toNat) (packTile px)) s).respond .ok []) := by
  change execTileWrpx t px s = _
  rw [execTileWrpx, unlessHalted_live hlive, if_pos hlen, withIndex_lt ht, withPixels_legal hpx,
    commit_tile (packTile_length px) ht]

/-- The index is checked before the pixels (R126). -/
theorem exec_tileWrpx_ge {t : Half} {px : List Byte} {s : State} (hlive : s.faultCode = 0) (hlen : px.length = 64)
    (ht : 1024 ≤ t.toNat) : exec (.tileWrpx t px) s = .next (faulted .outOfRange s) := by
  change execTileWrpx t px s = _
  rw [execTileWrpx, unlessHalted_live hlive, if_pos hlen, withIndex_ge_live ht hlive]

theorem exec_tileWrw_lt {t : Half} {ws : List Word} {s : State} (hlive : s.faultCode = 0) (hlen : ws.length = 8)
    (ht : t.toNat < 1024) :
    exec (.tileWrw t ws) s =
      .next ((runStores (wordStores (elemAddr .objtile t.toNat) ws) s).respond .ok []) := by
  change execTileWrw t ws s = _
  rw [execTileWrw, unlessHalted_live hlive, if_pos hlen, withIndex_lt ht, commit_tile hlen ht]

theorem exec_tileWrw_ge {t : Half} {ws : List Word} {s : State} (hlive : s.faultCode = 0) (hlen : ws.length = 8)
    (ht : 1024 ≤ t.toNat) : exec (.tileWrw t ws) s = .next (faulted .outOfRange s) := by
  change execTileWrw t ws s = _
  rw [execTileWrw, unlessHalted_live hlive, if_pos hlen, withIndex_ge_live ht hlive]

/-! ### The packed rows -/

/-- Lane `col` of packed row `row` is pixel `8 row + col` (R122, R126). -/
theorem lane_packTile {px : List Byte} (hlen : px.length = 64) (hpx : ∀ p ∈ px, p.toNat ≤ 15) {row col : Nat}
    (hrow : row < 8) (hcol : col < 8) :
    (((packTile px).getD row 0).extractLsb' (4 * col) 4).toNat = (px.getD (8 * row + col) 0).toNat := by
  have legal : ∀ p ∈ pixelRow px row, p.toNat ≤ 15 := fun p hp => hpx p (mem_of_mem_pixelRow hp)
  rw [getD_packTile px hrow, toNat_lane_packNibbles legal hcol, pixelRow_eq (by omega), getD_map_range hcol]

/-- The rows of a tile after a command that stored them. -/
theorem tileRows_stored {ws rs : List Word} (hlen : ws.length = 8) (s : State) (t : Nat) :
    tileRows ((runStores (wordStores (elemAddr .objtile t) ws) s).respond .ok rs) t = ws := by
  refine eq_of_getD_eq 0 (by simp [hlen]) fun r hr => ?_
  have hr8 : r < 8 := by simpa using hr
  rw [getD_tileRows _ _ hr8, tilew_stored (hlen ▸ hr8)]

/-! ### The obligations -/

/-- Settles O38: the payload's bytes, the lanes of the rows stored, the frame of the eight stores, and the two faults
before the first of them. -/
theorem tileWrpxStoresThePixels : Obligations.TileWrpxStoresThePixels := by
  intro s t px hlive hlen
  refine ⟨fun pl hpl => ⟨_, encodes_tileWrpx t hpl, by rw [bytesOfWords_length, hpl],
      fun j _ => getD_bytesOfWords pl j⟩,
    fun ht hpx => ⟨_, exec_tileWrpx_lt hlive hlen ht hpx, fun row col hrow hcol => ?_,
      sameMemoryOutside_tile (packTile_length px) _ _ _, sameRegisters_stores _ _ _, answeredOk_stores _ _ _,
      othersMoved_tile (packTile_length px) _ _ _⟩,
    exec_tileWrpx_ge hlive hlen, exec_tileWrpx_bad hlive hlen⟩
  rw [tilew_stored (by simpa using hrow), lane_packTile hlen hpx hrow hcol]

/-- Settles O40: the eight words are the rows stored, with the frame of the eight stores. -/
theorem tileWrwStoresTheRows : Obligations.TileWrwStoresTheRows := by
  intro s t ws hlive hlen
  exact ⟨encodes_tileWrw t hlen,
    fun ht => ⟨_, exec_tileWrw_lt hlive hlen ht, fun row hrow => tilew_stored (hlen ▸ hrow),
      sameMemoryOutside_tile hlen _ _ _, sameRegisters_stores _ _ _, answeredOk_stores _ _ _,
      othersMoved_tile hlen _ _ _⟩,
    exec_tileWrw_ge hlive hlen⟩

/-- Settles O41: the rows read are the packed pixels, and unpacking undoes the packing. -/
theorem pixelsWrittenAreReadBack : Obligations.PixelsWrittenAreReadBack := by
  intro s u t px hlive ht hlen hpx hexec
  rw [exec_tileWrpx_lt hlive hlen ht hpx] at hexec
  obtain rfl := Host.Outcome.next.inj hexec
  rw [exec_tileRdpx_lt (by simpa using hlive) ht, tileRows_stored (packTile_length px), unpackTile_packTile hlen hpx]
  rfl

end Sys2Proof.Proofs
end

section
/-! The compile (spec/42_tile_mapper.md R142, R145, R146): the checks of CMP.BITMAP in their order, and the place of every
pixel in the blob. -/

namespace Sys2Proof.Proofs

open Sys2Proof Sys2Proof.Machine

/-! ### The index channel -/

/-- Channel `c` is the byte at bit `8 c` (R145). -/
theorem toNat_channelOf (ch : BitVec 2) (w : Word) :
    (channelOf ch w).toNat = w.toNat / 2 ^ (8 * ch.toNat) % 256 := by
  rw [channelOf, BitVec.extractLsb'_toNat, Nat.shiftRight_eq_div_pow]

/-- Past the end of the bitmap every channel reads 0. -/
theorem channelOf_zero (ch : BitVec 2) : channelOf ch 0 = 0 := by
  refine BitVec.eq_of_getLsbD_eq fun i _ => ?_
  simp [channelOf]

theorem channelOf_getD (ch : BitVec 2) (px : List Word) (n : Nat) :
    channelOf ch (px.getD n 0) = (px.map (channelOf ch)).getD n 0 := by
  have mapped := List.getD_map (l := px) (d := 0) (n := n) (channelOf ch)
  rwa [channelOf_zero, eq_comm] at mapped

/-! ### The rows of the compile -/

/-- In a list made of groups of eight, entry `8 n + r` is entry `r` of group `n`. -/
theorem getD_flatMap_range {α : Type} {f : Nat → List α} (hf : ∀ n, (f n).length = 8) (d : α) {N n r : Nat}
    (hn : n < N) (hr : r < 8) : ((List.range N).flatMap f).getD (8 * n + r) d = (f n).getD r d := by
  induction N with
  | zero => exact absurd hn (Nat.not_lt_zero n)
  | succ N ih =>
    have hlen : ((List.range N).flatMap f).length = 8 * N := by simp [List.length_flatMap, hf, Nat.mul_comm]
    rw [List.range_succ, List.flatMap_append, List.flatMap_singleton]
    rcases Nat.lt_succ_iff_lt_or_eq.1 hn with hlt | rfl
    · rw [List.getD_append _ _ _ _ (by omega), ih hlt]
    · rw [List.getD_append_right _ _ _ _ (by omega), hlen, Nat.add_sub_cancel_left]

/-- Word `8 n + r` of the compile is row `r` of tile `n` (R142). -/
theorem getD_compileBitmap {W H : Nat} (idx : Nat → Nat → Byte) {n r : Nat} (hn : n < W / 8 * (H / 8)) (hr : r < 8) :
    (compileBitmap W H idx).getD (8 * n + r) 0 = compiledRow W idx n r := by
  rw [compileBitmap, getD_flatMap_range (by simp) 0 hn hr, getD_map_range hr]

/-- Lane `k` of row `r` of tile `n` is one pixel of the bitmap (R142). -/
theorem lane_compiledRow {W : Nat} {idx : Nat → Nat → Byte} (hidx : ∀ x y, (idx x y).toNat ≤ 15) (n r : Nat) {k : Nat}
    (hk : k < 8) :
    ((compiledRow W idx n r).extractLsb' (4 * k) 4).toNat =
      (idx (8 * (n % (W / 8)) + k) (8 * (n / (W / 8)) + r)).toNat := by
  have legal : ∀ p ∈ (List.range 8).map fun k => idx (8 * (n % (W / 8)) + k) (8 * (n / (W / 8)) + r),
      p.toNat ≤ 15 := by
    intro p hp
    obtain ⟨j, -, rfl⟩ := List.mem_map.1 hp
    exact hidx _ _
  rw [compiledRow, toNat_lane_packNibbles legal hk, getD_map_range hk]

/-- Pixel (x, y) stands in lane `x mod 8` of row `y mod 8` of tile `(y/8)·(W/8) + x/8` (R140, R142). -/
theorem pixel_compileBitmap {W H x y : Nat} {idx : Nat → Nat → Byte} (hidx : ∀ x y, (idx x y).toNat ≤ 15)
    (hW : W % 8 = 0) (hH : H % 8 = 0) (hx : x < W) (hy : y < H) :
    (((compileBitmap W H idx).getD (8 * (y / 8 * (W / 8) + x / 8) + y % 8) 0).extractLsb' (4 * (x % 8)) 4).toNat =
      (idx x y).toNat := by
  have hcol : x / 8 < W / 8 := by omega
  have hrow : y / 8 + 1 ≤ H / 8 := by omega
  have htile : y / 8 * (W / 8) + x / 8 < W / 8 * (H / 8) := by
    have rows := Nat.mul_le_mul_right (W / 8) hrow
    rw [Nat.add_mul, Nat.one_mul, Nat.mul_comm (H / 8)] at rows
    omega
  have hmod : (y / 8 * (W / 8) + x / 8) % (W / 8) = x / 8 := by
    rw [Nat.mul_add_mod_self_right, Nat.mod_eq_of_lt hcol]
  have hdiv : (y / 8 * (W / 8) + x / 8) / (W / 8) = y / 8 := by
    rw [Nat.mul_comm, Nat.mul_add_div (by omega), Nat.div_eq_of_lt hcol, Nat.add_zero]
  rw [getD_compileBitmap idx htile (Nat.mod_lt y (by decide)), lane_compiledRow hidx _ _ (Nat.mod_lt x (by decide)),
    hmod, hdiv, Nat.div_add_mod, Nat.div_add_mod]

/-- A bitmap of whole tiles takes eight pixels a word. -/
theorem compileBitmap_length_of_dvd {W H : Nat} (idx : Nat → Nat → Byte) (hW : W % 8 = 0) (hH : H % 8 = 0) :
    (compileBitmap W H idx).length = W * H / 8 := by
  obtain ⟨a, rfl⟩ := Nat.dvd_of_mod_eq_zero hW
  obtain ⟨b, rfl⟩ := Nat.dvd_of_mod_eq_zero hH
  have pixels : 8 * a * (8 * b) = 8 * (a * b * 8) := by ring
  rw [compileBitmap_length, pixels, Nat.mul_div_cancel_left _ (by decide), Nat.mul_div_cancel_left _ (by decide),
    Nat.mul_div_cancel_left _ (by decide)]

/-! ### The command -/

/-- The blob of a payload: the compile of its index channel (R146). -/
def compiledBlob (ch : BitVec 2) (W H : Half) (px : List Word) : List Word :=
  compileBitmap W.toNat H.toNat fun x y => channelOf ch (px.getD (y * W.toNat + x) 0)

/-- The dimension check of R146 fails. -/
def BadDimensions (W H : Half) : Prop := W = 0 ∨ H = 0 ∨ W.toNat % 8 ≠ 0 ∨ H.toNat % 8 ≠ 0

theorem badDimension_or_iff (W H : Half) :
    (badDimension W.toNat || badDimension H.toNat) = true ↔ BadDimensions W H := by
  simp only [badDimension, BadDimensions, Bool.or_eq_true, beq_iff_eq, bne_iff_ne, BitVec.toNat_eq,
    BitVec.ofNat_eq_ofNat, BitVec.toNat_ofNat, Nat.zero_mod]
  tauto

theorem not_badDimensions {W H : Half} (hW : W ≠ 0) (hH : H ≠ 0) (hW8 : W.toNat % 8 = 0) (hH8 : H.toNat % 8 = 0) :
    ¬BadDimensions W H :=
  not_or.2 ⟨hW, not_or.2 ⟨hH, not_or.2 ⟨not_not.2 hW8, not_not.2 hH8⟩⟩⟩

theorem ofNat_div_eight (W : Half) : BitVec.ofNat 16 (W.toNat / 8) = W / 8 := by
  refine BitVec.eq_of_toNat_eq ?_
  have hW := W.isLt
  rw [BitVec.toNat_ofNat, BitVec.toNat_udiv, Nat.mod_eq_of_lt (by omega)]
  rfl

/-- One source pixel above 15 on the index channel. -/
theorem any_badPixel_iff (ch : BitVec 2) (px : List Word) :
    (px.any fun w => badPixel (channelOf ch w)) = true ↔ ∃ w ∈ px, 15 < (channelOf ch w).toNat := by
  simp [badPixel]

theorem blobLen_ne_zero_iff (s : State) : s.blobLen ≠ 0 ↔ s.blob ≠ [] := by
  rw [State.blobLen, ne_eq, List.length_eq_zero_iff]

section
variable {s : State} (hlive : s.faultCode = 0)
include hlive

theorem exec_cmpBitmap_nil : exec (.cmpBitmap []) s = .next (faulted .illegalCommand s) := by
  change execCmpBitmap [] s = _
  rw [execCmpBitmap, unlessHalted_live hlive, compileCommand, raising_live hlive]

theorem exec_cmpBitmap_cons (W H : Half) (px : List Word) :
    exec (.cmpBitmap (pairWord H W :: px)) s = compileCommand (pairWord H W :: px) s := by
  change execCmpBitmap _ s = _
  rw [execCmpBitmap, unlessHalted_live hlive]

theorem exec_cmpBitmap_locked {W H : Half} {px : List Word} (hblob : s.blob ≠ []) :
    exec (.cmpBitmap (pairWord H W :: px)) s = .next (faulted .blobLocked s) := by
  rw [exec_cmpBitmap_cons hlive, compileCommand, if_pos ((blobLen_ne_zero_iff s).2 hblob), raising_live hlive]

section
variable {W H : Half} {px : List Word} (hblob : s.blob = [])
include hblob

theorem exec_cmpBitmap_badDimensions (hdims : BadDimensions W H) :
    exec (.cmpBitmap (pairWord H W :: px)) s = .next (faulted .formatError s) := by
  rw [exec_cmpBitmap_cons hlive, compileCommand, if_neg (mt (blobLen_ne_zero_iff s).1 (not_not.2 hblob))]
  simp only [lowHalf_pairWord, highHalf_pairWord]
  rw [if_pos ((badDimension_or_iff W H).2 hdims), raising_live hlive]

/-- The later checks, with the dimensions accepted. -/
theorem exec_cmpBitmap_sized (hdims : ¬BadDimensions W H) :
    exec (.cmpBitmap (pairWord H W :: px)) s =
      if s.params.blobMaxWords < W.toNat * H.toNat / 8 then .next (faulted .outOfRange s)
      else if px.length ≠ W.toNat * H.toNat then .next (faulted .illegalCommand s)
      else if px.any fun w => badPixel (channelOf s.params.indexChannel w) then .next (faulted .formatError s)
      else .next ({ s with
        blob := compiledBlob s.params.indexChannel W H px, sheetWt := W / 8, sheetHt := H / 8 }.respond .ok
          (compiledBlob s.params.indexChannel W H px)) := by
  rw [exec_cmpBitmap_cons hlive, compileCommand, if_neg (mt (blobLen_ne_zero_iff s).1 (not_not.2 hblob))]
  simp only [lowHalf_pairWord, highHalf_pairWord]
  rw [if_neg (mt (badDimension_or_iff W H).1 hdims)]
  simp only [raising_live hlive, ofNat_div_eight]
  rfl

theorem exec_cmpBitmap_tooLarge (hdims : ¬BadDimensions W H)
    (hcap : s.params.blobMaxWords < W.toNat * H.toNat / 8) :
    exec (.cmpBitmap (pairWord H W :: px)) s = .next (faulted .outOfRange s) := by
  rw [exec_cmpBitmap_sized hlive hblob hdims, if_pos hcap]

theorem exec_cmpBitmap_wrongLength (hdims : ¬BadDimensions W H)
    (hcap : W.toNat * H.toNat / 8 ≤ s.params.blobMaxWords) (hlen : px.length ≠ W.toNat * H.toNat) :
    exec (.cmpBitmap (pairWord H W :: px)) s = .next (faulted .illegalCommand s) := by
  rw [exec_cmpBitmap_sized hlive hblob hdims, if_neg (Nat.not_lt.2 hcap), if_pos hlen]

theorem exec_cmpBitmap_badPixel (hdims : ¬BadDimensions W H)
    (hcap : W.toNat * H.toNat / 8 ≤ s.params.blobMaxWords) (hlen : px.length = W.toNat * H.toNat)
    (hbad : ∃ w ∈ px, 15 < (channelOf s.params.indexChannel w).toNat) :
    exec (.cmpBitmap (pairWord H W :: px)) s = .next (faulted .formatError s) := by
  rw [exec_cmpBitmap_sized hlive hblob hdims, if_neg (Nat.not_lt.2 hcap), if_neg (not_not.2 hlen),
    if_pos ((any_badPixel_iff _ px).2 hbad)]

theorem exec_cmpBitmap_compiled (hdims : ¬BadDimensions W H)
    (hcap : W.toNat * H.toNat / 8 ≤ s.params.blobMaxWords) (hlen : px.length = W.toNat * H.toNat)
    (hlegal : ¬∃ w ∈ px, 15 < (channelOf s.params.indexChannel w).toNat) :
    exec (.cmpBitmap (pairWord H W :: px)) s = .next ({ s with
      blob := compiledBlob s.params.indexChannel W H px, sheetWt := W / 8, sheetHt := H / 8 }.respond .ok
        (compiledBlob s.params.indexChannel W H px)) := by
  rw [exec_cmpBitmap_sized hlive hblob hdims, if_neg (Nat.not_lt.2 hcap), if_neg (not_not.2 hlen),
    if_neg (mt (any_badPixel_iff _ px).1 hlegal)]

end
end

/-! ### The obligations -/

/-- Settles O45: the checks in the order in which the command makes them. -/
theorem compileChecksInOrder : Obligations.CompileChecksInOrder := by
  intro s W H px hlive
  refine ⟨exec_cmpBitmap_nil hlive, exec_cmpBitmap_locked hlive, exec_cmpBitmap_badDimensions hlive,
    fun hblob hW hH hW8 hH8 => ?_⟩
  have hdims := not_badDimensions hW hH hW8 hH8
  exact ⟨exec_cmpBitmap_tooLarge hlive hblob hdims, exec_cmpBitmap_wrongLength hlive hblob hdims,
    exec_cmpBitmap_badPixel hlive hblob hdims⟩

/-- Settles O44: every check passes, and the pixel's place in the blob is `pixel_compileBitmap`'s. -/
theorem compiledBlobHoldsEveryPixel : Obligations.CompiledBlobHoldsEveryPixel := by
  intro s W H px hlive hblob hW hH hW8 hH8 hcap hlen hpx
  have legal : ¬∃ w ∈ px, 15 < (channelOf s.params.indexChannel w).toNat := by
    rintro ⟨w, hw, hbad⟩
    exact absurd (hpx w hw) (Nat.not_le.2 hbad)
  have hidx : ∀ n, (channelOf s.params.indexChannel (px.getD n 0)).toNat ≤ 15 := by
    intro n
    rw [channelOf_getD]
    exact getD_legal (by simpa using hpx) n
  exact ⟨_, exec_cmpBitmap_compiled hlive hblob (not_badDimensions hW hH hW8 hH8) hcap hlen legal,
    compileBitmap_length_of_dvd _ hW8 hH8,
    fun x y => pixel_compileBitmap (fun x y => hidx (y * W.toNat + x)) hW8 hH8⟩

/-- The compile depends on a payload through its index channel only (R145). -/
theorem compileCommand_congr {s : State} {px px' : List Word} (dims : Word)
    (hch : px.map (channelOf s.params.indexChannel) = px'.map (channelOf s.params.indexChannel)) :
    compileCommand (dims :: px) s = compileCommand (dims :: px') s := by
  have hlen : px.length = px'.length := by simpa using congrArg List.length hch
  have hany : (px.any fun w => badPixel (channelOf s.params.indexChannel w)) =
      px'.any fun w => badPixel (channelOf s.params.indexChannel w) := by
    simpa [List.any_map, Function.comp_def] using congrArg (List.any · badPixel) hch
  simp only [compileCommand, hlen, hany, channelOf_getD, hch]

/-- Settles O46: the channel as a number, and `compileCommand_congr` behind the halted check. -/
theorem otherChannelsAreDiscarded : Obligations.OtherChannelsAreDiscarded :=
  ⟨toNat_channelOf, fun s dims _ _ hch => congrArg (unlessHalted s) (compileCommand_congr dims hch)⟩

end Sys2Proof.Proofs
end

section
/-! Loading tiles from the blob (spec/42_tile_mapper.md R148, R149): TILE.LDB and SPR.LOAD16. -/

namespace Sys2Proof.Proofs

open Sys2Proof Sys2Proof.Machine

/-! ### Blob tiles -/

/-- Row `r` of blob tile `n` is blob word `8 n + r` (spec/10_state.md R23). -/
theorem getD_blobTile (s : State) (n : Nat) {r : Nat} (hr : r < 8) :
    (s.blobTile n).getD r 0 = s.blob.getD (8 * n + r) 0 := by
  simp [State.blobTile, hr]

theorem blobTile_length_le (s : State) (n : Nat) : (s.blobTile n).length ≤ 8 :=
  List.length_take_le 8 _

/-! ### The stores of SPR.LOAD16 -/

/-- Slot `t` lies 32 bytes below slot `t + 1`. -/
theorem elemAddr_objtile_add (t n : Nat) : elemAddr .objtile (t + n) = elemAddr .objtile t + 32 * n := by
  simp only [elemAddr, regionStride]
  omega

/-- The tiles of a quad fill their slots from `dst` up. -/
theorem quadStores_within (s : State) (dst : Nat) (qs : List Nat) :
    ∀ e ∈ quadStores s dst qs,
      elemAddr .objtile dst ≤ e.addr ∧ e.addr + e.size ≤ elemAddr .objtile dst + 32 * qs.length := by
  induction qs generalizing dst with
  | nil => simp [quadStores]
  | cons q qs ih =>
    intro e he
    rw [List.length_cons]
    rcases List.mem_append.1 he with hhead | htail
    · have := wordStores_within _ _ e hhead
      have := blobTile_length_le s q
      omega
    · have := ih (dst + 1) e htail
      rw [elemAddr_objtile_add] at this
      omega

theorem quadStores_mapped {s : State} {dst : Nat} {qs : List Nat} (hdst : dst + qs.length ≤ 1024) :
    ∀ e ∈ quadStores s dst qs, e.mapped = true := by
  induction qs generalizing dst with
  | nil => simp [quadStores]
  | cons q qs ih =>
    intro e he
    rw [List.length_cons] at hdst
    rcases List.mem_append.1 he with hhead | htail
    · exact wordStores_mapped (by omega) (blobTile_length_le s q) e hhead
    · exact ih (by omega) e htail

theorem quadStores_ascending (s : State) (dst : Nat) (qs : List Nat) :
    (quadStores s dst qs).Pairwise fun e f => e.addr + e.size ≤ f.addr := by
  induction qs generalizing dst with
  | nil => exact .nil
  | cons q qs ih =>
    refine List.pairwise_append.2 ⟨wordStores_ascending _ _, ih (dst + 1), fun e he f hf => ?_⟩
    have below := (wordStores_within _ _ e he).2
    have above := (quadStores_within s (dst + 1) qs f hf).1
    have := blobTile_length_le s q
    rw [elemAddr_objtile_add] at above
    omega

/-- Row `r` of the `j`th slot reads as row `r` of the `j`th tile of the quad. -/
theorem word_storeAll_quadStores {s : State} {qs : List Nat} (hqs : ∀ q ∈ qs, q < s.blobLen / 8) (m : Memory)
    (dst : Nat) {j r : Nat} (hj : j < qs.length) (hr : r < 8) :
    (m.storeAll (quadStores s dst qs)).word (tileWordAddr (8 * (dst + j) + r)) =
      s.blob.getD (8 * qs.getD j 0 + r) 0 := by
  induction qs generalizing m dst j with
  | nil => exact absurd hj (Nat.not_lt_zero j)
  | cons q qs ih =>
    obtain ⟨hq, hqs⟩ := List.forall_mem_cons.1 hqs
    rw [quadStores, Memory.storeAll_append]
    cases j with
    | zero =>
      have apart : ∀ e ∈ quadStores s (dst + 1) qs,
          tileWordAddr (8 * (dst + 0) + r) + 4 ≤ e.addr ∨ e.addr + e.size ≤ tileWordAddr (8 * (dst + 0) + r) := by
        intro e he
        have := (quadStores_within s (dst + 1) qs e he).1
        rw [elemAddr_objtile_add] at this
        rw [Nat.add_zero dst, ← elemAddr_row]
        omega
      rw [word_storeAll_other apart, Nat.add_zero, word_storeAll_rows, if_pos (by rwa [blobTile_length hq]),
        getD_blobTile s q hr, List.getD_cons_zero]
    | succ j =>
      have tail := ih hqs (m.storeAll (wordStores (elemAddr .objtile dst) (s.blobTile q))) (dst + 1)
        (Nat.lt_of_succ_lt_succ hj)
      rwa [Nat.add_right_comm, Nat.add_assoc] at tail

/-! ### The commands -/

section
variable {s : State} (hlive : s.faultCode = 0) {dst : Half}
include hlive

/-- `src` is checked before `dst` (R148). -/
theorem exec_tileLdb_src_ge {src : Word} (hsrc : s.blobLen / 8 ≤ src.toNat) :
    exec (.tileLdb dst src) s = .next (faulted .outOfRange s) := by
  change execTileLdb dst src s = _
  rw [execTileLdb, unlessHalted_live hlive, if_pos hsrc, raising_live hlive]

theorem exec_tileLdb_dst_ge {src : Word} (hsrc : src.toNat < s.blobLen / 8) (hdst : 1024 ≤ dst.toNat) :
    exec (.tileLdb dst src) s = .next (faulted .outOfRange s) := by
  change execTileLdb dst src s = _
  rw [execTileLdb, unlessHalted_live hlive, if_neg (Nat.not_le.2 hsrc), withIndex_ge_live hdst hlive]

theorem exec_tileLdb_lt {src : Word} (hsrc : src.toNat < s.blobLen / 8) (hdst : dst.toNat < 1024) :
    exec (.tileLdb dst src) s =
      .next ((runStores (wordStores (elemAddr .objtile dst.toNat) (s.blobTile src.toNat)) s).respond .ok []) := by
  change execTileLdb dst src s = _
  rw [execTileLdb, unlessHalted_live hlive, if_neg (Nat.not_le.2 hsrc), withIndex_lt hdst,
    commit_tile (blobTile_length hsrc) hdst]

theorem exec_sprLoad16_noBlob {k : Half} (hblob : s.blob = []) :
    exec (.sprLoad16 dst k) s = .next (faulted .outOfRange s) := by
  have hlen : s.blobLen = 0 := List.length_eq_zero_iff.2 hblob
  change execSprLoad16 dst k s = _
  rw [execSprLoad16, unlessHalted_live hlive, if_pos hlen, raising_live hlive]

section
variable {k : Half} (hblob : s.blob ≠ [])
include hblob

theorem exec_sprLoad16_odd (hodd : s.sheetWt.toNat % 2 = 1) :
    exec (.sprLoad16 dst k) s = .next (faulted .formatError s) := by
  change execSprLoad16 dst k s = _
  rw [execSprLoad16, unlessHalted_live hlive, if_neg ((blobLen_ne_zero_iff s).2 hblob), if_pos hodd,
    raising_live hlive]

/-- The two range checks, the quad before the slots (R149). -/
theorem exec_sprLoad16_outside (heven : s.sheetWt.toNat % 2 = 0)
    (hout : s.blobLen / 8 ≤ quadTopLeft s.sheetWt.toNat k.toNat + s.sheetWt.toNat + 1 ∨ 1024 ≤ dst.toNat + 3) :
    exec (.sprLoad16 dst k) s = .next (faulted .outOfRange s) := by
  change execSprLoad16 dst k s = _
  rw [execSprLoad16, unlessHalted_live hlive, if_neg ((blobLen_ne_zero_iff s).2 hblob), if_neg (by omega)]
  split
  next => rw [raising_live hlive]
  next hquad => rw [if_pos (hout.resolve_left hquad), raising_live hlive]

theorem exec_sprLoad16_inside (heven : s.sheetWt.toNat % 2 = 0)
    (hquad : quadTopLeft s.sheetWt.toNat k.toNat + s.sheetWt.toNat + 1 < s.blobLen / 8) (hdst : dst.toNat + 3 < 1024) :
    exec (.sprLoad16 dst k) s =
      .next ((runStores (quadStores s dst.toNat (quadTiles s.sheetWt.toNat k.toNat)) s).respond .ok []) := by
  have mapped : ∀ e ∈ quadStores s dst.toNat (quadTiles s.sheetWt.toNat k.toNat), e.mapped = true :=
    quadStores_mapped (by simp only [quadTiles, List.length_cons, List.length_nil]; omega)
  change execSprLoad16 dst k s = _
  rw [execSprLoad16, unlessHalted_live hlive, if_neg ((blobLen_ne_zero_iff s).2 hblob), if_neg (by omega),
    if_neg (Nat.not_le.2 hquad), if_neg (Nat.not_le.2 hdst), commit_mapped mapped]

end
end

/-! ### The obligations -/

/-- Settles O48: the blob tile's words are the rows stored, with the frame of the eight stores. -/
theorem tileLdbCopiesTheBlobTile : Obligations.TileLdbCopiesTheBlobTile := by
  intro s dst src hlive
  refine ⟨fun hsrc hdst => ?_, fun hout => ?_⟩
  · have eight := blobTile_length hsrc
    exact ⟨_, exec_tileLdb_lt hlive hsrc hdst,
      fun r hr => (tilew_stored (eight ▸ hr)).trans (getD_blobTile s _ hr),
      sameMemoryOutside_tile eight _ _ _, sameRegisters_stores _ _ _, answeredOk_stores _ _ _,
      othersMoved_tile eight _ _ _⟩
  · rcases Nat.lt_or_ge src.toNat (s.blobLen / 8) with hsrc | hsrc
    · exact exec_tileLdb_dst_ge hlive hsrc (hout.resolve_left (Nat.not_le.2 hsrc))
    · exact exec_tileLdb_src_ge hlive hsrc

/-- The last tile of a quad is the furthest, so one check covers the four (R149). -/
theorem mem_quadTiles_le {wt k q : Nat} (hq : q ∈ quadTiles wt k) : q ≤ quadTopLeft wt k + wt + 1 := by
  simp only [quadTiles, List.mem_cons, List.not_mem_nil, or_false] at hq
  omega

/-- Settles O49: the checks in their order, then the four tiles by `word_storeAll_quadStores`. -/
theorem sprLoadCopiesTheQuad : Obligations.SprLoadCopiesTheQuad := by
  intro s dst k hlive
  refine ⟨exec_sprLoad16_noBlob hlive, exec_sprLoad16_odd hlive,
    fun hblob _ heven hout => exec_sprLoad16_outside hlive hblob heven hout, fun hblob _ heven hquad hdst => ?_⟩
  have inBlob : ∀ q ∈ quadTiles s.sheetWt.toNat k.toNat, q < s.blobLen / 8 :=
    fun q hq => (mem_quadTiles_le hq).trans_lt hquad
  have moved := othersMoved_stores (quadStores s dst.toNat (quadTiles s.sheetWt.toNat k.toNat)) [] s
  rw [quadStores_length inBlob] at moved
  refine ⟨_, exec_sprLoad16_inside hlive hblob heven hquad hdst, fun j r hj hr => ?_,
    sameMemoryOutside_stores (n := 128) (quadStores_within s _ (quadTiles _ _)) [] s, sameRegisters_stores _ _ _,
    answeredOk_stores _ _ _, moved⟩
  rw [State.tilew, stores_mem]
  exact word_storeAll_quadStores inBlob s.mem dst.toNat hj hr

end Sys2Proof.Proofs
end

section
/-! The slot allocator and the table clear (spec/43_sprite_descriptor.md R181, R184, R185): OAM.ALLOC, OAM.CLEAR and
FRAME.BEGIN. -/

namespace Sys2Proof.Proofs

open Sys2Proof Sys2Proof.Machine

/-! ### The commands -/

/-- The table clear stores its 128 zero entries and answers. -/
theorem commit_clear (s : State) : commit clearStores [] s = .next ((runStores clearStores s).respond .ok []) :=
  commit_mapped clearStores_mapped [] s

section
variable {s : State} (hlive : s.faultCode = 0)
include hlive

theorem exec_oamAlloc_lt (hfree : s.allocCtr.toNat < 128) :
    exec .oamAlloc s =
      .next ((runStores [.desc (elemAddr .oam s.allocCtr.toNat) s.desc] { s with allocCtr := s.allocCtr + 1 }).respond
        .ok [s.allocCtr.setWidth 32]) := by
  change execOamAlloc s = _
  rw [execOamAlloc, unlessHalted_live hlive, if_neg (Nat.not_le.2 hfree), commit_slot hfree]

theorem exec_oamAlloc_ge (hfull : 128 ≤ s.allocCtr.toNat) :
    exec .oamAlloc s = .next (faulted .outOfRange s) := by
  change execOamAlloc s = _
  rw [execOamAlloc, unlessHalted_live hlive, if_pos hfull, raising_live hlive]

theorem exec_oamClear : exec .oamClear s = .next ((runStores clearStores s).respond .ok []) := by
  change execOamClear s = _
  rw [execOamClear, unlessHalted_live hlive, commit_clear]

theorem exec_frameBegin_everyFrame (hpolicy : s.params.clearPolicy = .everyFrame) :
    exec .frameBegin s = .next ((runStores clearStores { s with allocCtr := 0 }).respond .ok []) := by
  change execFrameBegin s = _
  rw [execFrameBegin, unlessHalted_live hlive, hpolicy, commitWhen_mapped clearStores_mapped]
  rfl

theorem exec_frameBegin_explicitOnly (hpolicy : s.params.clearPolicy = .explicitOnly) :
    exec .frameBegin s = .next ({ s with allocCtr := 0 }.respond .ok []) := by
  change execFrameBegin s = _
  rw [execFrameBegin, unlessHalted_live hlive, hpolicy, commitWhen_mapped clearStores_mapped]
  rfl

end

/-! ### The stores -/

/-- A slot apart from the one stored reads as before. -/
theorem oam_stored_other {i j : Nat} (hne : j ≠ i) (d : Desc) (ws : List Word) (s : State) :
    ((runStores [.desc (elemAddr .oam i) d] s).respond .ok ws).oam j = s.oam j := by
  refine Memory.descAt_store_other s.mem (.desc (elemAddr .oam i) d) (elemAddr .oam j) ?_
  simp only [ElemStore.addr, ElemStore.size, elemAddr_oam]
  omega

/-- Every slot is zero after the clear. -/
theorem oam_cleared {i : Nat} (hi : i < 128) (s : State) :
    ((runStores clearStores s).respond .ok []).oam i = zeroDesc := by
  rw [State.oam, stores_mem, clearStores, descAt_storeAll_zeroSlots]
  exact if_pos ⟨Nat.zero_le i, by simpa [regionCount] using hi⟩

theorem byte_cleared {a : Nat} (ha : inRegion .oam a = false) (s : State) :
    ((runStores clearStores s).respond .ok []).mem.byte a = s.mem.byte a := by
  rw [stores_mem, byte_storeAll_clear s.mem ha]

theorem othersMoved_clear (s : State) : OthersMoved 128 s ((runStores clearStores s).respond .ok []) := by
  have moved := othersMoved_stores clearStores [] s
  rwa [clearStores_length] at moved

/-- The counter has a bit to spare at 127. -/
theorem toNat_add_one {c : BitVec 8} (hc : c.toNat < 128) : (c + 1).toNat = c.toNat + 1 := by
  have one : (1 : BitVec 8).toNat = 1 := rfl
  rw [BitVec.toNat_add, one]
  omega

/-! ### A row of allocations -/

/-- `t` is `s` after `n` allocations from a counter of 0: slots 0 to `n - 1` hold `desc`, each was answered in its
turn, and the other slots are as they were. -/
structure Allocated (s : State) (n : Nat) (t : State) : Prop where
  live : t.faultCode = 0
  desc : t.desc = s.desc
  counter : t.allocCtr.toNat = n
  filled : ∀ k, k < n → t.oam k = s.desc
  free : ∀ k, n ≤ k → k < 128 → t.oam k = s.oam k
  answers : t.rsp = (List.range n).reverse.map
    (fun k => { status := .ok, words := [BitVec.ofNat 32 k] }) ++ s.rsp

theorem Allocated.start {s : State} (hlive : s.faultCode = 0) (hctr : s.allocCtr = 0) : Allocated s 0 s where
  live := hlive
  desc := rfl
  counter := by rw [hctr]; rfl
  filled k hk := absurd hk (Nat.not_lt_zero k)
  free _ _ _ := rfl
  answers := rfl

/-- One more allocation takes the next slot. -/
theorem Allocated.next {s t : State} {n : Nat} (h : Allocated s n t) (hn : n < 128) :
    ∃ u, exec .oamAlloc t = .next u ∧ Allocated s (n + 1) u := by
  have hctr : t.allocCtr.toNat < 128 := h.counter ▸ hn
  refine ⟨_, exec_oamAlloc_lt h.live hctr, ?_⟩
  rw [h.counter, h.desc]
  exact {
    live := h.live
    desc := rfl
    counter := (toNat_add_one hctr).trans (congrArg (· + 1) h.counter)
    filled := fun k hk => by
      rcases Nat.lt_succ_iff_lt_or_eq.1 hk with hlt | rfl
      · exact (oam_stored_other (Nat.ne_of_lt hlt) _ _ _).trans (h.filled k hlt)
      · exact oam_stored k _ _ _
    free := fun k hk h128 =>
      (oam_stored_other (Nat.ne_of_gt hk) _ _ _).trans (h.free k (Nat.le_of_succ_le hk) h128)
    answers := by
      simp [h.answers, List.range_succ, ← h.counter] }

theorem runInstrs_append {is js : List Instr} {s t : State} (hrun : runInstrs is s = .next t) :
    runInstrs (is ++ js) s = runInstrs js t := by
  induction is generalizing s with
  | nil =>
    obtain rfl : s = t := Host.Outcome.next.inj hrun
    rfl
  | cons i is ih =>
    rw [List.cons_append, runInstrs]
    rw [runInstrs] at hrun
    cases hexec : exec i s with
    | next u =>
      rw [hexec] at hrun
      exact ih hrun
    | fault r => rw [hexec] at hrun; cases hrun
    | refused r => rw [hexec] at hrun; cases hrun

theorem runInstrs_allocations {s : State} (hlive : s.faultCode = 0) (hctr : s.allocCtr = 0) {n : Nat} (hn : n ≤ 128) :
    ∃ t, runInstrs (List.replicate n .oamAlloc) s = .next t ∧ Allocated s n t := by
  induction n with
  | zero => exact ⟨s, rfl, .start hlive hctr⟩
  | succ n ih =>
    obtain ⟨t, hrun, ht⟩ := ih (Nat.le_of_succ_le hn)
    obtain ⟨u, hexec, hu⟩ := ht.next hn
    refine ⟨u, ?_, hu⟩
    rw [List.replicate_succ', runInstrs_append hrun, runInstrs_cons_next hexec, runInstrs]

/-! ### The obligations -/

/-- Settles O54: the one store's frame below the count, the fault from it on. -/
theorem oamAllocStoresAtTheCounter : Obligations.OamAllocStoresAtTheCounter := by
  intro s hlive
  refine ⟨fun hfree => ?_, exec_oamAlloc_ge hlive⟩
  exact ⟨_, exec_oamAlloc_lt hlive hfree, oam_stored _ s.desc _ _, toNat_add_one hfree, answeredOk_stores _ _ _,
    sameMemoryOutside_desc _ _ _ _, rfl, (sameRegisters_stores _ _ { s with allocCtr := s.allocCtr + 1 }).2.2,
    noOtherMoved_oneStore _ _ _⟩

/-- Settles O55, by induction on the number of allocations. -/
theorem allocationsOccupySlotsInOrder : Obligations.AllocationsOccupySlotsInOrder := by
  intro s n hlive hctr hn
  obtain ⟨t, hrun, ht⟩ := runInstrs_allocations hlive hctr hn
  exact ⟨t, hrun, ht.counter, ht.filled, ht.free, ht.answers,
    fun hfull => exec_oamAlloc_ge ht.live (by rw [ht.counter, hfull])⟩

/-- Settles O58, by what the 128 stores leave in the slots and outside them. -/
theorem oamClearZeroesTheTable : Obligations.OamClearZeroesTheTable := by
  refine ⟨encodes_oamClear, fun s hlive => ?_⟩
  exact ⟨_, exec_oamClear hlive, fun i hi => oam_cleared hi s, fun a ha => byte_cleared ha s,
    sameRegisters_stores _ _ _, answeredOk_stores _ _ _, othersMoved_clear s⟩

/-- Settles O59, by the two policies. -/
theorem frameBeginFollowsThePolicy : Obligations.FrameBeginFollowsThePolicy := by
  refine ⟨encodes_frameBegin, fun s hlive => ?_⟩
  cases hpolicy : s.params.clearPolicy with
  | everyFrame =>
    have regs := sameRegisters_stores clearStores [] { s with allocCtr := 0 }
    have answered := answeredOk_stores clearStores [] { s with allocCtr := 0 }
    have moved := othersMoved_clear { s with allocCtr := 0 }
    exact ⟨_, exec_frameBegin_everyFrame hlive hpolicy, regs.2.1, regs.1, regs.2.2, answered,
      fun a ha => byte_cleared ha _, nofun, fun _ => ⟨fun i hi => oam_cleared hi _, moved⟩⟩
  | explicitOnly =>
    exact ⟨_, exec_frameBegin_explicitOnly hlive hpolicy, rfl, rfl, by simp [SameRest], rfl, fun _ _ => rfl,
      fun _ => ⟨rfl, rfl, rfl, rfl, rfl⟩, nofun⟩

end Sys2Proof.Proofs
end

section
/-! The region table as a map of bytes (spec/10_state.md R11, spec/20_memory.md R46): no two elements share a byte, and
what no command can store to. -/

namespace Sys2Proof.Proofs

open Sys2Proof Sys2Proof.Machine

theorem elemAddr_eq_add_mul (r : Region) (i : Nat) : elemAddr r i = regionBase r + regionStride r * i := by
  rw [elemAddr, Nat.mul_comm]

/-- The elements of a region stay inside its declared size (R11). -/
theorem count_mul_stride_le_size (r : Region) : regionCount r * regionStride r ≤ regionSize r := by
  cases r <;> decide

theorem elem_byte_within {r : Region} {i j : Nat} (hi : i < regionCount r) (hj : j < regionElemSize r) :
    regionBase r ≤ elemAddr r i + j ∧ elemAddr r i + j < regionBase r + regionSize r := by
  have rows := Nat.mul_le_mul_right (regionStride r) hi
  have size := count_mul_stride_le_size r
  have fits := elemSize_le_stride r
  rw [Nat.succ_mul] at rows
  unfold elemAddr
  omega

/-- The six regions lie apart (R46; spec/90_conflicts.md C11). -/
theorem regions_apart {r r' : Region} (hne : r ≠ r') :
    regionBase r + regionSize r ≤ regionBase r' ∨ regionBase r' + regionSize r' ≤ regionBase r := by
  revert hne
  cases r <;> cases r' <;> decide

/-- In one region a byte tells its element and its place in it. -/
theorem elem_byte_injective {r : Region} {i i' j j' : Nat} (hj : j < regionElemSize r) (hj' : j' < regionElemSize r)
    (heq : elemAddr r i + j = elemAddr r i' + j') : i = i' ∧ j = j' := by
  have fits := elemSize_le_stride r
  by_cases hi : i = i'
  · subst hi
    exact ⟨rfl, Nat.add_left_cancel heq⟩
  · have := elemAddr_apart r (Ne.symm hi)
    omega

/-- Settles O27: the addresses by the rows of the table; a byte of an element tells the region, since the regions lie
apart, and then the element. -/
theorem regionElementsDoNotOverlap : Obligations.RegionElementsDoNotOverlap := by
  refine ⟨fun i => ?_, fun r => ⟨elemSize_le_stride r, count_mul_stride_le_size r⟩,
    fun r r' i i' j j' hi hi' hj hj' heq => ?_⟩
  · exact ⟨rfl, rfl, rfl, elemAddr_eq_add_mul .objpal i, elemAddr_eq_add_mul .objtile i, elemAddr_oam i⟩
  · have within := elem_byte_within hi hj
    have within' := elem_byte_within hi' hj'
    obtain rfl : r = r' := by
      by_contra hne
      have := regions_apart hne
      omega
    exact ⟨rfl, elem_byte_injective hj hj' heq⟩

end Sys2Proof.Proofs
end

section
/-! Facts about every instruction, each a case split over `Effect`: its one response, what it writes, and what the other
agents did meanwhile. -/

namespace Sys2Proof.Proofs

open Sys2Proof Sys2Proof.Machine

/-! ### What the other agents did -/

/-- Where no other agent moved, the front of the agenda used up is empty. -/
theorem othersMoved_of_noOtherMoved (n : Nat) {s t : State} (hstill : NoOtherMoved s t) : OthersMoved n s t := by
  obtain ⟨hvis, hframes, hkeys, hagenda⟩ := hstill
  refine ⟨[], hagenda.symm, by simp, fun _ => rfl, by simp, ?_, by simp [hframes], by simp, fun _ => hvis, hkeys⟩
  exact hframes ▸ List.suffix_rfl

/-- Settles O15: only the element stores have gaps (`runStores_othersMoved`); every other outcome of a command leaves the
agenda as it was. -/
theorem commandsDoNotWriteVis : Obligations.CommandsDoNotWriteVis := by
  intro i s t hexec
  cases exec_effect hexec with
  | store _ _ es _ hcount ws _ c =>
    rw [← hcount]
    exact othersMoved_stores es ws { s with allocCtr := c }
  | _ => exact othersMoved_of_noOtherMoved _ ⟨rfl, rfl, rfl, rfl⟩

/-! ### The response -/

/-- Settles O14, outcome by outcome. -/
theorem oneResponseOfTheRightLength : Obligations.OneResponseOfTheRightLength := by
  intro i s t hexec hwait
  cases exec_effect hexec with
  | turned => exact ⟨_, rfl, nofun, fun _ => rfl⟩
  | fault _ k => exact ⟨_, rfl, fun hok => absurd hok (status_ne_ok k), fun _ => rfl⟩
  | answer ws hlen => exact ⟨_, rfl, fun _ => hlen, fun h => absurd rfl h⟩
  | keyRead _ hi w =>
    subst hi
    exact ⟨_, rfl, fun _ => rfl, fun h => absurd rfl h⟩
  | pend _ hi => exact absurd hi hwait
  | build _ _ d _ hlen => exact ⟨_, rfl, fun _ => hlen.symm, fun h => absurd rfl h⟩
  | compile _ _ _ blob wt ht hlen => exact ⟨_, rfl, fun _ => hlen, fun h => absurd rfl h⟩
  | store _ _ es _ _ ws hlen c =>
    exact ⟨_, answeredOk_stores es ws { s with allocCtr := c }, fun _ => hlen, fun h => absurd rfl h⟩

/-! ### The registers -/

/-- Settles O22: of the outcomes only a store comes with a change of the counter, and that of OAM.ALLOC or
FRAME.BEGIN. -/
theorem onlyAllocAndFrameWriteTheCounter : Obligations.OnlyAllocAndFrameWriteTheCounter := by
  refine ⟨fun i s t hexec hchanged => ?_, State.vblankEvent_allocCtr⟩
  cases exec_effect hexec with
  | store _ _ es _ _ ws _ c hc =>
    rw [State.respond_allocCtr, runStores_allocCtr] at hchanged ⊢
    obtain hkept | ⟨hi, -, hstep⟩ | hzero := hc
    · exact absurd hkept hchanged
    · exact .inl ⟨hi, hstep⟩
    · exact .inr hzero
  | _ => exact absurd rfl hchanged

/-- Settles O23: of the outcomes only the compile writes these registers. -/
theorem blobIsWrittenOnlyWhileEmpty : Obligations.BlobIsWrittenOnlyWhileEmpty := by
  intro i s t hexec hchanged
  cases exec_effect hexec with
  | compile _ hi hempty => exact ⟨hi, hempty⟩
  | _ => simp at hchanged

/-- Settles O24: of the outcomes only a builder's writes `desc`. -/
theorem onlyBuildersWriteTheDescriptor : Obligations.OnlyBuildersWriteTheDescriptor := by
  intro i s t hexec hchanged
  cases exec_effect hexec with
  | build _ hi => exact hi
  | store => simp at hchanged
  | _ => exact absurd rfl hchanged

/-! ### Memory -/

/-- A byte no command can store to keeps what is listed there. -/
theorem get?_eq_of_exec {i : Instr} {s t : State} {a : Nat} (hexec : exec i s = .next t)
    (ha : storageByte a = false) : t.mem.get? a = s.mem.get? a := by
  cases exec_effect hexec with
  | store _ _ es hmapped =>
    rw [stores_mem]
    exact Memory.get?_storeAll_unmapped s.mem es a hmapped ha
  | _ => rfl

/-- No instruction draws memory anew. -/
theorem mem_draw_eq_of_exec {i : Instr} {s t : State} (hexec : exec i s = .next t) : t.mem.draw = s.mem.draw := by
  cases exec_effect hexec with
  | store => rw [stores_mem, Memory.storeAll_draw]
  | _ => rfl

theorem mem_eq_of_not_storing {i : Instr} {s t : State} (hexec : exec i s = .next t) (hi : isStoring i = false) :
    t.mem = s.mem := by
  cases exec_effect hexec with
  | store _ hstoring => rw [hi] at hstoring; cases hstoring
  | _ => rfl

/-- Bytes 6 and 7 of a table entry lie on no element (spec/10_state.md R18). -/
theorem storageByte_entry_tail {slot j : Nat} (hslot : slot < 128) (hj : 6 ≤ j) (hj8 : j < 8) :
    storageByte (0x07000000 + 8 * slot + j) = false := by
  refine Bool.eq_false_iff.2 fun hstorage => ?_
  simp only [storageByte, Bool.or_eq_true, inRegion_iff, regionBase, regionStride, regionCount,
    regionElemSize] at hstorage
  omega

/-- Settles O25: the bytes outside the elements and the commands that store nothing by `Effect`, KEYINPUT and the tails
of the table's entries by the region table. -/
theorem commandsStoreOnlyToElements : Obligations.CommandsStoreOnlyToElements := by
  refine ⟨fun i s t a hexec ha => ⟨get?_eq_of_exec hexec ha, ?_⟩, fun i s t => mem_eq_of_not_storing, by decide,
    by decide, fun slot hslot => ⟨storageByte_entry_tail hslot (by decide) (by decide),
      storageByte_entry_tail hslot (by decide) (by decide)⟩⟩
  rw [Memory.byte, get?_eq_of_exec hexec ha, mem_draw_eq_of_exec hexec, Memory.byte]

end Sys2Proof.Proofs
end

section
/-! Which events fall in which gap of a command's stores (spec/20_memory.md R52), for agendas written out: one event after
a number of stores, or any number of events in every gap. -/

namespace Sys2Proof.Proofs

open Sys2Proof Sys2Proof.Machine

/-! ### Agendas without an event -/

/-- What passes without an event among it hands the display nothing. -/
theorem display_eq_of_passed {used : List Move} {s t : State} (h : Passed used s t) (hnone : Move.vblank ∉ used) :
    t.vis = s.vis ∧ t.frames = s.frames := by
  have hlen : t.frames.length = s.frames.length := by rw [h.count, List.count_eq_zero.2 hnone, Nat.zero_add]
  exact ⟨h.kept hnone, (h.handed.eq_of_length hlen.symm).symm⟩

theorem passGap_noEvent {l : List Move} (hnone : Move.vblank ∉ l) (s : State) :
    (passGap l s).vis = s.vis ∧ (passGap l s).frames = s.frames ∧ Move.vblank ∉ (passGap l s).agenda := by
  obtain ⟨used, hsplit, -, hpassed⟩ := passGap_passed l s
  rw [hsplit, List.mem_append, not_or] at hnone
  obtain ⟨hvis, hframes⟩ := display_eq_of_passed hpassed hnone.1
  exact ⟨hvis, hframes, hnone.2⟩

theorem runLater_noEvent {s : State} (hnone : Move.vblank ∉ s.agenda) (es : List ElemStore) :
    (runLater es s).vis = s.vis ∧ (runLater es s).frames = s.frames := by
  obtain ⟨used, hsplit, -, -, hpassed⟩ := runLater_passed es s
  rw [hsplit, List.mem_append, not_or] at hnone
  exact display_eq_of_passed hpassed hnone.1

/-- An agenda at its end stays there. -/
theorem runLater_agenda_nil {s : State} (hnil : s.agenda = []) (es : List ElemStore) : (runLater es s).agenda = [] := by
  obtain ⟨used, hsplit, -⟩ := runLater_passed es s
  rw [hnil] at hsplit
  exact (List.append_eq_nil_iff.1 hsplit.symm).2

/-! ### One event -/

/-- A gap that begins with the CORE's own entry passes without more. -/
theorem instant_core {s : State} {rest : List Move} (hagenda : s.agenda = .core :: rest) :
    s.instant = { s with agenda := rest } := by
  rw [State.instant, hagenda, passGap]

theorem instant_vblank {s : State} {rest : List Move} (hagenda : s.agenda = .vblank :: rest) :
    s.instant = passGap rest s.latch := by
  rw [State.instant, hagenda, passGap]

/-- An event after `k` of the later stores latches the memory after them, and no other event falls. -/
theorem runLater_oneEvent {es : List ElemStore} {s : State} {k : Nat} {rest : List Move}
    (hagenda : s.agenda = List.replicate k .core ++ .vblank :: rest) (hk : k < es.length)
    (hrest : Move.vblank ∉ rest) :
    (runLater es s).vis = s.mem.storeAll (es.take k) ∧
      (runLater es s).frames = s.mem.storeAll (es.take k) :: s.frames := by
  induction es generalizing s k with
  | nil => exact absurd hk (Nat.not_lt_zero k)
  | cons e es ih =>
    rw [runLater]
    cases k with
    | zero =>
      obtain ⟨hvis, hframes, hnone⟩ := passGap_noEvent hrest s.latch
      rw [instant_vblank hagenda]
      obtain ⟨lvis, lframes⟩ := runLater_noEvent (s := (passGap rest s.latch).storeElem e) hnone es
      rw [lvis, lframes]
      exact ⟨hvis, hframes⟩
    | succ k =>
      rw [instant_core hagenda]
      exact ih rfl (Nat.lt_of_succ_lt_succ hk)

/-- The same among all stores of a command: an event after the first `k + 1` of them. -/
theorem runStores_oneEvent {es : List ElemStore} {s : State} {k : Nat} {rest : List Move}
    (hagenda : s.agenda = List.replicate k .core ++ .vblank :: rest) (hk : k + 1 < es.length)
    (hrest : Move.vblank ∉ rest) :
    (runStores es s).vis = s.mem.storeAll (es.take (k + 1)) ∧
      (runStores es s).frames = s.mem.storeAll (es.take (k + 1)) :: s.frames := by
  cases es with
  | nil => exact absurd hk (Nat.not_lt_zero _)
  | cons e es => exact runLater_oneEvent (s := s.storeElem e) hagenda (Nat.lt_of_succ_lt_succ hk) hrest

/-- What the display is handed in the gaps and by the entries left over, where the only event comes after `k` of the
later stores: in a gap, or after the last store. -/
theorem runLater_shownByEnd {es : List ElemStore} {s : State} {k : Nat}
    (hagenda : s.agenda = List.replicate k .core ++ [.vblank]) (hk : k ≤ es.length) :
    List.replicate ((runLater es s).agenda.count .vblank) (runLater es s).mem ++ (runLater es s).frames =
      s.mem.storeAll (es.take k) :: s.frames := by
  induction es generalizing s k with
  | nil =>
    obtain rfl := Nat.le_zero.1 hk
    rw [runLater, hagenda]
    rfl
  | cons e es ih =>
    cases k with
    | zero =>
      have event := runLater_oneEvent (es := e :: es) hagenda (Nat.succ_pos _) (by simp)
      have atEnd : (runLater (e :: es) s).agenda = [] := by
        rw [runLater]
        exact runLater_agenda_nil (by rw [State.storeElem_agenda, instant_vblank hagenda]; rfl) es
      rw [atEnd, event.2]
      rfl
    | succ k =>
      rw [runLater, instant_core hagenda]
      exact ih (s := State.storeElem { s with agenda := List.replicate k .core ++ [.vblank] } e) rfl
        (Nat.le_of_succ_le_succ hk)

/-! ### Events in every gap -/

/-- A gap of `g` events hands the display the memory `g` times. -/
theorem passGap_events (g : Nat) (rest : List Move) (s : State) :
    (passGap (List.replicate g .vblank ++ .core :: rest) s).frames = List.replicate g s.mem ++ s.frames ∧
      (passGap (List.replicate g .vblank ++ .core :: rest) s).agenda = rest := by
  induction g generalizing s with
  | zero => exact ⟨rfl, rfl⟩
  | succ g ih =>
    obtain ⟨hframes, hagenda⟩ := ih s.latch
    refine ⟨?_, hagenda⟩
    rw [List.replicate_succ, List.cons_append, passGap, hframes, State.latch_frames, List.replicate_succ',
      List.append_assoc]
    rfl

/-- The agenda that puts `gaps` events into the gaps, in order, and the CORE's entry after each gap. -/
def gapAgenda (gaps : List Nat) (rest : List Move) : List Move :=
  (gaps.flatMap fun g => List.replicate g .vblank ++ [.core]) ++ rest

theorem gapAgenda_cons (g : Nat) (gaps : List Nat) (rest : List Move) :
    gapAgenda (g :: gaps) rest = List.replicate g .vblank ++ .core :: gapAgenda gaps rest := by
  simp [gapAgenda]

/-- What the display is handed with `gaps` events in the gaps before the stores `es`, the oldest first: in gap `k` the
memory after `k` of them. -/
def gapFrames (m : Memory) (es : List ElemStore) (gaps : List Nat) : List Memory :=
  (List.range gaps.length).flatMap fun k => List.replicate (gaps.getD k 0) (m.storeAll (es.take k))

theorem gapFrames_cons (m : Memory) (e : ElemStore) (es : List ElemStore) (g : Nat) (gaps : List Nat) :
    gapFrames m (e :: es) (g :: gaps) = List.replicate g m ++ gapFrames (m.store e) es gaps := by
  rw [gapFrames, List.length_cons, List.range_succ_eq_map, List.flatMap_cons, List.flatMap_map]
  rfl

theorem runLater_gaps {es : List ElemStore} {s : State} {gaps : List Nat} {rest : List Move}
    (hagenda : s.agenda = gapAgenda gaps rest) (hlen : gaps.length = es.length) :
    (runLater es s).frames = (gapFrames s.mem es gaps).reverse ++ s.frames ∧ (runLater es s).agenda = rest := by
  induction es generalizing s gaps with
  | nil =>
    obtain rfl := List.length_eq_zero_iff.1 hlen
    exact ⟨rfl, hagenda⟩
  | cons e es ih =>
    cases gaps with
    | nil => cases hlen
    | cons g gaps =>
      have gap : s.instant = passGap (List.replicate g .vblank ++ .core :: gapAgenda gaps rest) s := by
        rw [State.instant, hagenda, gapAgenda_cons]
      obtain ⟨hframes, hrest⟩ := passGap_events g (gapAgenda gaps rest) s
      rw [← gap] at hframes hrest
      obtain ⟨lframes, lagenda⟩ := ih (s := s.instant.storeElem e) hrest (Nat.succ.inj hlen)
      refine ⟨?_, lagenda⟩
      rw [runLater, lframes, State.storeElem_frames, hframes, State.storeElem_mem, State.instant_mem, gapFrames_cons,
        List.reverse_append, List.reverse_replicate, List.append_assoc]

/-- The same among all stores of a command, whose gaps begin after the first: in gap `k` the memory after `k + 1` of
them. -/
theorem runStores_gaps {es : List ElemStore} {s : State} {gaps : List Nat} {rest : List Move}
    (hagenda : s.agenda = gapAgenda gaps rest) (hlen : gaps.length + 1 = es.length) :
    (runStores es s).frames = ((List.range gaps.length).flatMap fun k =>
        List.replicate (gaps.getD k 0) (s.mem.storeAll (es.take (k + 1)))).reverse ++ s.frames ∧
      (runStores es s).agenda = rest := by
  cases es with
  | nil => cases hlen
  | cons e es => exact runLater_gaps (s := s.storeElem e) hagenda (Nat.succ.inj hlen)

/-! ### Another `VIS`, another record of the display -/

/-- The state with another `VIS` and another record of what the display was handed. -/
def showing (s : State) (v : Memory) (fs : List Memory) : State := { s with vis := v, frames := fs }

/-- A gap hands the display the same values whatever it was handed before. -/
theorem passGap_showing (l : List Move) (s : State) (v : Memory) (fs : List Memory) :
    ∃ new v', (passGap l s).frames = new ++ s.frames ∧
      passGap l (showing s v fs) = showing (passGap l s) v' (new ++ fs) := by
  induction l generalizing s v fs with
  | nil => exact ⟨[], v, rfl, rfl⟩
  | cons m l ih =>
    cases m with
    | vblank =>
      obtain ⟨new, v', hframes, hstate⟩ := ih s.latch s.mem (s.mem :: fs)
      refine ⟨new ++ [s.mem], v', ?_, ?_⟩
      · rw [passGap, hframes, State.latch_frames, List.append_assoc, List.singleton_append]
      · rw [List.append_assoc, List.singleton_append]
        exact hstate
    | keys k => exact ih { s with keyIn := k } v fs
    | core | rst | rstDuring _ => exact ⟨[], v, rfl, rfl⟩

theorem runLater_showing (es : List ElemStore) (s : State) (v : Memory) (fs : List Memory) :
    ∃ new v', (runLater es s).frames = new ++ s.frames ∧
      runLater es (showing s v fs) = showing (runLater es s) v' (new ++ fs) := by
  induction es generalizing s v fs with
  | nil => exact ⟨[], v, rfl, rfl⟩
  | cons e es ih =>
    obtain ⟨old, w, hframes, hstate⟩ := passGap_showing s.agenda s v fs
    obtain ⟨new, v', lframes, lstate⟩ := ih (s.instant.storeElem e) w (old ++ fs)
    have gap : (showing s v fs).instant = showing s.instant w (old ++ fs) := hstate
    refine ⟨new ++ old, v', ?_, ?_⟩
    · rw [runLater, lframes, List.append_assoc]
      exact congrArg (new ++ ·) hframes
    · rw [runLater, gap, List.append_assoc]
      exact lstate

theorem runStores_showing (es : List ElemStore) (s : State) (v : Memory) (fs : List Memory) :
    ∃ new v', (runStores es s).frames = new ++ s.frames ∧
      runStores es (showing s v fs) = showing (runStores es s) v' (new ++ fs) := by
  cases es with
  | nil => exact ⟨[], v, rfl, rfl⟩
  | cons e es => exact runLater_showing es (s.storeElem e) v fs

end Sys2Proof.Proofs
end

section
/-! The plan of a command: which element stores it makes and in which registers it ends is settled before the other agents
move, so one list of stores serves every agenda and every `VIS` (spec/20_memory.md R52, spec/10_state.md R30). -/

namespace Sys2Proof.Proofs

open Sys2Proof Sys2Proof.Machine

/-! ### Plans -/

/-- The state with another agenda, another `VIS` and another record of the display. -/
def under (s : State) (ag : List Move) (v : Memory) (fs : List Memory) : State :=
  { s with agenda := ag, vis := v, frames := fs }

/-- The stores `es` and the registers of `u` are what a command comes to from `s`, which makes `n` stores if it answers
`OK`, and none otherwise. -/
structure Plan (n : Nat) (s : State) (es : List ElemStore) (u : State) : Prop where
  mapped : ∀ e ∈ es, e.mapped = true
  ascending : es.Pairwise fun e f => e.addr + e.size ≤ f.addr
  mem : u.mem = s.mem
  answer : (es = [] ∧ u.rsp = s.rsp) ∨
    ∃ r : Response, u.rsp = r :: s.rsp ∧ (r.status = .ok → es.length = n) ∧ (r.status ≠ .ok → es = [])

/-- A meaning follows one plan under every agenda, `VIS` and record of the display. -/
def Planned (n : Nat) (f : State → Result) (s : State) : Prop :=
  ∃ es u, Plan n s es u ∧ ∀ ag v fs, f (under s ag v fs) = .next (runStores es (under u ag v fs))

section
variable {n : Nat} {f : State → Result} {s u : State} {ws : List Word}

/-- A meaning that always answers `OK` and stores nothing. -/
theorem planned_answer (hn : n = 0) (hmem : u.mem = s.mem) (hrsp : u.rsp = s.rsp)
    (hf : ∀ ag v fs, f (under s ag v fs) = .next ((under u ag v fs).respond .ok ws)) : Planned n f s :=
  ⟨[], u.respond .ok ws, ⟨by simp, .nil, hmem, .inr ⟨_, congrArg _ hrsp, fun _ => hn.symm, fun _ => rfl⟩⟩, hf⟩

/-- A meaning that answers another status and changes nothing else but `fault_code`. -/
theorem planned_refuse {st : Status} (hst : st ≠ .ok) {c : BitVec 4}
    (hf : ∀ ag v fs, f (under s ag v fs) = .next ({ under s ag v fs with faultCode := c }.respond st [])) :
    Planned n f s :=
  ⟨[], State.respond { s with faultCode := c } st [],
    { mapped := by simp, ascending := .nil, mem := rfl
      answer := .inr ⟨_, rfl, fun hok => absurd hok hst, fun _ => rfl⟩ }, hf⟩

theorem planned_fault (k : FaultKind) (hf : ∀ ag v fs, f (under s ag v fs) = .next (faulted k (under s ag v fs))) :
    Planned n f s :=
  planned_refuse (c := k.code) (status_ne_ok k) hf

/-- The response does not meet the stores. -/
theorem runStores_respond (es : List ElemStore) (s : State) (st : Status) (ws : List Word) :
    runStores es (s.respond st ws) = (runStores es s).respond st ws := by
  have gap (l : List Move) (s : State) : passGap l (s.respond st ws) = (passGap l s).respond st ws := by
    induction l generalizing s with
    | nil => rfl
    | cons m l ih =>
      cases m with
      | vblank => exact ih s.latch
      | keys k => exact ih { s with keyIn := k }
      | core | rst | rstDuring _ => rfl
  have later (es : List ElemStore) (s : State) : runLater es (s.respond st ws) = (runLater es s).respond st ws := by
    induction es generalizing s with
    | nil => rfl
    | cons e es ih =>
      have pass : (s.respond st ws).instant = s.instant.respond st ws := gap s.agenda s
      rw [runLater, pass]
      exact ih (s.instant.storeElem e)
  cases es with
  | nil => rfl
  | cons e es => exact later es (s.storeElem e)

/-- A meaning that makes its stores and answers `OK`. -/
theorem planned_stores {es : List ElemStore} (hmapped : ∀ e ∈ es, e.mapped = true)
    (hasc : es.Pairwise fun e f => e.addr + e.size ≤ f.addr) (hlen : es.length = n) (hmem : u.mem = s.mem)
    (hrsp : u.rsp = s.rsp)
    (hf : ∀ ag v fs, f (under s ag v fs) = .next ((runStores es (under u ag v fs)).respond .ok ws)) :
    Planned n f s := by
  refine ⟨es, u.respond .ok ws, ⟨hmapped, hasc, hmem,
    .inr ⟨_, congrArg _ hrsp, fun _ => hlen, fun h => absurd rfl h⟩⟩, fun ag v fs => ?_⟩
  rw [hf, ← runStores_respond]
  rfl

/-- A meaning that makes one store. -/
theorem planned_oneStore {e : ElemStore} (hmapped : e.mapped = true) (hn : n = 1) (hmem : u.mem = s.mem)
    (hrsp : u.rsp = s.rsp)
    (hf : ∀ ag v fs, f (under s ag v fs) = .next ((runStores [e] (under u ag v fs)).respond .ok ws)) :
    Planned n f s :=
  planned_stores (List.forall_mem_singleton.2 hmapped) (List.pairwise_singleton _ _) hn.symm hmem hrsp hf

end

/-! ### The plans of the commands with several outcomes -/

theorem not_exists_bad {px : List Byte} (hlegal : ¬∃ p ∈ px, 15 < p.toNat) : ∀ p ∈ px, p.toNat ≤ 15 := by
  intro p hp
  exact Nat.not_lt.1 fun hbad => hlegal ⟨p, hp, hbad⟩

/-- Another agenda or display record does not halt the CORE. -/
theorem under_live {s : State} (hlive : s.faultCode = 0) (ag : List Move) (v : Memory) (fs : List Memory) :
    (under s ag v fs).faultCode = 0 :=
  hlive

/-- The eight stores of a tile slot as a plan. -/
theorem planned_tile {s : State} {f : State → Result} {ws : List Word} (hlen : ws.length = 8) {t : Nat} (ht : t < 1024)
    (hf : ∀ ag v fs, f (under s ag v fs) =
      .next ((runStores (wordStores (elemAddr .objtile t) ws) (under s ag v fs)).respond .ok [])) : Planned 8 f s :=
  planned_stores (u := s) (wordStores_mapped ht hlen.le) (wordStores_ascending _ _)
    ((wordStores_length _ _).trans hlen) rfl rfl hf

/-- The stores of SPR.LOAD16 read the blob only. -/
theorem quadStores_under (s : State) (ag : List Move) (v : Memory) (fs : List Memory) (dst : Nat) (qs : List Nat) :
    quadStores (under s ag v fs) dst qs = quadStores s dst qs := by
  induction qs generalizing dst with
  | nil => rfl
  | cons q qs ih =>
    rw [quadStores, ih, quadStores]
    rfl

section
variable {s : State} (hlive : s.faultCode = 0)
include hlive

theorem planned_rgnAddr (r : Region) (i : Half) : Planned 0 (exec (.rgnAddr r i)) s := by
  rcases Nat.lt_or_ge i.toNat (regionCount r) with hi | hi
  · exact planned_answer (u := s) rfl rfl rfl fun _ _ _ => exec_rgnAddr_lt (under_live hlive ..) hi
  · exact planned_fault .outOfRange fun _ _ _ => exec_rgnAddr_ge (under_live hlive ..) hi

theorem planned_regRd {r : Region} (hr : r.readable = true) : Planned 0 (exec (.regRd r)) s := by
  cases r with
  | dispcnt =>
    exact planned_answer (u := s) (ws := [(s.mem.half (elemAddr .dispcnt 0)).setWidth 32]) rfl rfl rfl
      fun _ _ _ => exec_regRd_stored (under_live hlive ..) (.inl rfl)
  | keyinput =>
    exact planned_answer (u := { s with draws := s.draws + 1 }) (ws := [(keyinputValue s).setWidth 32]) rfl rfl rfl
      fun _ _ _ => exec_regRd_keyinput (under_live hlive ..)
  | backdrop =>
    exact planned_answer (u := s) (ws := [(s.mem.half (elemAddr .backdrop 0)).setWidth 32]) rfl rfl rfl
      fun _ _ _ => exec_regRd_stored (under_live hlive ..) (.inr rfl)
  | objpal | objtile | oam => cases hr

theorem planned_regWr {r : Region} (hr : r.writable = true) (val : Half) : Planned 1 (exec (.regWr r val)) s := by
  have register : r = .dispcnt ∨ r = .backdrop := by cases r <;> simp_all [Region.writable]
  exact planned_oneStore (u := s) (e := .half (elemAddr r 0) val) (halfMapped_register register) rfl rfl rfl
    fun _ _ _ => exec_regWr (under_live hlive ..) register val

theorem planned_pack8 {px : List Byte} (hlen : px.length = 8) : Planned 0 (exec (.pack8 px)) s := by
  by_cases hbad : ∃ p ∈ px, 15 < p.toNat
  · exact planned_fault .formatError fun _ _ _ => exec_pack8_bad (under_live hlive ..) hlen hbad
  · exact planned_answer (u := s) rfl rfl rfl fun _ _ _ => exec_pack8_legal (under_live hlive ..) hlen (not_exists_bad hbad)

theorem planned_tileWrpx (t : Half) {px : List Byte} (hlen : px.length = 64) :
    Planned 8 (exec (.tileWrpx t px)) s := by
  rcases Nat.lt_or_ge t.toNat 1024 with ht | ht
  · by_cases hbad : ∃ p ∈ px, 15 < p.toNat
    · exact planned_fault .formatError fun _ _ _ => exec_tileWrpx_bad (under_live hlive ..) hlen ht hbad
    · exact planned_tile (packTile_length px) ht
        fun _ _ _ => exec_tileWrpx_lt (under_live hlive ..) hlen ht (not_exists_bad hbad)
  · exact planned_fault .outOfRange fun _ _ _ => exec_tileWrpx_ge (under_live hlive ..) hlen ht

theorem planned_tileRdpx (t : Half) : Planned 0 (exec (.tileRdpx t)) s := by
  rcases Nat.lt_or_ge t.toNat 1024 with ht | ht
  · exact planned_answer (u := s) (ws := wordsOfBytes (unpackTile (tileRows s t.toNat))) rfl rfl rfl
      fun _ _ _ => exec_tileRdpx_lt (under_live hlive ..) ht
  · exact planned_fault .outOfRange fun _ _ _ => exec_tileRdpx_ge (under_live hlive ..) ht

theorem planned_tileWrw (t : Half) {ws : List Word} (hlen : ws.length = 8) : Planned 8 (exec (.tileWrw t ws)) s := by
  rcases Nat.lt_or_ge t.toNat 1024 with ht | ht
  · exact planned_tile hlen ht fun _ _ _ => exec_tileWrw_lt (under_live hlive ..) hlen ht
  · exact planned_fault .outOfRange fun _ _ _ => exec_tileWrw_ge (under_live hlive ..) hlen ht

theorem planned_tileRdw (t : Half) : Planned 0 (exec (.tileRdw t)) s := by
  rcases Nat.lt_or_ge t.toNat 1024 with ht | ht
  · exact planned_answer (u := s) (ws := tileRows s t.toNat) rfl rfl rfl
      fun _ _ _ => exec_tileRdw_lt (under_live hlive ..) ht
  · exact planned_fault .outOfRange fun _ _ _ => exec_tileRdw_ge (under_live hlive ..) ht

theorem planned_mapPx (wt x y : Half) : Planned 0 (exec (.mapPx wt x y)) s := by
  by_cases hwt : wt = 0
  · exact planned_fault .formatError fun _ _ _ => exec_mapPx_noWidth (under_live hlive ..) hwt
  · rcases Nat.lt_or_ge x.toNat (8 * wt.toNat) with hx | hx
    · exact planned_answer (u := s) rfl rfl rfl fun _ _ _ => exec_mapPx_inside (under_live hlive ..) hwt hx
    · exact planned_fault .outOfRange fun _ _ _ => exec_mapPx_outside (under_live hlive ..) hwt hx

theorem planned_mapQuad (wt k : Half) : Planned 0 (exec (.mapQuad wt k)) s := by
  by_cases hwt : wt = 0 ∨ wt.toNat % 2 = 1
  · exact planned_fault .formatError fun _ _ _ => exec_mapQuad_undefined (under_live hlive ..) hwt
  · obtain ⟨hne, hodd⟩ := not_or.1 hwt
    exact planned_answer (u := s) rfl rfl rfl fun _ _ _ => exec_mapQuad_even (under_live hlive ..) hne (by omega)

/-- CMP.BITMAP along its checks (R146). -/
theorem planned_cmpBitmap (pl : List Word) : Planned 0 (exec (.cmpBitmap pl)) s := by
  cases pl with
  | nil => exact planned_fault .illegalCommand fun _ _ _ => exec_cmpBitmap_nil (under_live hlive ..)
  | cons dims px =>
    rw [← pairWord_halves dims]
    by_cases hblob : s.blob = []
    swap
    · exact planned_fault .blobLocked fun _ _ _ => exec_cmpBitmap_locked (under_live hlive ..) hblob
    by_cases hdims : BadDimensions (lowHalf dims) (highHalf dims)
    · exact planned_fault .formatError fun _ _ _ => exec_cmpBitmap_badDimensions (under_live hlive ..) hblob hdims
    rcases Nat.lt_or_ge s.params.blobMaxWords ((lowHalf dims).toNat * (highHalf dims).toNat / 8) with hcap | hcap
    · exact planned_fault .outOfRange fun _ _ _ => exec_cmpBitmap_tooLarge (under_live hlive ..) hblob hdims hcap
    by_cases hlen : px.length = (lowHalf dims).toNat * (highHalf dims).toNat
    swap
    · exact planned_fault .illegalCommand
        fun _ _ _ => exec_cmpBitmap_wrongLength (under_live hlive ..) hblob hdims hcap hlen
    by_cases hbad : ∃ w ∈ px, 15 < (channelOf s.params.indexChannel w).toNat
    · exact planned_fault .formatError
        fun _ _ _ => exec_cmpBitmap_badPixel (under_live hlive ..) hblob hdims hcap hlen hbad
    · exact planned_answer
        (u := { s with blob := compiledBlob s.params.indexChannel (lowHalf dims) (highHalf dims) px
                       sheetWt := lowHalf dims / 8, sheetHt := highHalf dims / 8 })
        (ws := compiledBlob s.params.indexChannel (lowHalf dims) (highHalf dims) px) rfl rfl rfl
        fun _ _ _ => exec_cmpBitmap_compiled (under_live hlive ..) hblob hdims hcap hlen hbad

theorem planned_blobRd (j : Word) : Planned 0 (exec (.blobRd j)) s := by
  rcases Nat.lt_or_ge j.toNat s.blobLen with hj | hj
  · exact planned_answer (u := s) (ws := [s.blob.getD j.toNat 0]) rfl rfl rfl
      fun _ _ _ => exec_blobRd_lt (under_live hlive ..) hj
  · exact planned_fault .outOfRange fun _ _ _ => exec_blobRd_ge (under_live hlive ..) hj

theorem planned_tileLdb (dst : Half) (src : Word) : Planned 8 (exec (.tileLdb dst src)) s := by
  rcases Nat.lt_or_ge src.toNat (s.blobLen / 8) with hsrc | hsrc
  · rcases Nat.lt_or_ge dst.toNat 1024 with hdst | hdst
    · exact planned_tile (blobTile_length hsrc) hdst fun _ _ _ => exec_tileLdb_lt (under_live hlive ..) hsrc hdst
    · exact planned_fault .outOfRange fun _ _ _ => exec_tileLdb_dst_ge (under_live hlive ..) hsrc hdst
  · exact planned_fault .outOfRange fun _ _ _ => exec_tileLdb_src_ge (under_live hlive ..) hsrc

/-- SPR.LOAD16 along its checks (R149). -/
theorem planned_sprLoad16 (dst k : Half) : Planned 32 (exec (.sprLoad16 dst k)) s := by
  by_cases hblob : s.blob = []
  · exact planned_fault .outOfRange fun _ _ _ => exec_sprLoad16_noBlob (under_live hlive ..) hblob
  rcases Nat.mod_two_eq_zero_or_one s.sheetWt.toNat with heven | hodd
  · by_cases hout : s.blobLen / 8 ≤ quadTopLeft s.sheetWt.toNat k.toNat + s.sheetWt.toNat + 1 ∨ 1024 ≤ dst.toNat + 3
    · exact planned_fault .outOfRange fun _ _ _ => exec_sprLoad16_outside (under_live hlive ..) hblob heven hout
    · obtain ⟨hquad, hdst⟩ := not_or.1 hout
      have inBlob : ∀ q ∈ quadTiles s.sheetWt.toNat k.toNat, q < s.blobLen / 8 :=
        fun q hq => (mem_quadTiles_le hq).trans_lt (Nat.not_le.1 hquad)
      refine planned_stores (u := s) (es := quadStores s dst.toNat (quadTiles s.sheetWt.toNat k.toNat)) (ws := [])
        (quadStores_mapped ?_) (quadStores_ascending _ _ _) (quadStores_length inBlob) rfl rfl fun ag v fs => ?_
      · simp only [quadTiles, List.length_cons, List.length_nil]
        omega
      · have inside := exec_sprLoad16_inside (s := under s ag v fs) hlive hblob heven (Nat.not_le.1 hquad)
          (Nat.not_le.1 hdst)
        rwa [quadStores_under s] at inside
  · exact planned_fault .formatError fun _ _ _ => exec_sprLoad16_odd (under_live hlive ..) hblob hodd

theorem planned_building {n : Nat} (hn : n = 0) {f : State → Result} (d : Desc)
    (hf : ∀ ag v fs, f (under s ag v fs) = building (under s ag v fs) d) : Planned n f s :=
  planned_answer (u := { s with desc := d }) hn rfl rfl fun ag v fs =>
    (hf ag v fs).trans (building_live (under_live hlive ..) d)

theorem planned_oamAlloc : Planned 1 (exec .oamAlloc) s := by
  rcases Nat.lt_or_ge s.allocCtr.toNat 128 with hfree | hfull
  · exact planned_oneStore (u := { s with allocCtr := s.allocCtr + 1 }) (ws := [s.allocCtr.setWidth 32])
      (e := .desc (elemAddr .oam s.allocCtr.toNat) s.desc) (descMapped_slot hfree) rfl rfl rfl
      fun _ _ _ => exec_oamAlloc_lt (under_live hlive ..) hfree
  · exact planned_fault .outOfRange fun _ _ _ => exec_oamAlloc_ge (under_live hlive ..) hfull

theorem planned_oamWr (slot : Half) : Planned 1 (exec (.oamWr slot)) s := by
  rcases Nat.lt_or_ge slot.toNat 128 with hslot | hslot
  · exact planned_oneStore (u := s) (e := .desc (elemAddr .oam slot.toNat) s.desc) (descMapped_slot hslot) rfl rfl rfl
      fun _ _ _ => exec_oamWr_lt (under_live hlive ..) hslot
  · exact planned_fault .outOfRange fun _ _ _ => exec_oamWr_ge (under_live hlive ..) hslot

theorem planned_oamRd (slot : Half) : Planned 0 (exec (.oamRd slot)) s := by
  rcases Nat.lt_or_ge slot.toNat 128 with hslot | hslot
  · exact planned_answer (u := s) (ws := descPair (s.oam slot.toNat)) rfl rfl rfl
      fun _ _ _ => exec_oamRd_lt (under_live hlive ..) hslot
  · exact planned_fault .outOfRange fun _ _ _ => exec_oamRd_ge (under_live hlive ..) hslot

theorem planned_frameBegin : Planned (storeCount s.params.clearPolicy .frameBegin) (exec .frameBegin) s := by
  cases hpolicy : s.params.clearPolicy with
  | everyFrame =>
    exact planned_stores (u := { s with allocCtr := 0 }) clearStores_mapped (zeroSlots_ascending _ _)
      clearStores_length rfl rfl fun _ _ _ => exec_frameBegin_everyFrame (under_live hlive ..) hpolicy
  | explicitOnly =>
    exact planned_answer (u := { s with allocCtr := 0 }) rfl rfl rfl
      fun _ _ _ => exec_frameBegin_explicitOnly (under_live hlive ..) hpolicy

/-- VBL.WAIT stores nothing and answers later. -/
theorem planned_vblWait : Planned 0 (exec .vblWait) s :=
  ⟨[], { s with waiting := true }, ⟨by simp, .nil, rfl, .inl ⟨rfl, rfl⟩⟩,
    fun _ _ _ => unlessHalted_live (under_live hlive ..) _⟩

end

/-! ### Every instruction -/

/-- Every instruction follows one plan under every agenda: instruction by instruction, an ill-formed term and a halted
CORE first. -/
theorem exec_planned (i : Instr) (s : State) : Planned (storeCount s.params.clearPolicy i) (exec i) s := by
  by_cases hnop : i = .nop
  · subst hnop
    exact planned_answer (u := s) rfl rfl rfl fun _ _ _ => exec_nop _
  by_cases hstat : i = .statRd
  · subst hstat
    exact planned_answer (u := s) (ws := [statusWord s, pairWord s.sheetHt s.sheetWt, BitVec.ofNat 32 s.blobLen])
      rfl rfl rfl fun _ _ _ => exec_statRd _
  by_cases hlive : s.faultCode = 0
  swap
  · exact planned_refuse (st := .halted) (c := s.faultCode) (by decide) fun _ _ _ =>
      exec_halted (s := under s _ _ _) hlive hnop hstat
  by_cases hwf : i.wf = true
  swap
  · exact planned_fault .illegalCommand fun _ _ _ => exec_illFormed (Bool.eq_false_iff.2 hwf) hlive
  cases i with
  | nop => exact absurd rfl hnop
  | statRd => exact absurd rfl hstat
  | vblWait => exact planned_vblWait hlive
  | rgnAddr r i => exact planned_rgnAddr hlive r i
  | regRd r => exact planned_regRd hlive hwf
  | regWr r val => exact planned_regWr hlive hwf val
  | palRd i =>
    exact planned_answer (u := s) (ws := [(s.pal i.toNat).setWidth 32]) rfl rfl rfl
      fun _ _ _ => exec_palRd (under_live hlive ..) i
  | palWr i c =>
    exact planned_oneStore (u := s) (e := .half (elemAddr .objpal i.toNat) c) (halfMapped_palette i.isLt) rfl rfl rfl
      fun _ _ _ => exec_palWr (under_live hlive ..) i c
  | pack8 px => exact planned_pack8 hlive (beq_iff_eq.1 hwf)
  | unpack8 w => exact planned_answer (u := s) rfl rfl rfl fun _ _ _ => exec_unpack8 (under_live hlive ..) w
  | tileWrpx t px => exact planned_tileWrpx hlive t (beq_iff_eq.1 hwf)
  | tileRdpx t => exact planned_tileRdpx hlive t
  | tileWrw t ws => exact planned_tileWrw hlive t (beq_iff_eq.1 hwf)
  | tileRdw t => exact planned_tileRdw hlive t
  | mapPx wt x y => exact planned_mapPx hlive wt x y
  | mapQuad wt k => exact planned_mapQuad hlive wt k
  | cmpBitmap pl => exact planned_cmpBitmap hlive pl
  | blobRd j => exact planned_blobRd hlive j
  | tileLdb dst src => exact planned_tileLdb hlive dst src
  | sprLoad16 dst k => exact planned_sprLoad16 hlive dst k
  | descNew => exact planned_building hlive rfl zeroDesc fun _ _ _ => rfl
  | descSize shape size => exact planned_building hlive rfl (s.desc.withSize shape size) fun _ _ _ => rfl
  | descTile tile => exact planned_building hlive rfl (s.desc.withTile tile) fun _ _ _ => rfl
  | descPal palette => exact planned_building hlive rfl (s.desc.withPalette palette) fun _ _ _ => rfl
  | descX x => exact planned_building hlive rfl (s.desc.withX x) fun _ _ _ => rfl
  | descY y => exact planned_building hlive rfl (s.desc.withY y) fun _ _ _ => rfl
  | descRd =>
    exact planned_answer (u := s) (ws := descPair s.desc) rfl rfl rfl
      fun _ _ _ => exec_descRd (under_live hlive ..)
  | descDec w0 w1 w2 => exact planned_answer (u := s) rfl rfl rfl fun _ _ _ => exec_descDec (under_live hlive ..) w0 w1 w2
  | oamAlloc => exact planned_oamAlloc hlive
  | oamWr slot => exact planned_oamWr hlive slot
  | oamRd slot => exact planned_oamRd hlive slot
  | oamClear =>
    exact planned_stores (u := s) clearStores_mapped (zeroSlots_ascending _ _) clearStores_length rfl rfl
      fun _ _ _ => exec_oamClear (under_live hlive ..)
  | frameBegin => exact planned_frameBegin hlive

end Sys2Proof.Proofs
end

section
/-! Events inside commands (spec/20_memory.md R52, spec/10_state.md R30): what an event shows of a command's stores, and
that no command reads `VIS`. -/

namespace Sys2Proof.Proofs

open Sys2Proof Sys2Proof.Machine

/-- From every state every instruction answers a next state. -/
theorem exists_exec_next (i : Instr) (s : State) : ∃ t, exec i s = .next t := by
  obtain ⟨es, u, -, hrun⟩ := exec_planned i s
  exact ⟨_, hrun s.agenda s.vis s.frames⟩

/-- The plan's run from the state itself. -/
theorem eq_of_planned {i : Instr} {s t u : State} {es : List ElemStore}
    (hrun : ∀ ag v fs, exec i (under s ag v fs) = .next (runStores es (under u ag v fs)))
    (hexec : exec i s = .next t) : t = runStores es (under u s.agenda s.vis s.frames) :=
  Host.Outcome.next.inj (hexec.symm.trans (hrun s.agenda s.vis s.frames))

/-- A response on top of the old ones is the one the plan gives, so its status tells the number of stores. -/
theorem Plan.length_eq {n : Nat} {s u : State} {es : List ElemStore} (h : Plan n s es u) {ws : List Word}
    (hrsp : u.rsp = { status := .ok, words := ws } :: s.rsp) : es.length = n := by
  obtain ⟨-, hnone⟩ | ⟨r, hr, hok, -⟩ := h.answer
  · exact absurd (hrsp.symm.trans hnone) (List.cons_ne_self _ _)
  · obtain ⟨rfl, -⟩ := List.cons.inj (hr.symm.trans hrsp)
    exact hok rfl

theorem Plan.stores_nil {n : Nat} {s u : State} {es : List ElemStore} (h : Plan n s es u) {r : Response}
    (hrsp : u.rsp = r :: s.rsp) (hst : r.status ≠ .ok) : es = [] := by
  obtain ⟨hnil, -⟩ | ⟨r', hr, -, hnone⟩ := h.answer
  · exact hnil
  · obtain ⟨rfl, -⟩ := List.cons.inj (hr.symm.trans hrsp)
    exact hnone hst

/-- Settles O17, by the plan: its stores are the same under the command's own agenda and under the agendas of the
statement. -/
theorem eventSeesAPrefixOfTheStores : Obligations.EventSeesAPrefixOfTheStores := by
  intro i s t hexec
  obtain ⟨es, u, plan, hrun⟩ := exec_planned i s
  obtain rfl := eq_of_planned hrun hexec
  refine ⟨fun ws hrsp => ?_, fun k ws hrsp => ?_⟩
  · rw [runStores_rsp] at hrsp
    refine ⟨es, plan.length_eq hrsp, plan.ascending, ?_, fun k rest hk hrest => ?_, fun gaps rest hlen => ?_⟩
    · rw [runStores_mem]
      exact congrArg (Memory.storeAll · es) plan.mem
    · obtain ⟨hvis, hframes⟩ := runStores_oneEvent
        (s := under u (List.replicate k .core ++ .vblank :: rest) s.vis s.frames) rfl hk hrest
      refine ⟨_, hrun _ s.vis s.frames, ?_, ?_, ?_, ?_⟩
      · rw [hvis, ← plan.mem]
        rfl
      · rw [hframes, hvis]
        rfl
      · simp only [runStores_mem, under]
      · simp only [runStores_rsp, under]
    · obtain ⟨hframes, hagenda⟩ := runStores_gaps (s := under u (gapAgenda gaps rest) s.vis s.frames) rfl hlen
      refine ⟨_, hrun _ s.vis s.frames, ?_, hagenda, ?_, ?_⟩
      · rw [← plan.mem]
        exact hframes
      · simp only [runStores_mem, under]
      · simp only [runStores_rsp, under]
  · rw [runStores_rsp] at hrsp
    rw [plan.stores_nil hrsp (status_ne_ok k)]
    exact ⟨plan.mem, rfl, rfl⟩

/-- Settles O18, by the plan: the same stores run beside another `VIS`, and `runStores_showing`. -/
theorem commandsDoNotReadVis : Obligations.CommandsDoNotReadVis := by
  intro i s t v fs hexec
  obtain ⟨es, u, -, hrun⟩ := exec_planned i s
  obtain rfl := eq_of_planned hrun hexec
  obtain ⟨new, v', hframes, hstate⟩ := runStores_showing es (under u s.agenda s.vis s.frames) v fs
  refine ⟨_, new, hrun s.agenda v fs, hframes, ?_, ?_⟩
  · exact congrArg State.frames hstate
  · exact congrArg (fun t' : State => { t' with
      vis := (runStores es (under u s.agenda s.vis s.frames)).vis
      frames := (runStores es (under u s.agenda s.vis s.frames)).frames }) hstate

/-- Settles O16, by the prefix of the stores that the event latches: the first rows of the tile, the first slots of the
table. -/
theorem eventInsideACommandSeesAPrefix : Obligations.EventInsideACommandSeesAPrefix := by
  refine ⟨fun s t ws k rest hlive ht hlen hk hagenda hrest => ?_, fun s k rest hlive hk hagenda hrest => ?_⟩
  · obtain ⟨hvis, hframes⟩ := runStores_oneEvent (es := wordStores (elemAddr .objtile t.toNat) ws) hagenda
      (by rw [wordStores_length]; omega) hrest
    refine ⟨_, exec_tileWrw_lt hlive hlen ht, by rw [State.respond_frames, State.respond_vis, hframes, hvis],
      fun r hr => ⟨?_, ?_⟩⟩
    · rw [State.respond_vis, hvis, word_storeAll_firstRows s.mem _ (hlen ▸ hr), State.tilew]
    · exact tilew_stored (hlen ▸ hr)
  · obtain ⟨hvis, hframes⟩ := runStores_oneEvent (es := clearStores) hagenda
      (by rw [clearStores_length]; omega) hrest
    refine ⟨_, exec_oamClear hlive, by rw [State.respond_frames, State.respond_vis, hframes, hvis],
      fun i hi => ?_⟩
    have slots : 0 ≤ i ∧ i < 0 + (k + 1) ↔ i ≤ k := by omega
    rw [State.respond_vis, hvis, clearStores, take_zeroSlots 0 (by simp only [regionCount]; omega),
      descAt_storeAll_zeroSlots, State.oam]
    simp only [slots]

end Sys2Proof.Proofs
end

section
/-! What a step can do, said once (spec/60_exceptions.md R213, R233; spec/70_reset_and_hazards.md R240, R241): a command as
it is run, the command a reset cuts short, and the cases of a step. -/

namespace Sys2Proof.Proofs

open Sys2Proof Sys2Proof.Machine

/-! ### Running a command -/

/-- A command is its instruction's meaning, or it is turned away with nothing but a response and perhaps a fault. -/
theorem runCommand_next {c : Command} {s t : State} (hrun : runCommand c s = .next t) :
    (∃ i, decode c = .ok i ∧ exec i s = .next t) ∨ (s.faultCode ≠ 0 ∧ t = s.respond .halted []) ∨
      (s.faultCode = 0 ∧ t = s.raise .illegalCommand) := by
  unfold runCommand at hrun
  split at hrun
  next i hdec => exact .inl ⟨i, hdec, hrun⟩
  next =>
    refine .inr ((unlessHalted_next hrun).imp_right fun ⟨hlive, hraise⟩ => ⟨hlive, ?_⟩)
    exact (Host.Outcome.next.inj hraise).symm

theorem exists_runCommand_next (c : Command) (s : State) : ∃ t, runCommand c s = .next t := by
  unfold runCommand
  split
  next i _ => exact exists_exec_next i s
  next =>
    by_cases hlive : s.faultCode = 0
    · exact ⟨_, unlessHalted_live hlive _⟩
    · exact ⟨_, unlessHalted_halted hlive _⟩

theorem runCommand_of_decode {c : Command} {i : Instr} (hdec : decode c = .ok i) (s : State) :
    runCommand c s = exec i s := by
  rw [runCommand, hdec]

/-- A halted CORE gives a response and does nothing else (R213). -/
theorem runCommand_halted {c : Command} {s t : State} (hhalted : s.faultCode ≠ 0) (hrun : runCommand c s = .next t) :
    ∃ r, t = { s with rsp := r :: s.rsp } := by
  obtain ⟨i, -, hexec⟩ | ⟨-, rfl⟩ | ⟨hlive, -⟩ := runCommand_next hrun
  · by_cases hnop : i = .nop
    · subst hnop
      exact ⟨_, Host.Outcome.next.inj (hexec.symm.trans (exec_nop s))⟩
    by_cases hstat : i = .statRd
    · subst hstat
      exact ⟨_, Host.Outcome.next.inj (hexec.symm.trans (exec_statRd s))⟩
    exact ⟨_, Host.Outcome.next.inj (hexec.symm.trans (exec_halted hhalted hnop hstat))⟩
  · exact ⟨_, rfl⟩
  · exact absurd hlive hhalted

/-! ### A reset inside a command -/

theorem takeCommand_cons {s : State} {c : Command} {rest : List Command} (hcmds : s.cmds = c :: rest) :
    s.takeCommand = some (c, { s with cmds := rest }) := by
  rw [State.takeCommand, hcmds]

theorem takeCommand_nil {s : State} (hcmds : s.cmds = []) : s.takeCommand = none := by
  rw [State.takeCommand, hcmds]

theorem coreTurn_idle {s : State} (hcmds : s.cmds = []) : coreTurn s = .next s := by
  rw [coreTurn, takeCommand_nil hcmds]

theorem coreTurn_command {s : State} {c : Command} {rest : List Command} (hcmds : s.cmds = c :: rest) :
    coreTurn s = runCommand c { s with cmds := rest } := by
  rw [coreTurn, takeCommand_cons hcmds]

/-- While the host is idle the beats pass and the reset follows (log 6). -/
theorem cutCommand_idle {s : State} (hcmds : s.cmds = []) (beats : List Beat) :
    cutCommand beats s = .next (s.abandon { s with agenda := beats.map Beat.move }) := by
  rw [cutCommand, takeCommand_nil hcmds]

/-- The command runs under the beats and is abandoned. -/
theorem cutCommand_of_run {s u : State} {c : Command} {rest : List Command} {beats : List Beat}
    (hcmds : s.cmds = c :: rest)
    (hrun : runCommand c { s with cmds := rest, agenda := beats.map Beat.move } = .next u) :
    cutCommand beats s = .next (State.abandon { s with cmds := rest } u) := by
  rw [cutCommand, takeCommand_cons hcmds]
  simp only [hrun]

/-! ### A step, by the next entry of the agenda -/

section
variable {s : State} {ag : List Move}

theorem step_vblank (hagenda : s.agenda = .vblank :: ag) :
    step s = .next (State.vblankEvent { s with agenda := ag }) := by
  simp only [step, State.turn, hagenda]

theorem step_keys {k : BitVec 10} (hagenda : s.agenda = .keys k :: ag) :
    step s = .next { s with agenda := ag, keyIn := k } := by
  simp only [step, State.turn, hagenda]

theorem step_rst (hagenda : s.agenda = .rst :: ag) : step s = .next (State.rst { s with agenda := ag }) := by
  simp only [step, State.turn, hagenda]

theorem step_rstDuring_waiting {beats : List Beat} (hagenda : s.agenda = .rstDuring beats :: ag)
    (hwait : s.waiting = true) : step s = .next (State.rst { s with agenda := ag }) := by
  simp only [step, State.turn, hagenda, hwait, if_true]

theorem step_rstDuring {beats : List Beat} (hagenda : s.agenda = .rstDuring beats :: ag) (hwait : s.waiting = false) :
    step s = cutCommand beats { s with agenda := ag } := by
  simp only [step, State.turn, hagenda, hwait, Bool.false_eq_true, if_false]

theorem step_core_waiting (hagenda : s.agenda = .core :: ag) (hwait : s.waiting = true) :
    step s = .next { s with agenda := ag } := by
  simp only [step, State.turn, hagenda, hwait, if_true]

theorem step_core (hagenda : s.agenda = .core :: ag) (hwait : s.waiting = false) :
    step s = coreTurn { s with agenda := ag } := by
  simp only [step, State.turn, hagenda, hwait, Bool.false_eq_true, if_false]

theorem step_nil_waiting (hagenda : s.agenda = []) (hwait : s.waiting = true) : step s = .next s.vblankEvent := by
  simp only [step, State.turn, hagenda, hwait, if_true]

theorem step_nil (hagenda : s.agenda = []) (hwait : s.waiting = false) : step s = coreTurn s := by
  simp only [step, State.turn, hagenda, hwait, Bool.false_eq_true, if_false]

end

/-! ### The cases of a step -/

/-- The next states of a step, by the agent that moves. -/
inductive Stepped (s : State) : State → Prop where
  /-- The display-timing agent. -/
  | event (ag : List Move) (hagenda : s.agenda = .vblank :: ag) : Stepped s (State.vblankEvent { s with agenda := ag })
  /-- The event after the agenda's end that releases a wait (log 7). -/
  | release (hagenda : s.agenda = []) (hwait : s.waiting = true) : Stepped s s.vblankEvent
  /-- The keypad. -/
  | keys (k : BitVec 10) (ag : List Move) (hagenda : s.agenda = .keys k :: ag) :
      Stepped s { s with agenda := ag, keyIn := k }
  /-- A reset between commands or during a wait. -/
  | reset (ag : List Move)
      (hagenda : s.agenda = .rst :: ag ∨ (s.waiting = true ∧ ∃ beats, s.agenda = .rstDuring beats :: ag)) :
      Stepped s (State.rst { s with agenda := ag })
  /-- A reset inside a command, or after its beats while the host is idle: `u` is what the beats had come to. -/
  | cut (beats : List Beat) (ag : List Move) (cmds : List Command) (u : State)
      (hagenda : s.agenda = .rstDuring beats :: ag) (hwait : s.waiting = false)
      (hu : (s.cmds = [] ∧ cmds = [] ∧ u = { s with agenda := beats.map Beat.move }) ∨
        ∃ c, s.cmds = c :: cmds ∧ runCommand c { s with cmds := cmds, agenda := beats.map Beat.move } = .next u) :
      Stepped s (State.abandon { s with agenda := ag, cmds := cmds } u)
  /-- One more instant of a wait, or of an idle host. -/
  | instant (ag : List Move) (hagenda : s.agenda = .core :: ag ∨ (s.agenda = [] ∧ ag = []))
      (hidle : s.waiting = true ∨ s.cmds = []) : Stepped s { s with agenda := ag }
  /-- The CORE runs the host's next command. -/
  | command (c : Command) (rest : List Command) (ag : List Move) (t : State) (hcmds : s.cmds = c :: rest)
      (hwait : s.waiting = false) (hagenda : s.agenda = .core :: ag ∨ (s.agenda = [] ∧ ag = []))
      (hrun : runCommand c { s with cmds := rest, agenda := ag } = .next t) : Stepped s t

section
variable {s t : State} {ag : List Move}

/-- The CORE's turn, its own entry taken off the agenda. -/
theorem stepped_coreTurn (hwait : s.waiting = false) (hagenda : s.agenda = .core :: ag ∨ (s.agenda = [] ∧ ag = []))
    (hturn : coreTurn { s with agenda := ag } = .next t) : Stepped s t := by
  cases hcmds : s.cmds with
  | nil =>
    rw [coreTurn_idle (s := { s with agenda := ag }) hcmds] at hturn
    exact Host.Outcome.next.inj hturn ▸ .instant ag hagenda (.inr hcmds)
  | cons c rest =>
    rw [coreTurn_command (s := { s with agenda := ag }) hcmds] at hturn
    exact .command c rest ag t hcmds hwait hagenda hturn

/-- A step at a reset inside a command. -/
theorem stepped_cutCommand {beats : List Beat} (hwait : s.waiting = false) (hagenda : s.agenda = .rstDuring beats :: ag)
    (hcut : cutCommand beats { s with agenda := ag } = .next t) : Stepped s t := by
  cases hcmds : s.cmds with
  | nil =>
    rw [cutCommand_idle (s := { s with agenda := ag }) hcmds] at hcut
    have cut := Stepped.cut beats ag s.cmds _ hagenda hwait (.inl ⟨hcmds, hcmds, rfl⟩)
    exact Host.Outcome.next.inj hcut ▸ cut
  | cons c rest =>
    obtain ⟨u, hrun⟩ := exists_runCommand_next c { s with cmds := rest, agenda := beats.map Beat.move }
    rw [cutCommand_of_run (s := { s with agenda := ag }) hcmds hrun] at hcut
    exact Host.Outcome.next.inj hcut ▸ .cut beats ag rest u hagenda hwait (.inr ⟨c, hcmds, hrun⟩)

/-- Everything a step can do. -/
theorem step_cases (hstep : step s = .next t) : Stepped s t := by
  have moved {u : State} (hu : step s = .next u) : u = t := Host.Outcome.next.inj (hu.symm.trans hstep)
  cases hagenda : s.agenda with
  | nil =>
    cases hwait : s.waiting with
    | true => exact moved (step_nil_waiting hagenda hwait) ▸ .release hagenda hwait
    | false =>
      refine stepped_coreTurn hwait (.inr ⟨hagenda, rfl⟩) ?_
      rw [← hstep, step_nil hagenda hwait, ← hagenda]
  | cons m ag =>
    cases m with
    | vblank => exact moved (step_vblank hagenda) ▸ .event ag hagenda
    | keys k => exact moved (step_keys hagenda) ▸ .keys k ag hagenda
    | rst => exact moved (step_rst hagenda) ▸ .reset ag (.inl hagenda)
    | rstDuring beats =>
      cases hwait : s.waiting with
      | true =>
        exact moved (step_rstDuring_waiting hagenda hwait) ▸ .reset ag (.inr ⟨hwait, beats, hagenda⟩)
      | false => exact stepped_cutCommand hwait hagenda ((step_rstDuring hagenda hwait).symm.trans hstep)
    | core =>
      cases hwait : s.waiting with
      | true => exact moved (step_core_waiting hagenda hwait) ▸ .instant ag (.inl hagenda) (.inl hwait)
      | false => exact stepped_coreTurn hwait (.inl hagenda) ((step_core hagenda hwait).symm.trans hstep)

end

end Sys2Proof.Proofs
end

section
/-! The invariant of the machine (spec/10_state.md R20 to R23, spec/60_exceptions.md R235): the state after reset meets it,
and every step keeps it and the model arguments. -/

namespace Sys2Proof.Proofs

open Sys2Proof Sys2Proof.Machine

/-! ### Totality -/

/-- Settles O6: every instruction has a plan, and a step ends in one of them or in a move of another agent. -/
theorem nothingEverStopsTheMachine : Obligations.NothingEverStopsTheMachine := by
  have turn (s : State) : ∃ t, coreTurn s = .next t := by
    cases hcmds : s.cmds with
    | nil => exact ⟨_, coreTurn_idle hcmds⟩
    | cons c rest =>
      rw [coreTurn_command hcmds]
      exact exists_runCommand_next c _
  have cut (beats : List Beat) (s : State) : ∃ t, cutCommand beats s = .next t := by
    cases hcmds : s.cmds with
    | nil => exact ⟨_, cutCommand_idle hcmds beats⟩
    | cons c rest =>
      obtain ⟨u, hrun⟩ := exists_runCommand_next c { s with cmds := rest, agenda := beats.map Beat.move }
      exact ⟨_, cutCommand_of_run hcmds hrun⟩
  refine ⟨exists_exec_next, fun s => ?_⟩
  unfold step
  split
  next t _ => exact ⟨t, rfl⟩
  next t _ => exact turn t
  next beats t _ => exact cut beats t

/-! ### The state after reset -/

/-- A memory with nothing written is in canonical form. -/
theorem wf_unwritten (draw : Nat) : Memory.wf { draw := draw, cells := [] } :=
  ⟨.nil, by simp⟩

/-- Settles O8: every register zero, no byte written, nothing handed to the display. -/
theorem resetSatisfiesTheInvariant : Obligations.ResetSatisfiesTheInvariant where
  mem_wf := wf_unwritten 0
  vis_wf := wf_unwritten 1
  frames_wf := by simp [State.reset]
  mem_drawn := by decide
  vis_drawn := by decide
  alloc_le := by decide
  fault_le := by decide
  desc_spare := by decide
  blob_sheet := by decide
  blob_fits := Nat.zero_le _
  no_sheet _ := ⟨rfl, rfl⟩
  wait_live := by simp [State.reset]

/-- A reset meets the invariant wherever it comes from, as long as what the display was handed is in canonical form. -/
theorem inv_rst {s : State} (hframes : ∀ m ∈ s.frames, m.wf) : s.rst.Inv where
  mem_wf := wf_unwritten s.draws
  vis_wf := wf_unwritten (s.draws + 1)
  frames_wf := hframes
  mem_drawn := by simp
  vis_drawn := by simp
  alloc_le := Nat.zero_le _
  fault_le := Nat.zero_le _
  desc_spare := (by decide : zeroDesc.spareZero = true)
  blob_sheet := rfl
  blob_fits := Nat.zero_le _
  no_sheet _ := ⟨rfl, rfl⟩
  wait_live h := by cases h

/-! ### The commands -/

theorem fault_code_le (k : FaultKind) : k.code.toNat ≤ 4 := by cases k <;> decide

section
variable {s : State} (hinv : s.Inv)
include hinv

theorem inv_respond (st : Status) (ws : List Word) : (s.respond st ws).Inv := { hinv with }

/-- A fault is taken while no wait is pending. -/
theorem inv_raise (hwait : s.waiting = false) (k : FaultKind) : (s.raise k).Inv :=
  { hinv with
    fault_le := by
      rw [State.raise_faultCode, stickyCode]
      split
      · exact fault_code_le k
      · exact hinv.fault_le
    wait_live := fun h => by
      rw [State.raise_waiting, hwait] at h
      cases h }

/-- Mapped stores keep the canonical form, of memory and of all that they show in their gaps (`runStores_shown`). -/
theorem inv_stores {es : List ElemStore} (hmapped : ∀ e ∈ es, e.mapped = true) : (runStores es s).Inv := by
  obtain ⟨new, hframes, hshown, hvis⟩ := runStores_shown es s
  have shown : ∀ m ∈ new, m.wf ∧ m.draw = s.mem.draw := by
    intro m hm
    obtain ⟨n, -, -, rfl⟩ := hshown m hm
    exact ⟨Memory.storeAll_wf hinv.mem_wf fun e he => hmapped e (List.mem_of_mem_take he), Memory.storeAll_draw _ _⟩
  have drawn := hinv.mem_drawn
  exact {
    mem_wf := by
      rw [runStores_mem]
      exact Memory.storeAll_wf hinv.mem_wf hmapped
    vis_wf := by
      rcases hvis with hkept | hnew
      · rw [hkept]
        exact hinv.vis_wf
      · exact (shown _ hnew).1
    frames_wf := by
      rw [hframes]
      exact fun m hm => (List.mem_append.1 hm).elim (fun h => (shown m h).1) (hinv.frames_wf m)
    mem_drawn := by rwa [runStores_mem, Memory.storeAll_draw, runStores_draws]
    vis_drawn := by
      rw [runStores_draws]
      rcases hvis with hkept | hnew
      · rw [hkept]
        exact hinv.vis_drawn
      · rwa [(shown _ hnew).2]
    alloc_le := by rw [runStores_allocCtr]; exact hinv.alloc_le
    fault_le := by rw [runStores_faultCode]; exact hinv.fault_le
    desc_spare := by rw [runStores_desc]; exact hinv.desc_spare
    blob_sheet := by rw [runStores_blob, runStores_sheetWt, runStores_sheetHt]; exact hinv.blob_sheet
    blob_fits := by rw [runStores_blob, runStores_params]; exact hinv.blob_fits
    no_sheet := by rw [runStores_blob, runStores_sheetWt, runStores_sheetHt]; exact hinv.no_sheet
    wait_live := by rw [runStores_waiting, runStores_faultCode]; exact hinv.wait_live }

/-- Every instruction keeps the invariant, outcome by outcome; the CORE runs one only while no wait is pending. -/
theorem inv_exec {i : Instr} {t : State} (hwait : s.waiting = false) (hexec : exec i s = .next t) : t.Inv := by
  cases exec_effect hexec with
  | turned => exact inv_respond hinv _ _
  | fault _ k => exact inv_raise hinv hwait k
  | answer ws => exact inv_respond hinv _ ws
  | keyRead _ _ w =>
    have drawn : State.Inv { s with draws := s.draws + 1 } :=
      { hinv with mem_drawn := Nat.lt_succ_of_lt hinv.mem_drawn, vis_drawn := Nat.lt_succ_of_lt hinv.vis_drawn }
    exact inv_respond drawn _ _
  | pend hlive => exact { hinv with wait_live := fun _ => hlive }
  | build _ _ d hspare =>
    have built : State.Inv { s with desc := d } := { hinv with desc_spare := hspare hinv.desc_spare }
    exact inv_respond built _ _
  | compile _ _ _ blob wt ht _ hsheet hfits hne =>
    have compiled : State.Inv { s with blob := blob, sheetWt := wt, sheetHt := ht } :=
      { hinv with blob_sheet := hsheet, blob_fits := hfits, no_sheet := fun hnil => absurd hnil hne }
    exact inv_respond compiled _ _
  | store _ _ es hmapped _ ws _ c hc =>
    have counted : State.Inv { s with allocCtr := c } :=
      { hinv with
        alloc_le := by
          obtain rfl | ⟨-, hfree, rfl⟩ | ⟨-, rfl⟩ := hc
          · exact hinv.alloc_le
          · exact (toNat_add_one hfree).trans_le hfree
          · exact Nat.zero_le _ }
    exact inv_respond (inv_stores counted hmapped) _ ws

theorem inv_runCommand {c : Command} {t : State} (hwait : s.waiting = false) (hrun : runCommand c s = .next t) :
    t.Inv := by
  obtain ⟨i, -, hexec⟩ | ⟨-, rfl⟩ | ⟨-, rfl⟩ := runCommand_next hrun
  · exact inv_exec hinv hwait hexec
  · exact inv_respond hinv _ _
  · exact inv_raise hinv hwait _

/-- An event latches a memory in canonical form. -/
theorem inv_vblankEvent : s.vblankEvent.Inv := by
  have latched : State.Inv { s.latch with waiting := false } :=
    { hinv with
      vis_wf := hinv.mem_wf
      vis_drawn := hinv.mem_drawn
      frames_wf := fun m hm => (List.mem_cons.1 hm).elim (fun h => h ▸ hinv.mem_wf) (hinv.frames_wf m)
      wait_live := nofun }
  unfold State.vblankEvent
  split
  next => exact inv_respond latched _ _
  next hwait =>
    have live : s.latch = { s.latch with waiting := false } := by rw [← Bool.eq_false_iff.2 hwait]; rfl
    exact live ▸ latched

end

/-- What the beats left over hand the display: the memory, once an event. -/
theorem passAll_frames (l : List Move) (s : State) :
    (passAll l s).frames = List.replicate (l.count .vblank) s.mem ++ s.frames := by
  induction l generalizing s with
  | nil => rfl
  | cons m l ih =>
    cases m with
    | vblank =>
      rw [passAll, ih, List.count_cons_self, List.replicate_succ', List.append_assoc]
      rfl
    | keys k => simp [passAll, ih]
    | core | rst | rstDuring _ => simp [passAll, ih]

theorem abandon_frames (s u : State) :
    (s.abandon u).frames = List.replicate (u.agenda.count .vblank) u.mem ++ u.frames :=
  passAll_frames u.agenda u

/-- An abandoned command leaves the reset state and what its events had shown. -/
theorem inv_abandon {s u : State} (hu : u.Inv) : (s.abandon u).Inv := by
  refine inv_rst fun m hm => ?_
  have handed : m ∈ List.replicate (u.agenda.count .vblank) u.mem ++ u.frames := (passAll_frames u.agenda u) ▸ hm
  rcases List.mem_append.1 handed with hnew | hold
  · exact List.eq_of_mem_replicate hnew ▸ hu.mem_wf
  · exact hu.frames_wf m hold

/-! ### The model arguments -/

theorem params_exec {i : Instr} {s t : State} (hexec : exec i s = .next t) : t.params = s.params := by
  cases exec_effect hexec with
  | store => rw [State.respond_params, runStores_params]
  | _ => rfl

theorem params_runCommand {c : Command} {s t : State} (hrun : runCommand c s = .next t) : t.params = s.params := by
  obtain ⟨i, -, hexec⟩ | ⟨-, rfl⟩ | ⟨-, rfl⟩ := runCommand_next hrun
  · exact params_exec hexec
  · rfl
  · rfl

theorem params_abandon (s u : State) : (s.abandon u).params = u.params :=
  passAll_params u.agenda u

/-! ### The obligation -/

/-- Settles O7, by the cases of a step. -/
theorem stepKeepsTheInvariant : Obligations.StepKeepsTheInvariant := by
  intro s t hinv hstep
  cases step_cases hstep with
  | event ag =>
    have next : State.Inv { s with agenda := ag } := { hinv with }
    exact ⟨inv_vblankEvent next, State.vblankEvent_params _⟩
  | release => exact ⟨inv_vblankEvent hinv, State.vblankEvent_params s⟩
  | keys k ag => exact ⟨{ hinv with }, rfl⟩
  | reset ag => exact ⟨inv_rst hinv.frames_wf, rfl⟩
  | cut beats ag cmds u _ hwait hu =>
    have start : State.Inv { s with cmds := cmds, agenda := beats.map Beat.move } := { hinv with }
    obtain ⟨-, -, rfl⟩ | ⟨c, -, hrun⟩ := hu
    · have idle : State.Inv { s with agenda := beats.map Beat.move } := { hinv with }
      exact ⟨inv_abandon idle, params_abandon _ _⟩
    · have kept := params_runCommand hrun
      exact ⟨inv_abandon (inv_runCommand start hwait hrun), (params_abandon _ u).trans kept⟩
  | instant ag => exact ⟨{ hinv with }, rfl⟩
  | command c rest ag t _ hwait _ hrun =>
    have start : State.Inv { s with cmds := rest, agenda := ag } := { hinv with }
    have kept := params_runCommand hrun
    exact ⟨inv_runCommand start hwait hrun, kept⟩

end Sys2Proof.Proofs
end

section
/-! Resets, halts and waits (spec/60_exceptions.md R213, R217, R233, spec/70_reset_and_hazards.md R240, R241,
spec/44_sync_status.md R202, R203): what each kind of step leaves behind. -/

namespace Sys2Proof.Proofs

open Sys2Proof Sys2Proof.Machine

/-! ### The CORE's step -/

/-- Settles O5, by the equations of a step at the CORE's turn. -/
theorem stepRunsTheDecodedInstruction : Obligations.StepRunsTheDecodedInstruction := by
  refine ⟨fun s c rest i hcmds hwait hdec _ => ⟨fun hagenda => ?_, fun ag hagenda => ?_⟩, fun s nbits w i hword => ?_⟩
  · rw [step_nil hagenda hwait, coreTurn_command hcmds, runCommand_of_decode hdec]
  · rw [step_core hagenda hwait, coreTurn_command (s := { s with agenda := ag }) hcmds, runCommand_of_decode hdec]
  · have hdec : decode (tableCommand nbits w) = .ok i := by
      unfold decodeTableWord at hword
      split at hword
      next j hj => rw [hj, Option.some.inj hword]
      next => cases hword
    rw [State.withFetchWord, step_core (State.offer_agenda s _) (State.offer_waiting s _),
      coreTurn_command (c := tableCommand nbits w) (rest := s.cmds) rfl, runCommand_of_decode hdec]
    rfl

/-! ### The halted CORE -/

/-- A step of a halted CORE keeps the code and memory, unless it is a reset. -/
theorem step_halted {s t : State} (hhalted : s.faultCode ≠ 0) (hstep : step s = .next t) :
    (t.faultCode = s.faultCode ∧ t.mem = s.mem) ∨ ((∃ m ∈ s.agenda.head?, m.isReset = true) ∧ t.faultCode = 0) := by
  cases step_cases hstep with
  | event ag => exact .inl ⟨State.vblankEvent_faultCode _, State.vblankEvent_mem _⟩
  | release => exact .inl ⟨State.vblankEvent_faultCode s, State.vblankEvent_mem s⟩
  | keys k ag => exact .inl ⟨rfl, rfl⟩
  | reset ag hagenda =>
    obtain hrst | ⟨-, beats, hcut⟩ := hagenda
    · exact .inr ⟨⟨.rst, by rw [hrst]; rfl, rfl⟩, rfl⟩
    · exact .inr ⟨⟨.rstDuring beats, by rw [hcut]; rfl, rfl⟩, rfl⟩
  | cut beats ag cmds u hagenda => exact .inr ⟨⟨.rstDuring beats, by rw [hagenda]; rfl, rfl⟩, rfl⟩
  | instant ag => exact .inl ⟨rfl, rfl⟩
  | command c rest ag t _ _ _ hrun =>
    obtain ⟨r, rfl⟩ := runCommand_halted (s := { s with cmds := rest, agenda := ag }) hhalted hrun
    exact .inl ⟨rfl, rfl⟩

/-- Settles O13, by `step_halted`. -/
theorem onlyResetClearsTheFaultCode : Obligations.OnlyResetClearsTheFaultCode :=
  fun _ _ hhalted hstep => (step_halted hhalted hstep).imp_left And.left

/-- What a halted CORE does with a command that is neither NOP nor STAT.RD, legal or not (R213). -/
theorem runCommand_turnedAway {c : Command} {s : State} (hhalted : s.faultCode ≠ 0)
    (hother : ¬(decode c = .ok .nop ∨ decode c = .ok .statRd)) : runCommand c s = .next (turnedAway s) := by
  obtain ⟨hnop, hstat⟩ := not_or.1 hother
  cases hdec : decode c with
  | ok i =>
    rw [hdec] at hnop hstat
    rw [runCommand_of_decode hdec, exec_halted hhalted (by rintro rfl; exact hnop rfl) (by rintro rfl; exact hstat rfl)]
  | error e => rw [runCommand_of_decode_error hdec, if_neg hhalted]

/-- NOP and STAT.RD answer halted or not, and change nothing (R213). -/
theorem runCommand_status {c : Command} (hstatus : decode c = .ok .nop ∨ decode c = .ok .statRd) (s : State) :
    ∃ ws, runCommand c s = .next (s.respond .ok ws) := by
  obtain hnop | hstat := hstatus
  · exact ⟨_, (runCommand_of_decode hnop s).trans (exec_nop s)⟩
  · exact ⟨_, (runCommand_of_decode hstat s).trans (exec_statRd s)⟩

/-- Settles O12: the halted CORE's commands, the live one's, and what goes on while it is halted by `step_halted`. -/
theorem everyCommandPassesThePrologue : Obligations.EveryCommandPassesThePrologue := by
  refine ⟨fun c s hhalted => ⟨fun hstatus => ?_, runCommand_turnedAway hhalted⟩, fun c s hlive => ⟨fun e herr => ?_,
    fun i hdec => runCommand_of_decode hdec s⟩, fun s t hhalted hhead hstep => ?_⟩
  · obtain ⟨ws, hrun⟩ := runCommand_status hstatus s
    exact ⟨ws, hrun, fun i hdec => runCommand_of_decode hdec s⟩
  · rw [runCommand_of_decode_error herr, if_pos hlive]
  · have kept : t.faultCode = s.faultCode ∧ t.mem = s.mem := by
      refine (step_halted hhalted hstep).resolve_right fun ⟨⟨m, hm, hreset⟩, _⟩ => ?_
      rw [hhead m hm] at hreset
      cases hreset
    have moved {u : State} (hu : step s = .next u) : u = t := Host.Outcome.next.inj (hu.symm.trans hstep)
    refine ⟨kept.1, kept.2, fun ag hagenda => ?_, fun k ag hagenda => ?_⟩
    · obtain rfl := moved (step_vblank hagenda)
      exact ⟨State.vblankEvent_vis _, State.vblankEvent_frames _⟩
    · obtain rfl := moved (step_keys hagenda)
      rfl

/-! ### Events, keys and the wait -/

/-- The event outside a command, field by field. -/
theorem vblankEvent_eq (s : State) : s.vblankEvent = { s with
    vis := s.mem, frames := s.mem :: s.frames, waiting := false,
    rsp := if s.waiting then { status := .ok, words := [] } :: s.rsp else s.rsp } := by
  unfold State.vblankEvent
  split
  next => rfl
  next hwait => rw [← Bool.eq_false_iff.2 hwait]; rfl

/-- Settles O19, by the equations of a step at an event and at a key change. -/
theorem vblankEventLatchesVis : Obligations.VblankEventLatchesVis := by
  refine ⟨fun s ag hagenda => ?_, fun s k ag => step_keys⟩
  rw [step_vblank hagenda, vblankEvent_eq]

/-- Settles O20: the command, then the steps of the pending wait. -/
theorem vblWaitPendsUntilTheEvent : Obligations.VblWaitPendsUntilTheEvent := by
  refine ⟨encodes_vblWait, fun s hlive => ⟨unlessHalted_live hlive _, fun ag => step_core_waiting rfl rfl,
    fun ag => ?_⟩, fun s hhalted => exec_halted hhalted nofun nofun⟩
  rw [step_vblank (ag := ag) rfl, vblankEvent_eq]
  rfl

/-- A run takes its first step, then the rest. -/
theorem run_succ {M : Host.Core} {s t : M.State} (hstep : M.step s = .next t) (n : Nat) :
    M.run (n + 1) s = M.run n t := by
  rw [Host.Core.run, hstep]

/-- Within `n` steps a pending wait has been answered, memory and the CORE's registers as they are in `s`. -/
def ReleasedWithin (n : Nat) (s : State) : Prop :=
  ∃ (k : Nat) (t : State), k ≤ n ∧ Sys2Proof.core.run k s = .next t ∧ t.waiting = false ∧ t.vis = s.mem ∧
    t.mem = s.mem ∧ t.rsp = { status := .ok, words := [] } :: s.rsp ∧ t.desc = s.desc ∧ t.allocCtr = s.allocCtr ∧
    t.faultCode = s.faultCode ∧ t.blob = s.blob

/-- The step of the event itself. -/
theorem releasedWithin_event {s : State} {ag : List Move} (hwait : s.waiting = true)
    (hstep : step s = .next (State.vblankEvent { s with agenda := ag })) (n : Nat) : ReleasedWithin (n + 1) s := by
  rw [vblankEvent_eq, hwait] at hstep
  exact ⟨1, _, Nat.le_add_left 1 n, run_succ (M := Sys2Proof.core) hstep 0, rfl, rfl, rfl, rfl, rfl, rfl, rfl, rfl⟩

/-- One more instant, in which the keys may change. -/
theorem releasedWithin_instant {s : State} {ag : List Move} {keys : BitVec 10} {n : Nat}
    (hstep : step s = .next { s with agenda := ag, keyIn := keys })
    (hlater : ReleasedWithin n { s with agenda := ag, keyIn := keys }) : ReleasedWithin (n + 1) s := by
  obtain ⟨k, t, hk, hrun, released⟩ := hlater
  exact ⟨k + 1, t, Nat.succ_le_succ hk, (run_succ (M := Sys2Proof.core) hstep k).trans hrun, released⟩

theorem releasedWithin_agenda {l : List Move} (hnone : ∀ m ∈ l, m.isReset = false) {s : State}
    (hagenda : s.agenda = l) (hwait : s.waiting = true) : ReleasedWithin (l.length + 1) s := by
  induction l generalizing s with
  | nil => exact releasedWithin_event (ag := s.agenda) hwait (step_nil_waiting hagenda hwait) 0
  | cons m l ih =>
    obtain ⟨hm, hrest⟩ := List.forall_mem_cons.1 hnone
    cases m with
    | vblank => exact releasedWithin_event hwait (step_vblank hagenda) _
    | keys k => exact releasedWithin_instant (step_keys hagenda) (ih hrest rfl hwait)
    | core =>
      exact releasedWithin_instant (keys := s.keyIn) (step_core_waiting hagenda hwait) (ih hrest rfl hwait)
    | rst | rstDuring _ => cases hm

/-- Settles O21, by induction on the agenda: its first event releases the wait, and its end does too (log 7). -/
theorem pendingWaitIsReleased : Obligations.PendingWaitIsReleased :=
  fun _ hwait hnone => releasedWithin_agenda hnone rfl hwait

/-! ### Resets -/

theorem exists_cutCommand_rst (beats : List Beat) (s : State) : ∃ w : State, cutCommand beats s = .next w.rst := by
  cases hcmds : s.cmds with
  | nil => exact ⟨_, cutCommand_idle hcmds beats⟩
  | cons c rest =>
    obtain ⟨u, hrun⟩ := exists_runCommand_next c { s with cmds := rest, agenda := beats.map Beat.move }
    exact ⟨_, cutCommand_of_run hcmds hrun⟩

/-- A step at a reset entry ends in a reset, whatever it interrupts. -/
theorem exists_step_rst {s : State} {m : Move} {ag : List Move} (hagenda : s.agenda = m :: ag)
    (hreset : m.isReset = true) : ∃ w : State, step s = .next w.rst := by
  cases m with
  | rst => exact ⟨_, step_rst hagenda⟩
  | rstDuring beats =>
    cases hwait : s.waiting with
    | true => exact ⟨_, step_rstDuring_waiting hagenda hwait⟩
    | false =>
      rw [step_rstDuring hagenda hwait]
      exact exists_cutCommand_rst beats _
  | vblank | keys _ | core => cases hreset

/-- No instruction leaves the halted state or replaces the first fault (R212, R217). -/
theorem faultCode_eq_of_exec {i : Instr} {s t : State} (hhalted : s.faultCode ≠ 0) (hexec : exec i s = .next t) :
    t.faultCode = s.faultCode := by
  cases exec_effect hexec with
  | fault hlive => exact absurd hlive hhalted
  | store hlive => exact absurd hlive hhalted
  | _ => rfl

/-- Settles O9: every reset entry ends in `State.rst`, and of the instructions by `Effect`. -/
theorem resetLeavesInternalRegistersZero : Obligations.ResetLeavesInternalRegistersZero := by
  refine ⟨fun s m ag hagenda hreset => ?_,
    fun i s t hexec => ⟨fun hhalted => faultCode_eq_of_exec hhalted hexec, fun hblob => blob_eq_of_exec hblob hexec⟩⟩
  obtain ⟨w, hstep⟩ := exists_step_rst hagenda hreset
  exact ⟨w.rst, hstep, rfl, rfl, rfl, rfl, rfl, rfl, rfl, rfl, fun j => exec_blobRd_ge rfl (Nat.zero_le _)⟩

/-! ### What an abandoned command leaves -/

/-- What the other agents did during a command takes the front off the agenda. -/
theorem runCommand_passed {c : Command} {s t : State} (hrun : runCommand c s = .next t) :
    ∃ used, s.agenda = used ++ t.agenda ∧ Passed used s t := by
  have moved : ∃ n, OthersMoved n s t := by
    obtain ⟨i, -, hexec⟩ | ⟨-, rfl⟩ | ⟨-, rfl⟩ := runCommand_next hrun
    · exact ⟨_, commandsDoNotWriteVis i s t hexec⟩
    · exact ⟨0, othersMoved_of_noOtherMoved 0 ⟨rfl, rfl, rfl, rfl⟩⟩
    · exact ⟨0, othersMoved_of_noOtherMoved 0 ⟨rfl, rfl, rfl, rfl⟩⟩
  obtain ⟨-, used, hsplit, noReset, -, -, handed, count, latched, kept, keys⟩ := moved
  exact ⟨used, hsplit, noReset, handed, count, latched, kept, keys⟩

/-- No command takes a draw back. -/
theorem draws_le_of_runCommand {c : Command} {s t : State} (hrun : runCommand c s = .next t) : s.draws ≤ t.draws := by
  obtain ⟨i, -, hexec⟩ | ⟨-, rfl⟩ | ⟨-, rfl⟩ := runCommand_next hrun
  · cases exec_effect hexec with
    | keyRead => exact Nat.le_succ _
    | store => rw [State.respond_draws, runStores_draws]
    | _ => exact le_rfl
  · exact le_rfl
  · exact le_rfl

theorem beats_noReset (beats : List Beat) : ∀ m ∈ beats.map Beat.move, m.isReset = false := by
  intro m hm
  obtain ⟨b, -, rfl⟩ := List.mem_map.1 hm
  cases b <;> rfl

theorem move_injective : Function.Injective Beat.move := by
  intro a b h
  cases a <;> cases b <;> simp_all [Beat.move]

/-- All beats of a reset inside a command pass, in its gaps or after its last store. -/
theorem cut_passed {c : Command} {s u : State} {beats : List Beat} (hagenda : s.agenda = beats.map Beat.move)
    (hrun : runCommand c s = .next u) : Passed (beats.map Beat.move) s (passAll u.agenda u) := by
  obtain ⟨used, hsplit, hpassed⟩ := runCommand_passed hrun
  rw [hagenda] at hsplit
  rw [hsplit]
  refine hpassed.trans (passAll_passed (fun m hm => beats_noReset beats m ?_) u)
  rw [hsplit]
  exact List.mem_append_right used hm

/-- A byte after a reset stands on its draw (spec/10_state.md R31). -/
theorem byte_unwritten (n a : Nat) : Memory.byte { draw := n, cells := [] } a = Config.resetByte n a := rfl

/-- TILE.WRW cut short with an event after `k + 1` of its stores and no other: the display has been handed the memory
after these, be it in a gap or, for all eight, after the last store. -/
theorem abandon_tileWrw_frames {s : State} {t : Half} {ws : List Word} {k : Nat} (hlen : ws.length = 8) (hk : k < 8)
    (hagenda : s.agenda = List.replicate k .core ++ [.vblank]) (s' : State) :
    (s'.abandon ((runStores (wordStores (elemAddr .objtile t.toNat) ws) s).respond .ok [])).frames =
      s.mem.storeAll ((wordStores (elemAddr .objtile t.toNat) ws).take (k + 1)) :: s.frames := by
  have count : (wordStores (elemAddr .objtile t.toNat) ws).length = 8 := (wordStores_length _ _).trans hlen
  generalize wordStores (elemAddr .objtile t.toNat) ws = es at count ⊢
  rw [abandon_frames]
  cases es with
  | nil => cases count
  | cons e es => exact runLater_shownByEnd (s := s.storeElem e) hagenda (by rw [List.length_cons] at count; omega)

/-- Settles O10: the three resets by the equations of their steps, what fell before one by `Passed`. -/
theorem resetAbandonsTheCommand : Obligations.ResetAbandonsTheCommand := by
  refine ⟨fun s ag hagenda => ?_, fun s beats ag c rest hagenda hwait hcmds => ?_,
    fun s k ag c rest t ws hagenda hwait hcmds hdec hlive ht hk => ?_⟩
  · refine ⟨State.rst { s with agenda := ag }, ?_, rfl, rfl, rfl, rfl, rfl, rfl,
      fun a => ⟨byte_unwritten _ a, byte_unwritten _ a⟩⟩
    obtain hrst | ⟨hwait, beats, hcut⟩ := hagenda
    · exact step_rst hrst
    · exact step_rstDuring_waiting hcut hwait
  · obtain ⟨u, hrun⟩ := exists_runCommand_next c { s with cmds := rest, agenda := beats.map Beat.move }
    have hpassed := cut_passed rfl hrun
    have draws := draws_le_of_runCommand hrun
    have counted : (beats.map Beat.move).count .vblank = beats.count .vblank :=
      List.count_map_of_injective beats _ move_injective .vblank
    refine ⟨_, (step_rstDuring hagenda hwait).trans (cutCommand_of_run hcmds hrun), rfl, rfl, rfl, rfl, rfl, rfl, rfl,
      rfl, hpassed.keys, hpassed.handed, counted ▸ hpassed.count, u.draws, draws, fun a => ?_⟩
    have drawn : (passAll u.agenda u).draws = u.draws := passAll_draws u.agenda u
    rw [← drawn]
    exact ⟨byte_unwritten _ a, byte_unwritten _ a⟩
  · have beats : (List.replicate k Beat.core ++ [Beat.vblank]).map Beat.move = List.replicate k .core ++ [.vblank] := by
      simp [Beat.move]
    have hlen : ws.length = 8 := beq_iff_eq.1 (wf_and_encode_of_decode hdec).1
    have hrun := exec_tileWrw_lt (s := { s with cmds := rest, agenda := List.replicate k .core ++ [.vblank] })
      (ws := ws) hlive hlen ht
    rw [← runCommand_of_decode hdec, ← beats] at hrun
    refine ⟨_, _, (step_rstDuring hagenda hwait).trans (cutCommand_of_run hcmds hrun), rfl,
      abandon_tileWrw_frames hlen hk beats _, fun r hr => ?_⟩
    exact word_storeAll_firstRows s.mem t.toNat (hlen ▸ hr)

end Sys2Proof.Proofs
end
